-- ==== Sys2Proof/Word.lean ====
section
/-! DEFINITION. The word types of the VescUart protocol engine (00_scope.md R12, R15, R16). -/

namespace Sys2Proof

/-- A byte: eight bits, bit 0 least significant (R12, R15). -/
abbrev Byte := BitVec 8

/-- A 32-bit value: an immediate, a wire integer, a mask, a scale or a snapshot register (R12). -/
abbrev Word32 := BitVec 32

/-- A clock value in milliseconds, `W` = 32 bits wide (R10). -/
abbrev Time := BitVec 32

/-- A host operation word (30_encoding.md R111). -/
abbrev OpWord := BitVec 64

end Sys2Proof
end

