-- ==== Sys2Proof/Config.lean ====
section
/-! DEFINITION. The implementation parameters of 00_scope.md R10 at the values this spec fixes for
`VescUart-CORE`, and the free values of the model. Values that R10 marks *gk* are the spec's own,
taken by it from general knowledge (log entry 4). -/

namespace Sys2Proof

/-- The two byte buffers of the engine (20_memory.md R82). -/
inductive Buffer where
  | txpay
  | rxbuf
  deriving DecidableEq, Repr

/-- The eleven commands of the closed catalogue (30_encoding.md R120). -/
inductive CommandName where
  | fwVersion
  | getValues
  | setDuty
  | setCurrent
  | setCurrentBrake
  | setRpm
  | setPos
  | alive
  | forwardCan
  | setChuckData
  | getValuesSelective
  deriving DecidableEq, Repr

/-- The wire types a telemetry field can have (41_field_codec.md R160, 44_command_dispatch.md R320). -/
inductive FieldType where
  | u8
  | s16
  | s32
  deriving DecidableEq, Repr

/-- Bytes a field of this type takes on the wire (R160). -/
def FieldType.width : FieldType → Nat
  | .u8 => 1
  | .s16 => 2
  | .s32 => 4

/-- One row of `TELEM_TABLE` (44_command_dispatch.md R320). -/
structure TelemEntry where
  bit : Fin 18
  field : String
  type : FieldType
  scale : Nat
  deriving DecidableEq, Repr

namespace Config

/-- `RXBUF_SIZE` (R10). -/
def rxbufSize : Nat := 256

/-- `TXCAP` (R10). -/
def txCap : Nat := 512

/-- The size of each buffer (20_memory.md R82). -/
def bufSize : Buffer → Nat
  | .txpay => txCap
  | .rxbuf => rxbufSize

/-- `TIMEOUT_RESET`, in milliseconds (R10). -/
def timeoutReset : Time := 100

/-- `START_SHORT` (R10). -/
def startShort : Byte := 0x02

/-- `START_LONG` (R10). -/
def startLong : Byte := 0x03

/-- `END_MARK` (R10). -/
def endMark : Byte := 0x03

/-- `CRC_POLY`, `CRC_INIT`, `CRC_REFIN`, `CRC_REFOUT` and `CRC_XOROUT` (R10), fixed for a run (R11). -/
structure CrcParams where
  poly : BitVec 16
  init : BitVec 16
  refIn : Bool
  refOut : Bool
  xorOut : BitVec 16
  deriving DecidableEq, Repr

/-- The CRC parameters of `VescUart-CORE` (R10). -/
def crc : CrcParams :=
  { poly := 0x1021, init := 0x0000, refIn := false, refOut := false, xorOut := 0x0000 }

/-- `CMD_ID`: the identifier byte of each command (30_encoding.md R121). -/
def cmdId : CommandName → Byte
  | .fwVersion => 0x00
  | .getValues => 0x04
  | .setDuty => 0x05
  | .setCurrent => 0x06
  | .setCurrentBrake => 0x07
  | .setRpm => 0x08
  | .setPos => 0x09
  | .alive => 0x1E
  | .forwardCan => 0x22
  | .setChuckData => 0x23
  | .getValuesSelective => 0x32

/-- `AUX_PAD`: zero bytes after the auxiliary fields (R10). -/
def auxPad : Nat := 6

/-- `AUX_DEFAULT_AXIS` (R10). -/
def auxDefaultAxis : Byte := 127

/-- `TELEM_TABLE`, in ascending bit order (44_command_dispatch.md R320). -/
def telemTable : List TelemEntry :=
  [ ⟨0, "temp_fet", .s16, 10⟩,
    ⟨1, "temp_motor", .s16, 10⟩,
    ⟨2, "avg_motor_current", .s32, 100⟩,
    ⟨3, "avg_input_current", .s32, 100⟩,
    ⟨4, "avg_id", .s32, 100⟩,
    ⟨5, "avg_iq", .s32, 100⟩,
    ⟨6, "duty_now", .s16, 1000⟩,
    ⟨7, "rpm", .s32, 1⟩,
    ⟨8, "v_in", .s16, 10⟩,
    ⟨9, "amp_hours", .s32, 10000⟩,
    ⟨10, "amp_hours_charged", .s32, 10000⟩,
    ⟨11, "watt_hours", .s32, 10000⟩,
    ⟨12, "watt_hours_charged", .s32, 10000⟩,
    ⟨13, "tachometer", .s32, 1⟩,
    ⟨14, "tachometer_abs", .s32, 1⟩,
    ⟨15, "fault_code", .u8, 1⟩,
    ⟨16, "pid_pos", .s32, 1000000⟩,
    ⟨17, "controller_id", .u8, 1⟩ ]

/-- FREE VALUE (log entry 3): what the `draw`-th draw of byte `addr` of a buffer gives when nothing
has written that byte since reset (20_memory.md R83, 93_implementation_defined.md U4) or, for `FRAME_CHECK`,
when the current receive has not (42_frame_codec.md R205). -/
opaque freeByte (buf : Buffer) (addr draw : Nat) : Byte

/-- FREE VALUE (log entry 19): `HOST_FLOAT_DIV` (R10), what the host's own arithmetic makes of the exact
reading `raw / scale` (41_field_codec.md R168, 93_implementation_defined.md U1). -/
opaque hostFloatDiv (raw : Int) (scale : Nat) : ℚ

end Config

end Sys2Proof
end

