-- ==== Sys2Proof/Machine/CrcEngine.lean ====
section
/-! DEFINITION. The CRC Engine's pure function (40_crc.md R140 to R142). -/

namespace Sys2Proof.Machine

/-- One turn of the inner loop: shift left, and subtract the polynomial when bit 15 falls out (R140). -/
def crcShift (poly c : BitVec 16) : BitVec 16 :=
  if c.getLsbD 15 then (c <<< 1) ^^^ poly else c <<< 1

/-- `n` turns of the inner loop (R140). -/
def crcShifts (poly : BitVec 16) : Nat → BitVec 16 → BitVec 16
  | 0, c => c
  | n + 1, c => crcShifts poly n (crcShift poly c)

/-- One byte of the outer loop: the byte enters at the top, most significant bit first (R140). -/
def crcByte (poly c : BitVec 16) (b : Byte) : BitVec 16 :=
  crcShifts poly 8 (c ^^^ (b.zeroExtend 16 <<< 8))

/-- `crc16` over a whole parameter set: a reflected set reflects each input byte and the final value
(R140). -/
def crcWith (p : Config.CrcParams) (bs : List Byte) : BitVec 16 :=
  let c := bs.foldl (fun c b => crcByte p.poly c (if p.refIn then b.reverse else b)) p.init
  (if p.refOut then c.reverse else c) ^^^ p.xorOut

/-- `crc16(s)` with the parameters of `VescUart-CORE` (R140, 00_scope.md R10). -/
def crc16 (bs : List Byte) : BitVec 16 := crcWith Config.crc bs

end Sys2Proof.Machine
end

