-- ==== Sys2Proof/Syntax.lean ====
section
/-! DEFINITION. The instructions: one constructor of `Instr` for each row of spec/opcode_table.json:
31 host operations (30_encoding.md R110), 11 wire commands (R120) and 2 frame forms (R100, R101). -/

namespace Sys2Proof

/-- A command of the catalogue with its arguments, as the engine encodes it (44_command_dispatch.md
R291). The CAN-forward wrapper is no member: it is the leading pair of bytes of R312. -/
inductive Command where
  | fwVersion
  | getValues
  | getValuesSelective (mask : Word32)
  | setCurrent (v : Word32)
  | setCurrentBrake (v : Word32)
  | setRpm (v : Word32)
  | setPos (v : Word32)
  | setDuty (v : Word32)
  | setChuckData (x y : Byte) (lower upper : Bool)
  | alive
  deriving DecidableEq, Repr

/-- A wire form at one of the engine's two byte ports (log entry 5). `outbound` holds what the engine
encodes and emits; `inbound` holds the bytes that follow the first byte (the command identifier or the
start marker) of what the engine receives, whatever they are. -/
inductive Wire (α : Type) where
  | outbound (args : α)
  | inbound (rest : List Byte)
  deriving DecidableEq, Repr

/-- The instructions of the engine. Operands stand in the order of R110; a setpoint is the 32-bit
pattern of the `s32` operand (R112). -/
inductive Instr where
  -- host operations (30_encoding.md R110)
  | crc16 (buf : Buffer) (off n : BitVec 16)
  | payReset
  | appendU8 (v : Byte)
  | appendBool (b : Bool)
  | appendInt32 (v : Word32)
  | appendUint32 (v : Word32)
  | rxSeek (p : Byte)
  | getU8
  | getInt32
  | getUint32
  | getFloat16 (scale : Word32)
  | getFloat32 (scale : Word32)
  | frameSend
  | frameCheck (n : Word32)
  | recvBlocking (t : Time)
  | arm (hint : BitVec 16)
  | poll
  | decodePayload
  | reqFwVersion (can : Byte)
  | reqValues (can : Byte)
  | reqValuesSel (can : Byte) (mask : Word32)
  | setCurrent (can : Byte) (v : Word32)
  | setCurrentBrake (can : Byte) (v : Word32)
  | setRpm (can : Byte) (v : Word32)
  | setPos (can : Byte) (v : Word32)
  | setDuty (can : Byte) (v : Word32)
  | setAux (can : Byte)
  | sendAlive (can : Byte)
  | auxWrite (x y : Byte) (lower upper : Bool)
  | cfgTimeout (t : Time)
  | clrErr
  -- wire commands (30_encoding.md R120)
  | commFwVersion (w : Wire Unit)
  | commGetValues (w : Wire Unit)
  | commSetDuty (w : Wire Word32)
  | commSetCurrent (w : Wire Word32)
  | commSetCurrentBrake (w : Wire Word32)
  | commSetRpm (w : Wire Word32)
  | commSetPos (w : Wire Word32)
  | commAlive (w : Wire Unit)
  | commForwardCan (w : Wire (Byte × Command))
  | commSetChuckData (w : Wire (Byte × Byte × Bool × Bool))
  | commGetValuesSelective (w : Wire Word32)
  -- frame forms (30_encoding.md R100, R101)
  | frameShort (w : Wire (List Byte))
  | frameLong (w : Wire (List Byte))
  deriving DecidableEq, Repr

/-- What an instruction is encoded in: a word at the host port, a payload, or a frame; a payload and a
frame stand at the engine's output or at its input (30_encoding.md's two kinds of encoding). -/
inductive Item where
  | host (w : OpWord)
  | payloadOut (bytes : List Byte)
  | payloadIn (bytes : List Byte)
  | frameOut (bytes : List Byte)
  | frameIn (bytes : List Byte)
  deriving DecidableEq, Repr

end Sys2Proof
end

