-- ==== Sys2Proof/Machine/Operands.lean ====
section
/-! DEFINITION. Operand forms: the fields of the host operation word (30_encoding.md R111, R112) and
the pure encoders and decoders of the Binary Field Codec (41_field_codec.md R160 to R167). -/

namespace Sys2Proof.Machine

/-- The operation word with the given fields (R111). -/
def hostWord (sel f1 f2 f3 : Byte) (imm : Word32) : OpWord :=
  imm ++ (f3 ++ (f2 ++ (f1 ++ sel)))

/-- `SEL` = bits [7:0] (R111). -/
def wordSel (w : OpWord) : Byte := w.extractLsb' 0 8

/-- `F1` = bits [15:8] (R111). -/
def wordF1 (w : OpWord) : Byte := w.extractLsb' 8 8

/-- `F2` = bits [23:16] (R111). -/
def wordF2 (w : OpWord) : Byte := w.extractLsb' 16 8

/-- `F3` = bits [31:24] (R111). -/
def wordF3 (w : OpWord) : Byte := w.extractLsb' 24 8

/-- `IMM` = bits [63:32] (R111). -/
def wordImm (w : OpWord) : Word32 := w.extractLsb' 32 32

/-- `IMM[31:16]`: the offset of `CRC16` (R112). -/
def immHi (imm : Word32) : BitVec 16 := imm.extractLsb' 16 16

/-- `IMM[15:0]`: the count of `CRC16`, the hint of `ARM` (R112). -/
def immLo (imm : Word32) : BitVec 16 := imm.extractLsb' 0 16

/-- The buffer operand of `CRC16`: `F1[0]`, 0 for `TXPAY`, 1 for `RXBUF` (40_crc.md R145). -/
def bufferOf (f1 : Byte) : Buffer := if f1.getLsbD 0 then .rxbuf else .txpay

/-- The `F1` byte that selects a buffer (R145). -/
def bufferByte : Buffer → Byte
  | .txpay => 0
  | .rxbuf => 1

/-- The two button bits, `BTN_LOWER` in bit 0 and `BTN_UPPER` in bit 1: the form of `F3` in `AUX_WRITE`
and of `AUX_BTN` (44_command_dispatch.md R311, 10_state.md R31). -/
def buttonBits (lower upper : Bool) : Byte :=
  (if upper then 2 else 0) ||| (if lower then 1 else 0)

/-- `enc_bool` (41_field_codec.md R161). -/
def encBool (b : Bool) : List Byte := [if b then 1 else 0]

/-- `enc_s32` and `enc_u32` on the 32-bit pattern: big-endian (R161, 20_memory.md R80). -/
def enc32 (v : Word32) : List Byte :=
  [v.extractLsb' 24 8, v.extractLsb' 16 8, v.extractLsb' 8 8, v.extractLsb' 0 8]

/-- The unsigned value of bytes, the first most significant (20_memory.md R84). -/
def beNat (bs : List Byte) : Nat := bs.foldl (fun acc b => acc * 256 + b.toNat) 0

/-- `zext_32(dec_u8(bs))` (41_field_codec.md R162, R166). -/
def decU8 (bs : List Byte) : Word32 := (BitVec.ofNat 8 (beNat bs)).zeroExtend 32

/-- `sext_32(dec_s16(bs))` (R162, R166). -/
def decS16 (bs : List Byte) : Word32 := (BitVec.ofNat 16 (beNat bs)).signExtend 32

/-- The 32-bit pattern of `dec_s32(bs)` and of `dec_u32(bs)`, which is one (R162, R167). -/
def dec32 (bs : List Byte) : Word32 := BitVec.ofNat 32 (beNat bs)

/-- `ext_32(dec_type(bs))`: sign-extended for `s16` and `s32`, zero-extended for `u8`
(44_command_dispatch.md R332, 10_state.md R36). -/
def decField : FieldType → List Byte → Word32
  | .u8 => decU8
  | .s16 => decS16
  | .s32 => dec32

/-- `n` bytes of a byte-addressed space from offset `a` (00_scope.md R15, `s[a..a+n)`). -/
def readRange (get : Nat → Byte) (a n : Nat) : List Byte :=
  (List.range n).map fun i => get (a + i)

end Sys2Proof.Machine
end

