-- ==== Sys2Proof/Machine/FrameCodec.lean ====
section
/-! DEFINITION. The pure functions of the Frame Codec (42_frame_codec.md R200, R204) and the encode
shapes of the Command Dispatcher (44_command_dispatch.md R291, R300). -/

namespace Sys2Proof.Machine

/-- `[c[15:8], c[7:0], END_MARK]`: what follows the payload of every frame (30_encoding.md R100, R101). -/
def frameTail (p : List Byte) : List Byte :=
  [(crc16 p).extractLsb' 8 8, (crc16 p).extractLsb' 0 8, Config.endMark]

/-- The short form (30_encoding.md R100). -/
def shortFrame (p : List Byte) : List Byte :=
  [Config.startShort, BitVec.ofNat 8 p.length] ++ p ++ frameTail p

/-- The long form (30_encoding.md R101). -/
def longFrame (p : List Byte) : List Byte :=
  [Config.startLong, BitVec.ofNat 8 (p.length / 256), BitVec.ofNat 8 p.length] ++ p ++ frameTail p

/-- `FrameEncode(p)` for `|p|` ≤ 65535: short up to 255 bytes, else long (42_frame_codec.md R200). -/
def frameEncode (p : List Byte) : List Byte :=
  if p.length ≤ 255 then shortFrame p else longFrame p

/-- `FrameDecode(B, n)`: whether the embedded CRC is the CRC of the payload region, and that region
(42_frame_codec.md R204). It reads neither marker (R206). Its precondition `n = B[1] + 5`,
5 ≤ `n` ≤ 256 is `frameShaped`. -/
def frameDecode (get : Nat → Byte) (n : Nat) : Bool × List Byte :=
  let view := readRange get 2 (get 1).toNat
  (decide (get (n - 3) ++ get (n - 2) = crc16 view), view)

/-- The precondition of `FrameDecode` (42_frame_codec.md R204). -/
def frameShaped (get : Nat → Byte) (n : Nat) : Bool :=
  decide (5 ≤ n ∧ n ≤ 256 ∧ (get 1).toNat + 5 = n)

end Sys2Proof.Machine

namespace Sys2Proof

/-- Which command of the catalogue this is. -/
def Command.name : Command → CommandName
  | .fwVersion => .fwVersion
  | .getValues => .getValues
  | .getValuesSelective _ => .getValuesSelective
  | .setCurrent _ => .setCurrent
  | .setCurrentBrake _ => .setCurrentBrake
  | .setRpm _ => .setRpm
  | .setPos _ => .setPos
  | .setDuty _ => .setDuty
  | .setChuckData .. => .setChuckData
  | .alive => .alive

/-- `args(c)` (44_command_dispatch.md R291). -/
def Command.args : Command → List Byte
  | .fwVersion => []
  | .getValues => []
  | .getValuesSelective mask => Machine.enc32 mask
  | .setCurrent v => Machine.enc32 v
  | .setCurrentBrake v => Machine.enc32 v
  | .setRpm v => Machine.enc32 v
  | .setPos v => Machine.enc32 v
  | .setDuty v => Machine.enc32 v
  | .setChuckData x y lower upper =>
      [x, y] ++ Machine.encBool lower ++ Machine.encBool upper ++ List.replicate Config.auxPad 0
  | .alive => []

/-- `[CMD_ID(c)] ++ args(c)` (30_encoding.md R105). -/
def Command.payload (c : Command) : List Byte := Config.cmdId c.name :: c.args

/-- The payload `Build(c, can, args(c))` assembles: with a non-zero peer, the forward marker and the
peer id come first (44_command_dispatch.md R300, R312). -/
def Command.addressed (c : Command) (can : Byte) : List Byte :=
  (if can ≠ 0 then [Config.cmdId .forwardCan, can] else []) ++ c.payload

end Sys2Proof
end

