-- ==== Sys2Proof/WellFormed.lean ====
section
/-! DEFINITION. Which terms of `Instr` stand for something the engine can encode or receive. Every
host operation is well formed: each operand is typed by its width (30_encoding.md R112). -/

namespace Sys2Proof

/-- A payload the receiver can deliver has at most 251 bytes (43_receiver.md R234), so at most 250
follow its command identifier. -/
def Wire.wfInbound {α : Type} : Wire α → Bool
  | .outbound _ => true
  | .inbound rest => decide (rest.length ≤ 250)

/-- The checks: a forward wrapper carries a non-zero peer (44_command_dispatch.md R312); a short frame
carries at most 255 payload bytes (R100) and a long one 256 to 65535 (R101); an inbound payload fits
the receiver. -/
def Instr.wf : Instr → Bool
  | .commForwardCan (.outbound (peer, _)) => decide (peer ≠ 0)
  | .frameShort (.outbound p) => decide (p.length ≤ 255)
  | .frameLong (.outbound p) => decide (256 ≤ p.length ∧ p.length ≤ 65535)
  | .commFwVersion w => w.wfInbound
  | .commGetValues w => w.wfInbound
  | .commSetDuty w => w.wfInbound
  | .commSetCurrent w => w.wfInbound
  | .commSetCurrentBrake w => w.wfInbound
  | .commSetRpm w => w.wfInbound
  | .commSetPos w => w.wfInbound
  | .commAlive w => w.wfInbound
  | .commForwardCan w => w.wfInbound
  | .commSetChuckData w => w.wfInbound
  | .commGetValuesSelective w => w.wfInbound
  | .frameShort (.inbound _) => true
  | .frameLong (.inbound _) => true
  | .crc16 .. => true
  | .payReset => true
  | .appendU8 _ => true
  | .appendBool _ => true
  | .appendInt32 _ => true
  | .appendUint32 _ => true
  | .rxSeek _ => true
  | .getU8 => true
  | .getInt32 => true
  | .getUint32 => true
  | .getFloat16 _ => true
  | .getFloat32 _ => true
  | .frameSend => true
  | .frameCheck _ => true
  | .recvBlocking _ => true
  | .arm _ => true
  | .poll => true
  | .decodePayload => true
  | .reqFwVersion _ => true
  | .reqValues _ => true
  | .reqValuesSel .. => true
  | .setCurrent .. => true
  | .setCurrentBrake .. => true
  | .setRpm .. => true
  | .setPos .. => true
  | .setDuty .. => true
  | .setAux _ => true
  | .sendAlive _ => true
  | .auxWrite .. => true
  | .cfgTimeout _ => true
  | .clrErr => true

end Sys2Proof
end

