-- ==== Sys2Proof/Decode.lean ====
section
/-! DEFINITION. From encodings to instructions and back (30_encoding.md): the operation word of the host
port (R110 to R114), outbound and inbound payloads (R105, R106, R120 to R122), and the two frame forms
(R100, R101). Decoding is total and rejects by name; the encoder follows it. -/

namespace Sys2Proof

open Machine

/-- Why an item is no instruction. -/
inductive DecodeError where
  /-- A selector outside the table of R110; the engine raises `ERR_OP` (60_exceptions.md R374). -/
  | reservedSelector (sel : Byte)
  /-- A payload with no byte (44_command_dispatch.md R330). -/
  | emptyPayload
  /-- A payload whose first byte is no identifier of the catalogue (30_encoding.md R122). -/
  | unknownCommand (id : Byte)
  /-- An outbound payload that is not what the command's encode shape writes (R291). -/
  | malformedPayload (id : Byte)
  /-- A frame with no byte. -/
  | emptyFrame
  /-- A first byte that is no start marker (30_encoding.md R124). -/
  | badStart (b : Byte)
  /-- An outbound frame that is not what `FrameEncode` writes (42_frame_codec.md R200). -/
  | malformedFrame (b : Byte)
  deriving DecidableEq, Repr

/-- The command with this identifier, if the catalogue has one (30_encoding.md R121). -/
def commandWithId (id : Byte) : Option CommandName :=
  [CommandName.fwVersion, .getValues, .setDuty, .setCurrent, .setCurrentBrake, .setRpm, .setPos, .alive,
    .forwardCan, .setChuckData, .getValuesSelective].find? fun c => Config.cmdId c == id

/-- The operation word's instruction, by `SEL` alone (R110, R114). A field that the selector's row does
not name is not read (R113). -/
def decodeWord (w : OpWord) : Except DecodeError Instr :=
  match (wordSel w).toNat with
  | 0x01 => .ok (.crc16 (bufferOf (wordF1 w)) (immHi (wordImm w)) (immLo (wordImm w)))
  | 0x10 => .ok .payReset
  | 0x11 => .ok (.appendU8 (wordF1 w))
  | 0x12 => .ok (.appendBool (wordF1 w != 0))
  | 0x13 => .ok (.appendInt32 (wordImm w))
  | 0x14 => .ok (.appendUint32 (wordImm w))
  | 0x18 => .ok (.rxSeek (wordF1 w))
  | 0x19 => .ok .getU8
  | 0x1A => .ok .getInt32
  | 0x1B => .ok .getUint32
  | 0x1C => .ok (.getFloat16 (wordImm w))
  | 0x1D => .ok (.getFloat32 (wordImm w))
  | 0x20 => .ok .frameSend
  | 0x21 => .ok (.frameCheck (wordImm w))
  | 0x30 => .ok (.recvBlocking (wordImm w))
  | 0x31 => .ok (.arm (immLo (wordImm w)))
  | 0x32 => .ok .poll
  | 0x40 => .ok .decodePayload
  | 0x50 => .ok (.reqFwVersion (wordF1 w))
  | 0x51 => .ok (.reqValues (wordF1 w))
  | 0x52 => .ok (.reqValuesSel (wordF1 w) (wordImm w))
  | 0x53 => .ok (.setCurrent (wordF1 w) (wordImm w))
  | 0x54 => .ok (.setCurrentBrake (wordF1 w) (wordImm w))
  | 0x55 => .ok (.setRpm (wordF1 w) (wordImm w))
  | 0x56 => .ok (.setPos (wordF1 w) (wordImm w))
  | 0x57 => .ok (.setDuty (wordF1 w) (wordImm w))
  | 0x58 => .ok (.setAux (wordF1 w))
  | 0x59 => .ok (.sendAlive (wordF1 w))
  | 0x60 => .ok (.auxWrite (wordF1 w) (wordF2 w) ((wordF3 w).getLsbD 0) ((wordF3 w).getLsbD 1))
  | 0x70 => .ok (.cfgTimeout (wordImm w))
  | 0x71 => .ok .clrErr
  | _ => .error (.reservedSelector (wordSel w))

/-- The command an unforwarded outbound payload carries, if it is exactly that command's encoding
(44_command_dispatch.md R291). -/
def decodeCommand (bytes : List Byte) : Option Command :=
  let candidate : Option Command :=
    match bytes with
    | [] => none
    | id :: args =>
      match commandWithId id with
      | some .fwVersion => some .fwVersion
      | some .getValues => some .getValues
      | some .getValuesSelective => some (.getValuesSelective (dec32 args))
      | some .setDuty => some (.setDuty (dec32 args))
      | some .setCurrent => some (.setCurrent (dec32 args))
      | some .setCurrentBrake => some (.setCurrentBrake (dec32 args))
      | some .setRpm => some (.setRpm (dec32 args))
      | some .setPos => some (.setPos (dec32 args))
      | some .alive => some .alive
      | some .setChuckData =>
        some (.setChuckData (args.getD 0 0) (args.getD 1 0) (args.getD 2 0 != 0) (args.getD 3 0 != 0))
      | some .forwardCan => none
      | none => none
  candidate.filter fun c => c.payload == bytes

/-- The wire instruction that sends this command. -/
def Command.instr : Command → Instr
  | .fwVersion => .commFwVersion (.outbound ())
  | .getValues => .commGetValues (.outbound ())
  | .getValuesSelective mask => .commGetValuesSelective (.outbound mask)
  | .setCurrent v => .commSetCurrent (.outbound v)
  | .setCurrentBrake v => .commSetCurrentBrake (.outbound v)
  | .setRpm v => .commSetRpm (.outbound v)
  | .setPos v => .commSetPos (.outbound v)
  | .setDuty v => .commSetDuty (.outbound v)
  | .setChuckData x y lower upper => .commSetChuckData (.outbound (x, y, lower, upper))
  | .alive => .commAlive (.outbound ())

/-- An outbound payload: `[FORWARD_CAN, peer]? ++ [CMD_ID(c)] ++ args(c)` (R105, R312). -/
def decodeOutbound : List Byte → Except DecodeError Instr
  | [] => .error .emptyPayload
  | id :: args =>
    match commandWithId id with
    | none => .error (.unknownCommand id)
    | some .forwardCan =>
      match args with
      | [] => .error (.malformedPayload id)
      | peer :: wrapped =>
        if peer = 0 then .error (.malformedPayload id)
        else
          match decodeCommand wrapped with
          | some c => .ok (.commForwardCan (.outbound (peer, c)))
          | none => .error (.malformedPayload id)
    | some _ =>
      match decodeCommand (id :: args) with
      | some c => .ok c.instr
      | none => .error (.malformedPayload id)

/-- An inbound payload: byte 0 selects the command, the rest is its body (R106). -/
def decodeInbound : List Byte → Except DecodeError Instr
  | [] => .error .emptyPayload
  | id :: body =>
    match commandWithId id with
    | some .fwVersion => .ok (.commFwVersion (.inbound body))
    | some .getValues => .ok (.commGetValues (.inbound body))
    | some .setDuty => .ok (.commSetDuty (.inbound body))
    | some .setCurrent => .ok (.commSetCurrent (.inbound body))
    | some .setCurrentBrake => .ok (.commSetCurrentBrake (.inbound body))
    | some .setRpm => .ok (.commSetRpm (.inbound body))
    | some .setPos => .ok (.commSetPos (.inbound body))
    | some .alive => .ok (.commAlive (.inbound body))
    | some .forwardCan => .ok (.commForwardCan (.inbound body))
    | some .setChuckData => .ok (.commSetChuckData (.inbound body))
    | some .getValuesSelective => .ok (.commGetValuesSelective (.inbound body))
    | none => .error (.unknownCommand id)

/-- An outbound frame: its payload lies between the header and the three tail bytes, and it must be the
frame `FrameEncode` writes for that payload (R100, R101, 42_frame_codec.md R200). -/
def decodeFrameOut : List Byte → Except DecodeError Instr
  | [] => .error .emptyFrame
  | b :: rest =>
    if b = Config.startShort then
      let p := (rest.drop 1).take (rest.length - 4)
      if p.length ≤ 255 ∧ b :: rest = frameEncode p then .ok (.frameShort (.outbound p))
      else .error (.malformedFrame b)
    else if b = Config.startLong then
      let p := (rest.drop 2).take (rest.length - 5)
      if 256 ≤ p.length ∧ p.length ≤ 65535 ∧ b :: rest = frameEncode p then .ok (.frameLong (.outbound p))
      else .error (.malformedFrame b)
    else .error (.badStart b)

/-- An inbound frame: the start marker tells its form (R102); what follows is the receiver's to judge. -/
def decodeFrameIn : List Byte → Except DecodeError Instr
  | [] => .error .emptyFrame
  | b :: rest =>
    if b = Config.startShort then .ok (.frameShort (.inbound rest))
    else if b = Config.startLong then .ok (.frameLong (.inbound rest))
    else .error (.badStart b)

/-- The decoder. -/
def decode : Item → Except DecodeError Instr
  | .host w => decodeWord w
  | .payloadOut bytes => decodeOutbound bytes
  | .payloadIn bytes => decodeInbound bytes
  | .frameOut bytes => decodeFrameOut bytes
  | .frameIn bytes => decodeFrameIn bytes

/-- The encoding of a wire command: the outbound payload `out`, or its identifier and the body. -/
def encodeWire {α : Type} (name : CommandName) (out : α → List Byte) : Wire α → Item
  | .outbound args => .payloadOut (out args)
  | .inbound body => .payloadIn (Config.cmdId name :: body)

/-- The encoder (R110, R111, R105, R106, R200). Fields that no row names are written 0. -/
def encode : Instr → Item
  | .crc16 buf off n => .host (hostWord 0x01 (bufferByte buf) 0 0 (off ++ n))
  | .payReset => .host (hostWord 0x10 0 0 0 0)
  | .appendU8 v => .host (hostWord 0x11 v 0 0 0)
  | .appendBool b => .host (hostWord 0x12 (if b then 1 else 0) 0 0 0)
  | .appendInt32 v => .host (hostWord 0x13 0 0 0 v)
  | .appendUint32 v => .host (hostWord 0x14 0 0 0 v)
  | .rxSeek p => .host (hostWord 0x18 p 0 0 0)
  | .getU8 => .host (hostWord 0x19 0 0 0 0)
  | .getInt32 => .host (hostWord 0x1A 0 0 0 0)
  | .getUint32 => .host (hostWord 0x1B 0 0 0 0)
  | .getFloat16 scale => .host (hostWord 0x1C 0 0 0 scale)
  | .getFloat32 scale => .host (hostWord 0x1D 0 0 0 scale)
  | .frameSend => .host (hostWord 0x20 0 0 0 0)
  | .frameCheck n => .host (hostWord 0x21 0 0 0 n)
  | .recvBlocking t => .host (hostWord 0x30 0 0 0 t)
  | .arm hint => .host (hostWord 0x31 0 0 0 (hint.zeroExtend 32))
  | .poll => .host (hostWord 0x32 0 0 0 0)
  | .decodePayload => .host (hostWord 0x40 0 0 0 0)
  | .reqFwVersion can => .host (hostWord 0x50 can 0 0 0)
  | .reqValues can => .host (hostWord 0x51 can 0 0 0)
  | .reqValuesSel can mask => .host (hostWord 0x52 can 0 0 mask)
  | .setCurrent can v => .host (hostWord 0x53 can 0 0 v)
  | .setCurrentBrake can v => .host (hostWord 0x54 can 0 0 v)
  | .setRpm can v => .host (hostWord 0x55 can 0 0 v)
  | .setPos can v => .host (hostWord 0x56 can 0 0 v)
  | .setDuty can v => .host (hostWord 0x57 can 0 0 v)
  | .setAux can => .host (hostWord 0x58 can 0 0 0)
  | .sendAlive can => .host (hostWord 0x59 can 0 0 0)
  | .auxWrite x y lower upper => .host (hostWord 0x60 x y (buttonBits lower upper) 0)
  | .cfgTimeout t => .host (hostWord 0x70 0 0 0 t)
  | .clrErr => .host (hostWord 0x71 0 0 0 0)
  | .commFwVersion w => encodeWire .fwVersion (fun _ => Command.fwVersion.payload) w
  | .commGetValues w => encodeWire .getValues (fun _ => Command.getValues.payload) w
  | .commSetDuty w => encodeWire .setDuty (fun v => (Command.setDuty v).payload) w
  | .commSetCurrent w => encodeWire .setCurrent (fun v => (Command.setCurrent v).payload) w
  | .commSetCurrentBrake w => encodeWire .setCurrentBrake (fun v => (Command.setCurrentBrake v).payload) w
  | .commSetRpm w => encodeWire .setRpm (fun v => (Command.setRpm v).payload) w
  | .commSetPos w => encodeWire .setPos (fun v => (Command.setPos v).payload) w
  | .commAlive w => encodeWire .alive (fun _ => Command.alive.payload) w
  | .commForwardCan w => encodeWire .forwardCan (fun (peer, c) => c.addressed peer) w
  | .commSetChuckData w =>
    encodeWire .setChuckData (fun (x, y, lower, upper) => (Command.setChuckData x y lower upper).payload) w
  | .commGetValuesSelective w =>
    encodeWire .getValuesSelective (fun mask => (Command.getValuesSelective mask).payload) w
  | .frameShort (.outbound p) => .frameOut (frameEncode p)
  | .frameShort (.inbound rest) => .frameIn (Config.startShort :: rest)
  | .frameLong (.outbound p) => .frameOut (frameEncode p)
  | .frameLong (.inbound rest) => .frameIn (Config.startLong :: rest)

/-- Bytes of zeros after the first byte of a wire form given by one byte: enough for the longest payload
the decoder reads, the selective response with every field (44_command_dispatch.md R322; log entry 6). -/
def wirePad : Nat := 62

/-- The item that the first `nbits` bits of the number `w` spell, every higher bit 0 (log entry 6). The
wire rows of the opcode table are one byte wide and are known by that byte; a host row is a 64-bit
operation word. One byte that is both an identifier or a start marker and a selector (0x32 alone) is read
as the wire form when `nbits` is 8, and as the operation word when `nbits` is more. -/
def tableItem (nbits w : Nat) : Item :=
  let b : Byte := BitVec.ofNat 8 w
  if nbits ≤ 8 then
    if b = Config.startShort ∨ b = Config.startLong then .frameIn (b :: List.replicate wirePad 0)
    else if (commandWithId b).isSome then .payloadIn (b :: List.replicate wirePad 0)
    else .host (BitVec.ofNat 64 (w % 256))
  else .host (BitVec.ofNat 64 w)

/-- The instruction the decoder reads from an instruction whose bits are `w`, bit 0 least significant. -/
def decodeTableWord (nbits w : Nat) : Option Instr :=
  match decode (tableItem nbits w) with
  | .ok i => some i
  | .error _ => none

end Sys2Proof
end

