-- ==== Sys2Proof/Machine/State.lean ====
section
/-! DEFINITION. The state of the engine and of its environment (10_state.md R30 to R40), its value after
reset (70_reset_and_hazards.md R410), and the reasons a transition of the model can stop. -/

namespace Sys2Proof.Machine

/-- `STATUS.RX_MODE` (10_state.md R32); the value 3 is never written. -/
inductive RxMode where
  | idle
  | blocking
  | armed
  deriving DecidableEq, Repr

/-- `REQ_STATE` (10_state.md R31, R34); the values 4 to 255 are never written. -/
inductive ReqState where
  | idle
  | encodedSent
  | awaiting
  | done
  deriving DecidableEq, Repr

/-- The result codes (60_exceptions.md R370); the values 0x0E to 0xFF are never written. -/
inductive ResultCode where
  | none
  | ok
  | timeout
  | crcFail
  | rxOverflow
  | rxLong
  | decodeFail
  | respMismatch
  | notArmed
  | bounds
  | badArg
  | format
  | sent
  | badOp
  deriving DecidableEq, Repr

/-- The diagnostic events (60_exceptions.md R381). -/
inductive DiagEvent where
  | badStart
  | longUnsupported
  | lenOverflow
  | bufExhausted
  | timeout
  | crcFail
  | frameOk
  | frameSent
  | unknownCmd
  | decodeShort
  deriving DecidableEq, Repr

/-- One move of an agent (00_scope.md R18; log entry 1). -/
inductive Event where
  /-- The host presents an operation word at the host port (30_encoding.md R110). -/
  | op (w : BitVec 64)
  /-- The RX source appends a byte to the RX port's queue (20_memory.md R93). -/
  | rx (b : BitVec 8)
  /-- The clock advances by `ms` milliseconds modulo 2^32 (60_exceptions.md R383). -/
  | tick (ms : BitVec 32)
  /-- The engine is given a turn: one receive step of a blocking receive, if one is enabled
  (43_receiver.md R238). -/
  | engine
  /-- The reset input is asserted (70_reset_and_hazards.md R410 to R412). -/
  | reset
  deriving DecidableEq, Repr

/-- The written bytes of a buffer, in ONE canonical form: offsets strictly rising, so that equal contents
are equal lists. An offset that is not listed has been written by nothing since reset (20_memory.md R83). -/
abbrev Memory := List Host.Cell

/-- The state: the engine's registers, flags and buffers, then the environment's state that a model keeps
beside them (10_state.md R30), then two fields of the model's own. -/
structure State where
  -- STATUS (0x00), field by field (10_state.md R32)
  busy : Bool
  rxMode : RxMode
  rxValid : Bool
  rxErrBadStart : Bool
  rxErrLenOvf : Bool
  errBusy : Bool
  errBounds : Bool
  errArg : Bool
  errOp : Bool
  latestValid : Bool
  prevValid : Bool
  fwValid : Bool
  -- the other registers, in the order of 10_state.md R31
  opRes : ResultCode
  cfgTimeout : BitVec 32
  crcRes : BitVec 16
  txCur : BitVec 16
  txCount : BitVec 17
  rxCur : BitVec 8
  rxLen : BitVec 8
  getRes : BitVec 32
  getScale : BitVec 32
  rxCnt : BitVec 9
  rxExp : BitVec 16
  rxDecl : BitVec 8
  rxT0 : BitVec 32
  rxTmo : BitVec 32
  rxHint : BitVec 16
  rxResult : ResultCode
  reqState : ReqState
  reqResult : ResultCode
  reqCmd : BitVec 8
  decId : BitVec 8
  decRes : ResultCode
  fwMajor : BitVec 8
  fwMinor : BitVec 8
  auxX : BitVec 8
  auxY : BitVec 8
  auxBtn : BitVec 8
  opCur : BitVec 8
  -- the snapshot banks (10_state.md R36)
  latest : Vector (BitVec 32) 18
  prev : Vector (BitVec 32) 18
  -- the buffers (20_memory.md R82)
  rxbuf : Memory
  txpay : Memory
  -- the environment (10_state.md R30)
  rxQueue : List (BitVec 8)
  txOut : List (BitVec 8)
  now : BitVec 32
  diagLog : List DiagEvent
  diagPresent : Bool
  -- the model's own: the agents' pending moves (log entry 1), the draws made (log entry 3)
  sched : List Event
  draws : Nat
  deriving DecidableEq, Repr

/-- Why the machine stops. Each reason is raised only in states that break the invariant of Safety.lean,
which no run from reset reaches; stopping there is safe, because the model then claims nothing
(log entry 9). -/
inductive Fault where
  /-- Raised by an operation or a receive step that would touch a buffer offset that does not exist
  (20_memory.md R82); safe. -/
  | bufferOffset (buf : Buffer) (offset : Nat)
  /-- Raised by frame verification when `FrameDecode`'s precondition fails (42_frame_codec.md R204); safe. -/
  | frameShape (n : Nat)
  /-- Raised at the end of a blocking receive when `OP_CUR` holds no blocking operation
  (43_receiver.md R241); safe. -/
  | noBlockingOp (sel : BitVec 8)
  deriving DecidableEq, Repr

/-- Why the machine gives an instruction no meaning. -/
inductive Refusal where
  /-- Raised by `exec` for an instruction that has no meaning yet (none, in this model); safe. -/
  | notModelled (mnemonic : String)
  /-- Raised by the outbound reading of a frame form whose payload length the form cannot carry
  (30_encoding.md R100, R101): no such frame exists; safe (log entry 18). -/
  | noSuchFrame (length : Nat)
  deriving DecidableEq, Repr

/-- The machine right after reset (70_reset_and_hazards.md R410): every register at its reset value, both
buffers unspecified. The environment starts as log entry 8 says, with no event pending. -/
def State.reset : State where
  busy := false
  rxMode := .idle
  rxValid := false
  rxErrBadStart := false
  rxErrLenOvf := false
  errBusy := false
  errBounds := false
  errArg := false
  errOp := false
  latestValid := false
  prevValid := false
  fwValid := false
  opRes := .none
  cfgTimeout := Config.timeoutReset
  crcRes := 0
  txCur := 0
  txCount := 0
  rxCur := 0
  rxLen := 0
  getRes := 0
  getScale := 1
  rxCnt := 0
  rxExp := 0
  rxDecl := 0
  rxT0 := 0
  rxTmo := 0
  rxHint := 0
  rxResult := .none
  reqState := .idle
  reqResult := .none
  reqCmd := 0
  decId := 0
  decRes := .none
  fwMajor := 0
  fwMinor := 0
  auxX := Config.auxDefaultAxis
  auxY := Config.auxDefaultAxis
  auxBtn := 0
  opCur := 0
  latest := Vector.replicate 18 0
  prev := Vector.replicate 18 0
  rxbuf := []
  txpay := []
  rxQueue := []
  txOut := []
  now := 0
  diagLog := []
  diagPresent := true
  sched := []
  draws := 0

end Sys2Proof.Machine
end

