-- ==== Sys2Proof/Machine/Ops.lean ====
section
/-! DEFINITION. The named operations over buffers, ports and result registers that every meaning is
written in: buffer reads and writes (20_memory.md R82 to R85), the port primitives and `diag`
(00_scope.md R17), `raise` and the busy gate (60_exceptions.md R372, R373), which stand in the place of
taking an exception: the engine has no trap to enter or return from (R378). -/

namespace Sys2Proof.Machine

/-- What one transition answers. -/
abbrev Res := Host.Outcome State Fault Refusal

/-- One transition after another; a stop ends both. -/
def andThen (r : Res) (f : State → Res) : Res :=
  match r with
  | .next s => f s
  | .fault e => .fault e
  | .refused e => .refused e

/-! ### Buffers -/

/-- What an offset that nothing has written holds: no value (20_memory.md R83). -/
def Memory.unlisted : Option Byte := none

/-- The byte written at an offset, if any. -/
def Memory.get : Memory → Nat → Option Byte
  | [], _ => Memory.unlisted
  | (a', b) :: m, a => if a = a' then some b else Memory.get m a

/-- Write one byte, keeping offsets strictly rising. -/
def Memory.put : Memory → Nat → Byte → Memory
  | [], a, b => [(a, b)]
  | (a', b') :: m, a, b =>
    if a < a' then (a, b) :: (a', b') :: m
    else if a = a' then (a, b) :: m
    else (a', b') :: Memory.put m a b

/-- Write bytes at consecutive offsets, the first at `a`: `MemWrite` of a big-endian byte sequence
(20_memory.md R80, R85). -/
def Memory.putAll : Memory → Nat → List Byte → Memory
  | m, _, [] => m
  | m, a, b :: bs => Memory.putAll (Memory.put m a b) (a + 1) bs

/-- The canonical form: offsets strictly rising. No listed byte equals what an unlisted offset holds,
since that is no value. -/
abbrev Memory.wf (m : Memory) : Prop := m.Pairwise fun x y => x.1 < y.1

/-- The written bytes of a buffer. -/
def State.mem (s : State) : Buffer → Memory
  | .txpay => s.txpay
  | .rxbuf => s.rxbuf

/-- A byte as a read sees it: what was written there, or a free value (20_memory.md R83; log entry 3). -/
def State.byteAt (s : State) (buf : Buffer) (a : Nat) : Byte :=
  ((s.mem buf).get a).getD (Config.freeByte buf a s.draws)

/-- `buf[a .. a+n)` (20_memory.md R84). -/
def State.bytesAt (s : State) (buf : Buffer) (a n : Nat) : List Byte :=
  readRange (s.byteAt buf) a n

/-- The payload view `RXBUF[2 .. 2+RX_LEN)` (43_receiver.md R243). -/
def State.view (s : State) : List Byte := s.bytesAt .rxbuf 2 s.rxLen.toNat

/-- `TXPAY[0 .. TX_CUR)` (42_frame_codec.md R201). -/
def State.txPayload (s : State) : List Byte := s.bytesAt .txpay 0 s.txCur.toNat

/-- Go on only if `RXBUF[a .. a+n)` exists (20_memory.md R82; log entry 9). -/
def within (buf : Buffer) (a n : Nat) (s : State) (f : State → Res) : Res :=
  if a + n ≤ Config.bufSize buf then f s else .fault (.bufferOffset buf (a + n))

/-- One draw of unspecified bytes has been made (log entry 3). -/
def State.drawn (s : State) : State := { s with draws := s.draws + 1 }

/-! ### Ports -/

/-- `diag(ev)` (00_scope.md R17, 60_exceptions.md R381): with no sink attached the event is discarded. -/
def State.diag (s : State) (ev : DiagEvent) : State :=
  { s with diagLog := if s.diagPresent then s.diagLog ++ [ev] else s.diagLog }

/-- `tx_push` of each byte in order (00_scope.md R17, 20_memory.md R94). -/
def State.push (s : State) (bs : List Byte) : State := { s with txOut := s.txOut ++ bs }

/-- The RX source appends bytes to the queue (20_memory.md R93). -/
def State.arrive (s : State) (bs : List Byte) : State := { s with rxQueue := s.rxQueue ++ bs }

/-! ### Results, errors, the busy gate -/

/-- `OP_RES <- rc` (00_scope.md R17). -/
def State.withRes (s : State) (rc : ResultCode) : State := { s with opRes := rc }

/-- `DEC_RES <- rc` (44_command_dispatch.md R330). -/
def State.withDecRes (s : State) (rc : ResultCode) : State := { s with decRes := rc }

/-- The end of a request: `REQ_RESULT <- rc; REQ_STATE <- DONE; OP_RES <- rc` (44_command_dispatch.md R340). -/
def State.requestDone (s : State) (rc : ResultCode) : State :=
  { s with reqResult := rc, reqState := .done, opRes := rc }

/-- The engine is `READY` again: `BUSY <- 0; OP_CUR <- 0` (10_state.md R33). -/
def State.ready (s : State) : State := { s with busy := false, opCur := 0 }

/-- The error flags that `raise` sets (60_exceptions.md R372). -/
inductive ErrFlag where
  | bounds
  | arg
  | op
  deriving DecidableEq, Repr

/-- `raise E`: set the sticky flag and the result code that goes with it, nothing else
(60_exceptions.md R372). -/
def State.raise (s : State) : ErrFlag → State
  | .bounds => { s with errBounds := true, opRes := .bounds }
  | .arg => { s with errArg := true, opRes := .badArg }
  | .op => { s with errOp := true, opRes := .badOp }

/-- The first check on every operation word: while `BUSY` = 1 it is refused, and only `ERR_BUSY` records
it (60_exceptions.md R373, R375). -/
def accept (s : State) (f : State → Res) : Res :=
  if s.busy then .next { s with errBusy := true } else f s

end Sys2Proof.Machine
end

