-- ==== Sys2Proof/Machine/Codec.lean ====
section
/-! DEFINITION. The Binary Field Codec family (41_field_codec.md R175 to R186): payload assembly in
`TXPAY` at `TX_CUR`, and reads of the payload view at `RX_CUR`. -/

namespace Sys2Proof.Machine

/-- An append of a field's bytes: refused whole when it would pass `TXCAP`, else `MemWrite` at `TX_CUR`
and the cursor law (41_field_codec.md R163, R176 to R179, 20_memory.md R85). -/
def append (bytes : List Byte) (s : State) : Res :=
  if s.txCur.toNat + bytes.length > Config.txCap then .next (s.raise .bounds)
  else
    .next { s with
      txpay := s.txpay.putAll s.txCur.toNat bytes
      txCur := BitVec.ofNat 16 (s.txCur.toNat + bytes.length)
      opRes := .ok }

/-- `PAY_RESET` (R175): only the cursor moves. -/
def execPayReset (s : State) : Res := accept s fun s => .next { s with txCur := 0, opRes := .ok }

/-- `APPEND_U8 v` (R176). -/
def execAppendU8 (v : Byte) (s : State) : Res := accept s (append [v])

/-- `APPEND_BOOL b` (R177). -/
def execAppendBool (b : Bool) (s : State) : Res := accept s (append (encBool b))

/-- `APPEND_INT32 v` (R178). -/
def execAppendInt32 (v : Word32) (s : State) : Res := accept s (append (enc32 v))

/-- `APPEND_UINT32 v` (R179). -/
def execAppendUint32 (v : Word32) (s : State) : Res := accept s (append (enc32 v))

/-- `RX_SEEK p` (R180): the end of the view is a legal position. -/
def execRxSeek (p : Byte) (s : State) : Res :=
  accept s fun s =>
    if s.rxValid = false ∨ p.toNat > s.rxLen.toNat then .next (s.raise .bounds)
    else .next { s with rxCur := p, opRes := .ok }

/-- A read of `w` bytes of the payload view at `RX_CUR`, decoded by `dec` and recorded with its scale,
after `check_read(w)` (R181 to R186). -/
def getField (w : Nat) (dec : List Byte → Word32) (scale : Word32) (s : State) : Res :=
  if s.rxValid = false ∨ s.rxCur.toNat + w > s.rxLen.toNat then .next (s.raise .bounds)
  else
    within .rxbuf (2 + s.rxCur.toNat) w s fun s =>
      .next { s with
        getRes := dec (s.bytesAt .rxbuf (2 + s.rxCur.toNat) w)
        getScale := scale
        rxCur := BitVec.ofNat 8 (s.rxCur.toNat + w)
        opRes := .ok }

/-- A scaled read: a zero scale is refused before the bounds are checked (R184, R185, 60_exceptions.md
R375). -/
def getScaled (w : Nat) (dec : List Byte → Word32) (scale : Word32) (s : State) : Res :=
  if scale = 0 then .next (s.raise .arg) else getField w dec scale s

/-- `GET_U8` (R181): zero-extended. -/
def execGetU8 (s : State) : Res := accept s (getField 1 decU8 1)

/-- `GET_INT32` (R182). -/
def execGetInt32 (s : State) : Res := accept s (getField 4 dec32 1)

/-- `GET_UINT32` (R183): the same pattern as `GET_INT32` (R167). -/
def execGetUint32 (s : State) : Res := accept s (getField 4 dec32 1)

/-- `GET_FLOAT16 s` (R184): a 2-byte signed integer, sign-extended, with its scale. -/
def execGetFloat16 (scale : Word32) (s : State) : Res := accept s (getScaled 2 decS16 scale)

/-- `GET_FLOAT32 s` (R185). -/
def execGetFloat32 (scale : Word32) (s : State) : Res := accept s (getScaled 4 dec32 scale)

end Sys2Proof.Machine
end

