-- ==== Sys2Proof/Machine/Crc.lean ====
section
/-! DEFINITION. The CRC family: `CRC16` (40_crc.md R145). -/

namespace Sys2Proof.Machine

/-- `CRC16 buf, off, n` (40_crc.md R145). The sum of offset and count does not wrap; the limit is the
buffer's size, not a cursor. Bytes nothing has written are drawn (20_memory.md R83). -/
def execCrc16 (buf : Buffer) (off n : BitVec 16) (s : State) : Res :=
  accept s fun s =>
    if off.toNat + n.toNat > Config.bufSize buf then .next (s.raise .bounds)
    else
      .next { s.drawn with crcRes := crc16 (s.bytesAt buf off.toNat n.toNat), opRes := .ok }

end Sys2Proof.Machine
end

