-- ==== Sys2Proof/Machine/Flags.lean ====
section
/-! DEFINITION. The flags of `STATUS` (10_state.md R32) as one word, the numeric codes behind the typed
registers, and the clearing of the sticky error flags. -/

namespace Sys2Proof.Machine

/-- The code of a result (60_exceptions.md R370). -/
def ResultCode.code : ResultCode → Byte
  | .none => 0x00
  | .ok => 0x01
  | .timeout => 0x02
  | .crcFail => 0x03
  | .rxOverflow => 0x04
  | .rxLong => 0x05
  | .decodeFail => 0x06
  | .respMismatch => 0x07
  | .notArmed => 0x08
  | .bounds => 0x09
  | .badArg => 0x0A
  | .format => 0x0B
  | .sent => 0x0C
  | .badOp => 0x0D

/-- The code of a diagnostic event (60_exceptions.md R381). -/
def DiagEvent.code : DiagEvent → Nat
  | .badStart => 1
  | .longUnsupported => 2
  | .lenOverflow => 3
  | .bufExhausted => 4
  | .timeout => 5
  | .crcFail => 6
  | .frameOk => 7
  | .frameSent => 8
  | .unknownCmd => 9
  | .decodeShort => 10

/-- The value of `RX_MODE` (10_state.md R32). -/
def RxMode.code : RxMode → Nat
  | .idle => 0
  | .blocking => 1
  | .armed => 2

/-- The value of `REQ_STATE` (10_state.md R31). -/
def ReqState.code : ReqState → Byte
  | .idle => 0
  | .encodedSent => 1
  | .awaiting => 2
  | .done => 3

/-- A flag at a bit position. -/
def flagBit (b : Bool) (i : Nat) : Nat := if b then 2 ^ i else 0

/-- The `STATUS` word: bits 31:13 read 0 (10_state.md R32). -/
def statusWord (s : State) : Word32 :=
  BitVec.ofNat 32
    (flagBit s.busy 0 + s.rxMode.code * 2 + flagBit s.rxValid 3 + flagBit s.rxErrBadStart 4
      + flagBit s.rxErrLenOvf 5 + flagBit s.errBusy 6 + flagBit s.errBounds 7 + flagBit s.errArg 8
      + flagBit s.errOp 9 + flagBit s.latestValid 10 + flagBit s.prevValid 11 + flagBit s.fwValid 12)

/-- Clear the four sticky error flags; the two receive flags stay (44_command_dispatch.md R351). -/
def State.clearErrors (s : State) : State :=
  { s with errBusy := false, errBounds := false, errArg := false, errOp := false }

end Sys2Proof.Machine
end

