-- ==== Sys2Proof/Machine/Decoder.lean ====
section
/-! DEFINITION. Response decoding (44_command_dispatch.md R320 to R336): the single decode site, the
firmware-version decoder, the telemetry decoders, and `DECODE_PAYLOAD`. -/

namespace Sys2Proof.Machine

/-- `DecodeFW(P)` (R331): the state it leaves, and whether it decoded. -/
def decodeFw (p : List Byte) (s : State) : State × Bool :=
  if p.length < 3 then (s.diag .decodeShort, false)
  else ({ s with fwMajor := p.getD 1 0, fwMinor := p.getD 2 0, fwValid := true }, true)

/-- Bytes of the fields that a mask selects (R322). -/
def fieldBytes (table : List TelemEntry) (m : Word32) : Nat :=
  (table.map fun e => if m.getLsbD e.bit then e.type.width else 0).sum

/-- `need(m, sel)` (R322). -/
def needBytes (m : Word32) (sel : Bool) : Nat :=
  1 + (if sel then 4 else 0) + fieldBytes Config.telemTable m

/-- The walk of `ApplyTelem` (R332): each entry whose mask bit is set takes the next field of the body,
every other entry takes nothing and keeps its value. -/
def walkFields (m : Word32) :
    List TelemEntry → List Byte → Vector (BitVec 32) 18 → Vector (BitVec 32) 18
  | [], _, bank => bank
  | e :: table, body, bank =>
    if m.getLsbD e.bit then
      walkFields m table (body.drop e.type.width)
        (bank.set e.bit (decField e.type (body.take e.type.width)))
    else walkFields m table body bank

/-- `ApplyTelem(P, m, c0)` (R332), with `sel` true for the selective response (`c0` = 5) and false for the
full one (`c0` = 1). The length check comes before any write. -/
def applyTelem (p : List Byte) (m : Word32) (sel : Bool) (s : State) : State × Bool :=
  if p.length < needBytes m sel then (s.diag .decodeShort, false)
  else
    ({ s with
        prev := s.latest
        prevValid := s.latestValid
        latest := walkFields m Config.telemTable (p.drop (if sel then 5 else 1)) s.latest
        latestValid := true },
      true)

/-- `DecodeTelem(P, true)` (R333): the mask is the response's own. -/
def decodeSelective (p : List Byte) (s : State) : State × Bool :=
  if p.length < 5 then (s.diag .decodeShort, false)
  else applyTelem p (dec32 ((p.drop 1).take 4)) true s

/-- `DecodeTelem(P, false)` (R334): every mask bit is implied. -/
def decodeFull (p : List Byte) (s : State) : State × Bool := applyTelem p 0xFFFFFFFF false s

/-- The decoder that byte 0 of a payload selects: the state it leaves, and whether it decoded (R330). -/
def decodeBody (id : Byte) (p : List Byte) (s : State) : State × Bool :=
  if id = Config.cmdId .fwVersion then decodeFw p s
  else if id = Config.cmdId .getValues then decodeFull p s
  else if id = Config.cmdId .getValuesSelective then decodeSelective p s
  else (s.diag .unknownCmd, false)

/-- `Decode(P)`, the single decode site (R330). -/
def decodeSite (p : List Byte) (s : State) : State :=
  match p with
  | [] => ({ s with decId := 0, decRes := .decodeFail }).diag .unknownCmd
  | id :: _ =>
    let r := decodeBody id p { s with decId := id }
    r.1.withDecRes (if r.2 then .ok else .decodeFail)

/-- Decode the current payload view and report the decode's result as the operation's
(R336, 43_receiver.md R251). -/
def decodeView (s : State) : Res :=
  within .rxbuf 2 s.rxLen.toNat s fun s =>
    let s := decodeSite s.view s
    .next (s.withRes s.decRes)

/-- `DECODE_PAYLOAD` (R336). -/
def execDecodePayload (s : State) : Res :=
  accept s fun s => if s.rxValid = false then .next (s.raise .bounds) else decodeView s

end Sys2Proof.Machine
end

