-- ==== Sys2Proof/Machine/Frame.lean ====
section
/-! DEFINITION. The Frame Codec family: `FRAME_SEND` and `FRAME_CHECK` (42_frame_codec.md R201, R205). -/

namespace Sys2Proof.Machine

/-- Emit a frame whole and in order, count it, report it (42_frame_codec.md R201, 44_command_dispatch.md
R300 `Send`). -/
def emitFrame (f : List Byte) (s : State) : State :=
  ({ s.push f with txCount := BitVec.ofNat 17 f.length }).diag .frameSent

/-- `FRAME_SEND` (R201): the payload `TXPAY[0 .. TX_CUR)` is framed and emitted; neither it nor the cursor
changes. -/
def execFrameSend (s : State) : Res :=
  accept s fun s =>
    within .txpay 0 s.txCur.toNat s fun s =>
      .next ((emitFrame (frameEncode s.txPayload) s).withRes .ok)

/-- How many bytes at the start of `RXBUF` the current receive has written: `RX_CNT`, and at least the two
bytes of a dropped frame start (43_receiver.md R233 to R235, R239). -/
def State.receivedExtent (s : State) : Nat :=
  if s.rxErrBadStart ∨ s.rxErrLenOvf then max 2 s.rxCnt.toNat else s.rxCnt.toNat

/-- A byte of `RXBUF` as `FRAME_CHECK` reads it: one that the current receive has not written is a free value
(R205, 20_memory.md R83; log entry 3). -/
def State.receivedByte (s : State) (a : Nat) : Byte :=
  if a < s.receivedExtent then s.byteAt .rxbuf a else Config.freeByte .rxbuf a s.draws

/-- `FRAME_CHECK n` (R205): `FORMAT` outside 5..256, then `FORMAT` when `n` is not the declared length plus
5, else the CRC's verdict. Only `OP_RES` is written; unspecified bytes are drawn. -/
def execFrameCheck (n : Word32) (s : State) : Res :=
  accept s fun s =>
    if n.toNat < 5 ∨ n.toNat > 256 then .next (s.withRes .format)
    else if (s.receivedByte 1).toNat + 5 ≠ n.toNat then .next (s.drawn.withRes .format)
    else
      .next (s.drawn.withRes (if (frameDecode s.receivedByte n.toNat).1 then .ok else .crcFail))

end Sys2Proof.Machine
end

