-- ==== Sys2Proof/Machine/Receiver.lean ====
section
/-! DEFINITION. The Receiver (43_receiver.md R230 to R257): the byte rule, the receive step, the start and
the end of a receive with the completion of the blocking operation in `OP_CUR` (R241,
44_command_dispatch.md R340), and the operations `RECV_BLOCKING`, `ARM` and `POLL`. -/

namespace Sys2Proof.Machine

/-! ### Start and end of a receive -/

/-- `RxStart(tmo, mode)` (R239). Neither the RX queue nor `RXBUF` is touched. -/
def rxStart (tmo : Time) (mode : RxMode) (s : State) : State :=
  { s with
    rxCnt := 0
    rxExp := 0
    rxDecl := 0
    rxT0 := s.now
    rxTmo := tmo
    rxResult := .none
    rxValid := false
    rxLen := 0
    rxCur := 0
    rxErrBadStart := false
    rxErrLenOvf := false
    rxMode := mode
    busy := if mode = .blocking then true else s.busy }

/-- `expired(t)` at the present clock: elapsed time modulo 2^32 against the receive's timeout (R240). -/
def expired (s : State) : Bool := decide ((s.now - s.rxT0).toNat ≥ s.rxTmo.toNat)

/-- The effects of a verified frame (R243). -/
def acceptFrame (s : State) : State :=
  ({ s with rxLen := s.rxDecl, rxValid := true, rxCur := 0 }).diag .frameOk

/-- The completion of a request (44_command_dispatch.md R340): a receive result other than `OK` is the
request's; on `OK` the view is decoded, and a failed decode wins over a mismatched identifier
(60_exceptions.md R377). -/
def completeRequest (expected : CommandName) (rc : ResultCode) (s : State) : Res :=
  if rc = .ok then
    within .rxbuf 2 s.rxLen.toNat s fun s =>
      let s := decodeSite s.view s
      .next (s.requestDone
        (if s.decRes = .decodeFail then .decodeFail
          else if s.decId ≠ Config.cmdId expected then .respMismatch
          else .ok))
  else .next (s.requestDone rc)

/-- The completion of the operation in `OP_CUR` (R241): `RECV_BLOCKING` reports the receive's result
(R245), a query completes its request with the identifier it expects (44_command_dispatch.md R291). -/
def completeOp (rc : ResultCode) (s : State) : Res :=
  if s.opCur = 0x30 then .next (s.withRes s.rxResult)
  else if s.opCur = 0x50 then completeRequest .fwVersion rc s
  else if s.opCur = 0x51 then completeRequest .getValues rc s
  else if s.opCur = 0x52 then completeRequest .getValuesSelective rc s
  else .fault (.noBlockingOp s.opCur)

/-- The end of the receive in progress, apart from the operation it completes: the result, the view of a
verified frame (R243), the event of a failed CRC (R241). -/
def endReceive (rc : ResultCode) (s : State) : State :=
  if rc = .ok then acceptFrame { s with rxResult := rc }
  else if rc = .crcFail then ({ s with rxResult := rc } : State).diag .crcFail
  else { s with rxResult := rc }

/-- `RX_MODE <- IDLE` (R241). -/
def State.receiverIdle (s : State) : State := { s with rxMode := .idle }

/-- `finish(rc)` (R241): a blocking receive also completes its operation and leaves the engine ready. -/
def finish (rc : ResultCode) (s : State) : Res :=
  if s.rxMode = .blocking then
    andThen (completeOp rc (endReceive rc s).receiverIdle) fun s => .next s.ready
  else .next (endReceive rc s)

/-! ### The byte rule -/

/-- Completion, then exhaustion (R237). A complete frame is verified by `FrameDecode` (R242). -/
def rxComplete (s : State) : Res :=
  if s.rxExp.getLsbD 15 ∧ s.rxCnt = s.rxExp.extractLsb' 0 9
      ∧ s.byteAt .rxbuf (s.rxCnt.toNat - 1) = Config.endMark then
    if frameShaped (s.byteAt .rxbuf) s.rxCnt.toNat then
      if (frameDecode (s.byteAt .rxbuf) s.rxCnt.toNat).1 then finish .ok s else finish .crcFail s
    else .fault (.frameShape s.rxCnt.toNat)
  else if s.rxCnt = 256 then finish .rxOverflow (s.diag .bufExhausted)
  else .next s

/-- The two stored bytes are dropped for a declared length that `RXBUF` cannot hold (R234). -/
def State.dropOverflow (s : State) : State := { s with rxErrLenOvf := true, rxCnt := 0 }

/-- The two stored bytes are dropped for a byte that is no start marker (R235). -/
def State.dropBadStart (s : State) : State := { s with rxErrBadStart := true, rxCnt := 0 }

/-- The checks made when the second byte of a frame has been stored (R234, R235, R236). -/
def rxHeader (s : State) : Res :=
  let marker := s.byteAt .rxbuf 0
  let declared := s.byteAt .rxbuf 1
  if marker = Config.startShort then
    let s := { s with rxDecl := declared }
    if declared.toNat + 5 > Config.rxbufSize then
      .next (s.diag .lenOverflow).dropOverflow
    else rxComplete { s with rxExp := 0x8000 ||| BitVec.ofNat 16 (declared.toNat + 5) }
  else if marker = Config.startLong then finish .rxLong (s.diag .longUnsupported)
  else .next (s.diag .badStart).dropBadStart

/-- `RxByte(b)` (R232): store the byte (R233), then the rules of the byte's place in the frame. -/
def rxByte (b : Byte) (s : State) : Res :=
  within .rxbuf s.rxCnt.toNat 1 s fun s =>
    let s := { s with rxbuf := s.rxbuf.put s.rxCnt.toNat b, rxCnt := s.rxCnt + 1 }
    if s.rxCnt = 2 then rxHeader s else rxComplete s

/-! ### Receive steps -/

/-- A receive is in progress (R231). -/
def receiving (s : State) : Bool := decide (s.rxMode ≠ .idle ∧ s.rxResult = .none)

/-- `RxStep(now)` (R238): the deadline first, then at most one byte. -/
def rxStep (s : State) : Res :=
  if expired s then finish .timeout (s.diag .timeout)
  else
    match s.rxQueue with
    | [] => .next s
    | b :: queue => rxByte b { s with rxQueue := queue }

/-- At most `k` receive steps at one clock value, ending with the receive (R251). -/
def rxSteps : Nat → State → Res
  | 0, s => .next s
  | k + 1, s => andThen (rxStep s) fun s => if s.rxResult ≠ .none then .next s else rxSteps k s

/-- The engine's turn in a blocking receive (R238): a step is enabled only when the deadline has passed or
a byte waits; otherwise the engine waits (R247; log entry 11). -/
def engineTurn (s : State) : Res :=
  if s.busy ∧ receiving s ∧ (expired s ∨ s.rxQueue ≠ []) then rxStep s else .next s

/-- What `POLL` does with an armed receive in progress (R251): `max(k0, 1)` steps at most, and on `OK` the
decode, whose result it reports. -/
def pollDrive (s : State) : Res :=
  andThen (rxSteps (max s.rxQueue.length 1) s) fun s =>
    if s.rxResult = .ok then decodeView s else .next (s.withRes s.rxResult)

/-! ### Operations -/

/-- `RECV_BLOCKING t`: the issue (R245). Its steps are the engine's turns; `finish` completes it. -/
def execRecvBlocking (t : Time) (s : State) : Res :=
  accept s fun s => .next (rxStart t .blocking { s with opCur := 0x30 })

/-- `ARM h` (R250). -/
def execArm (hint : BitVec 16) (s : State) : Res :=
  accept s fun s => .next ((rxStart s.cfgTimeout .armed { s with rxHint := hint }).withRes .ok)

/-- `POLL` (R251, R253). -/
def execPoll (s : State) : Res :=
  accept s fun s =>
    if s.rxMode ≠ .armed then .next (s.withRes .notArmed)
    else if s.rxResult ≠ .none then .next (s.withRes s.rxResult)
    else pollDrive s

end Sys2Proof.Machine
end

