-- ==== Sys2Proof/Machine/Dispatcher.lean ====
section
/-! DEFINITION. The outbound commands and the configuration operations of the Command Dispatcher
(44_command_dispatch.md R300 to R312, R340, R350, R351). -/

namespace Sys2Proof.Machine

/-- `Build(c, can, args(c))` (R300): the payload at the start of `TXPAY`, `TX_CUR` at its end. -/
def build (c : Command) (can : Byte) (s : State) : State :=
  { s with
    txpay := s.txpay.putAll 0 (c.addressed can)
    txCur := BitVec.ofNat 16 (c.addressed can).length }

/-- `Build` and `Send` (R300). -/
def buildAndSend (c : Command) (can : Byte) (s : State) : State :=
  emitFrame (frameEncode (c.addressed can)) (build c can s)

/-- The issue of `Request(c, can, a, response)` (R340), up to the frame's emission. -/
def requestSend (sel : Byte) (c : Command) (can : Byte) (s : State) : State :=
  buildAndSend c can
    { s with opCur := sel, reqCmd := Config.cmdId c.name, reqResult := .none, reqState := .encodedSent }

/-- `REQ_STATE <- AWAITING` (R340). -/
def State.awaitResponse (s : State) : State := { s with reqState := .awaiting }

/-- `OP_CUR <- 0` (R340). -/
def State.opEnded (s : State) : State := { s with opCur := 0 }

/-- A request with no response: it ends at once with `SENT` (R340, R341). -/
def requestOnly (sel : Byte) (c : Command) (can : Byte) (s : State) : Res :=
  accept s fun s =>
    .next ((requestSend sel c can s).requestDone .sent).opEnded

/-- A request with a response: the issue ends in a blocking receive under `CFG_TIMEOUT` (R340). -/
def requestAndAwait (sel : Byte) (c : Command) (can : Byte) (s : State) : Res :=
  accept s fun s =>
    .next (rxStart s.cfgTimeout .blocking (requestSend sel c can s).awaitResponse)

/-- `REQ_FW_VERSION can` (R301). -/
def execReqFwVersion (can : Byte) (s : State) : Res := requestAndAwait 0x50 .fwVersion can s

/-- `REQ_VALUES can` (R302). -/
def execReqValues (can : Byte) (s : State) : Res := requestAndAwait 0x51 .getValues can s

/-- `REQ_VALUES_SEL can, mask` (R303). -/
def execReqValuesSel (can : Byte) (mask : Word32) (s : State) : Res :=
  requestAndAwait 0x52 (.getValuesSelective mask) can s

/-- `SET_CURRENT can, v` (R304). -/
def execSetCurrent (can : Byte) (v : Word32) (s : State) : Res := requestOnly 0x53 (.setCurrent v) can s

/-- `SET_CURRENT_BRAKE can, v` (R305). -/
def execSetCurrentBrake (can : Byte) (v : Word32) (s : State) : Res :=
  requestOnly 0x54 (.setCurrentBrake v) can s

/-- `SET_RPM can, v` (R306). -/
def execSetRpm (can : Byte) (v : Word32) (s : State) : Res := requestOnly 0x55 (.setRpm v) can s

/-- `SET_POS can, v` (R307). -/
def execSetPos (can : Byte) (v : Word32) (s : State) : Res := requestOnly 0x56 (.setPos v) can s

/-- `SET_DUTY can, v` (R308). -/
def execSetDuty (can : Byte) (v : Word32) (s : State) : Res := requestOnly 0x57 (.setDuty v) can s

/-- `SET_AUX can` (R309): the values come from the auxiliary registers. -/
def execSetAux (can : Byte) (s : State) : Res :=
  requestOnly 0x58 (.setChuckData s.auxX s.auxY (s.auxBtn.getLsbD 0) (s.auxBtn.getLsbD 1)) can s

/-- `SEND_ALIVE can` (R310). -/
def execSendAlive (can : Byte) (s : State) : Res := requestOnly 0x59 .alive can s

/-- `AUX_WRITE x, y, lower, upper` (R311). -/
def execAuxWrite (x y : Byte) (lower upper : Bool) (s : State) : Res :=
  accept s fun s =>
    .next { s with auxX := x, auxY := y, auxBtn := buttonBits lower upper, opRes := .ok }

/-- `CFG_TIMEOUT t` (R350): a receive in progress keeps its own timeout. -/
def execCfgTimeout (t : Time) (s : State) : Res :=
  accept s fun s => .next { s with cfgTimeout := t, opRes := .ok }

/-- `CLR_ERR` (R351). -/
def execClrErr (s : State) : Res := accept s fun s => .next (s.clearErrors.withRes .ok)

end Sys2Proof.Machine
end

