-- ==== Sys2Proof/Machine/Wire.lean ====
section
/-! DEFINITION. The wire rows of the opcode table (log entry 5). The outbound reading of a command is what
the engine does to send it: `Build` and `Send` (44_command_dispatch.md R300). The inbound reading is what
the engine does with a payload that starts with its identifier: the single decode site (R330). The
outbound reading of a frame form is its emission (42_frame_codec.md R200, R201); the inbound one is what
the receiver does with its bytes (43_receiver.md R232 to R243). -/

namespace Sys2Proof.Machine

/-- A wire command at either port. -/
def wireCommand {α : Type} (name : CommandName) (send : α → State → State) (w : Wire α) (s : State) : Res :=
  match w with
  | .outbound args => .next (send args s)
  | .inbound body => .next (decodeSite (Config.cmdId name :: body) s)

/-- `COMM_FW_VERSION`: the query (R301) and the response (R331). -/
def execCommFwVersion (w : Wire Unit) (s : State) : Res :=
  wireCommand .fwVersion (fun _ => buildAndSend .fwVersion 0) w s

/-- `COMM_GET_VALUES`: the query (R302) and the response (R334). -/
def execCommGetValues (w : Wire Unit) (s : State) : Res :=
  wireCommand .getValues (fun _ => buildAndSend .getValues 0) w s

/-- `COMM_SET_DUTY` (R308); inbound it is an unknown identifier (30_encoding.md R122). -/
def execCommSetDuty (w : Wire Word32) (s : State) : Res :=
  wireCommand .setDuty (fun v => buildAndSend (.setDuty v) 0) w s

/-- `COMM_SET_CURRENT` (R304); inbound it is an unknown identifier (30_encoding.md R122). -/
def execCommSetCurrent (w : Wire Word32) (s : State) : Res :=
  wireCommand .setCurrent (fun v => buildAndSend (.setCurrent v) 0) w s

/-- `COMM_SET_CURRENT_BRAKE` (R305); inbound it is an unknown identifier (30_encoding.md R122). -/
def execCommSetCurrentBrake (w : Wire Word32) (s : State) : Res :=
  wireCommand .setCurrentBrake (fun v => buildAndSend (.setCurrentBrake v) 0) w s

/-- `COMM_SET_RPM` (R306); inbound it is an unknown identifier (30_encoding.md R122). -/
def execCommSetRpm (w : Wire Word32) (s : State) : Res :=
  wireCommand .setRpm (fun v => buildAndSend (.setRpm v) 0) w s

/-- `COMM_SET_POS` (R307); inbound it is an unknown identifier (30_encoding.md R122). -/
def execCommSetPos (w : Wire Word32) (s : State) : Res :=
  wireCommand .setPos (fun v => buildAndSend (.setPos v) 0) w s

/-- `COMM_ALIVE` (R310); inbound it is an unknown identifier (30_encoding.md R122). -/
def execCommAlive (w : Wire Unit) (s : State) : Res :=
  wireCommand .alive (fun _ => buildAndSend .alive 0) w s

/-- `COMM_FORWARD_CAN` (R312): the wrapped command goes out behind the forward marker and the peer id;
inbound there is no unwrapping, and the identifier is unknown (30_encoding.md R122). -/
def execCommForwardCan (w : Wire (Byte × Command)) (s : State) : Res :=
  wireCommand .forwardCan (fun (peer, c) => buildAndSend c peer) w s

/-- `COMM_SET_CHUCK_DATA` (R309); inbound it is an unknown identifier (30_encoding.md R122). -/
def execCommSetChuckData (w : Wire (Byte × Byte × Bool × Bool)) (s : State) : Res :=
  wireCommand .setChuckData
    (fun (x, y, lower, upper) => buildAndSend (.setChuckData x y lower upper) 0) w s

/-- `COMM_GET_VALUES_SELECTIVE`: the query with its mask (R303) and the response (R333). -/
def execCommGetValuesSelective (w : Wire Word32) (s : State) : Res :=
  wireCommand .getValuesSelective (fun mask => buildAndSend (.getValuesSelective mask) 0) w s

/-- Bytes arrive at the RX port and the receive in progress, if any, takes them as far as it goes at the
present clock: by the engine's own steps when blocking (R238), by what `POLL` does when armed (R251).
With no receive in progress they wait in the queue (20_memory.md R93). -/
def receiveBytes (bs : List Byte) (s : State) : Res :=
  let s := s.arrive bs
  if s.rxResult ≠ .none then .next s
  else
    match s.rxMode with
    | .idle => .next s
    | .blocking => rxSteps s.rxQueue.length s
    | .armed => pollDrive s

/-- `FRAME_SHORT` (30_encoding.md R100): emitted for a payload of at most 255 bytes (42_frame_codec.md R200);
received by the byte rule (43_receiver.md R234, R237, R242). -/
def execFrameShort (w : Wire (List Byte)) (s : State) : Res :=
  match w with
  | .outbound p =>
    if p.length ≤ 255 then .next (emitFrame (frameEncode p) s) else .refused (.noSuchFrame p.length)
  | .inbound rest => receiveBytes (Config.startShort :: rest) s

/-- `FRAME_LONG` (30_encoding.md R101): emitted for a payload of 256 to 65535 bytes (42_frame_codec.md
R202); inbound it ends the receive with `RX_LONG` at its second byte (43_receiver.md R236). -/
def execFrameLong (w : Wire (List Byte)) (s : State) : Res :=
  match w with
  | .outbound p =>
    if 256 ≤ p.length ∧ p.length ≤ 65535 then .next (emitFrame (frameEncode p) s)
    else .refused (.noSuchFrame p.length)
  | .inbound rest => receiveBytes (Config.startLong :: rest) s

end Sys2Proof.Machine
end

