-- ==== Sys2Proof/Machine/Dispatch.lean ====
section
/-! DEFINITION. One arm per instruction: the meaning that runs it. -/

namespace Sys2Proof.Machine

def exec (i : Instr) (s : State) : Host.Outcome State Fault Refusal :=
  match i with
  -- host operations (30_encoding.md R110)
  | .crc16 buf off n => Sys2Proof.Machine.execCrc16 buf off n s
  | .payReset => Sys2Proof.Machine.execPayReset s
  | .appendU8 v => Sys2Proof.Machine.execAppendU8 v s
  | .appendBool b => Sys2Proof.Machine.execAppendBool b s
  | .appendInt32 v => Sys2Proof.Machine.execAppendInt32 v s
  | .appendUint32 v => Sys2Proof.Machine.execAppendUint32 v s
  | .rxSeek p => Sys2Proof.Machine.execRxSeek p s
  | .getU8 => Sys2Proof.Machine.execGetU8 s
  | .getInt32 => Sys2Proof.Machine.execGetInt32 s
  | .getUint32 => Sys2Proof.Machine.execGetUint32 s
  | .getFloat16 scale => Sys2Proof.Machine.execGetFloat16 scale s
  | .getFloat32 scale => Sys2Proof.Machine.execGetFloat32 scale s
  | .frameSend => Sys2Proof.Machine.execFrameSend s
  | .frameCheck n => Sys2Proof.Machine.execFrameCheck n s
  | .recvBlocking t => Sys2Proof.Machine.execRecvBlocking t s
  | .arm hint => Sys2Proof.Machine.execArm hint s
  | .poll => Sys2Proof.Machine.execPoll s
  | .decodePayload => Sys2Proof.Machine.execDecodePayload s
  | .reqFwVersion can => Sys2Proof.Machine.execReqFwVersion can s
  | .reqValues can => Sys2Proof.Machine.execReqValues can s
  | .reqValuesSel can mask => Sys2Proof.Machine.execReqValuesSel can mask s
  | .setCurrent can v => Sys2Proof.Machine.execSetCurrent can v s
  | .setCurrentBrake can v => Sys2Proof.Machine.execSetCurrentBrake can v s
  | .setRpm can v => Sys2Proof.Machine.execSetRpm can v s
  | .setPos can v => Sys2Proof.Machine.execSetPos can v s
  | .setDuty can v => Sys2Proof.Machine.execSetDuty can v s
  | .setAux can => Sys2Proof.Machine.execSetAux can s
  | .sendAlive can => Sys2Proof.Machine.execSendAlive can s
  | .auxWrite x y lower upper => Sys2Proof.Machine.execAuxWrite x y lower upper s
  | .cfgTimeout t => Sys2Proof.Machine.execCfgTimeout t s
  | .clrErr => Sys2Proof.Machine.execClrErr s
  -- wire commands (30_encoding.md R120)
  | .commFwVersion w => Sys2Proof.Machine.execCommFwVersion w s
  | .commGetValues w => Sys2Proof.Machine.execCommGetValues w s
  | .commSetDuty w => Sys2Proof.Machine.execCommSetDuty w s
  | .commSetCurrent w => Sys2Proof.Machine.execCommSetCurrent w s
  | .commSetCurrentBrake w => Sys2Proof.Machine.execCommSetCurrentBrake w s
  | .commSetRpm w => Sys2Proof.Machine.execCommSetRpm w s
  | .commSetPos w => Sys2Proof.Machine.execCommSetPos w s
  | .commAlive w => Sys2Proof.Machine.execCommAlive w s
  | .commForwardCan w => Sys2Proof.Machine.execCommForwardCan w s
  | .commSetChuckData w => Sys2Proof.Machine.execCommSetChuckData w s
  | .commGetValuesSelective w => Sys2Proof.Machine.execCommGetValuesSelective w s
  -- frame forms (30_encoding.md R100, R101)
  | .frameShort w => Sys2Proof.Machine.execFrameShort w s
  | .frameLong w => Sys2Proof.Machine.execFrameLong w s

end Sys2Proof.Machine
end

