-- ==== Sys2Proof/Machine/Fetch.lean ====
section
/-! DEFINITION. What each agent's move does (00_scope.md R18; log entry 1), and how an instruction is put
where the machine takes its next one from (log entries 2 and 7). -/

namespace Sys2Proof.Machine

/-- An operation word at the host port (60_exceptions.md R375): the decoded instruction runs; a reserved
selector is refused by the busy gate, else raises `ERR_OP` (R374). -/
def issueWord (w : OpWord) (s : State) : Res :=
  match decode (.host w) with
  | .ok i => exec i s
  | .error _ => accept s fun s => .next (s.raise .op)

/-- The reset input (70_reset_and_hazards.md R410 to R412): the engine's state takes its reset values, the
environment's state stays. Bytes popped are lost, queued bytes stay (R411). -/
def resetEngine (s : State) : State :=
  { State.reset with
    rxQueue := s.rxQueue
    txOut := s.txOut
    now := s.now
    diagLog := s.diagLog
    diagPresent := s.diagPresent
    sched := s.sched
    draws := s.draws }

/-- One agent's move. -/
def agentMove (ev : Event) (s : State) : Res :=
  match ev with
  | .op w => issueWord w s
  | .rx b => .next (s.arrive [b])
  | .tick ms => .next { s with now := s.now + ms }
  | .engine => engineTurn s
  | .reset => .next (resetEngine s)

/-- The machine's move: the first pending event, or with none pending the engine's own turn. -/
def nextMove (s : State) : Res :=
  match s.sched with
  | [] => engineTurn s
  | ev :: rest => agentMove ev { s with sched := rest }

/-- The operation word of `DECODE_PAYLOAD`. -/
def decodePayloadWord : OpWord := hostWord 0x40 0 0 0 0

/-- The operation word of `POLL`. -/
def pollWord : OpWord := hostWord 0x32 0 0 0 0

/-- Put an item where the machine takes it from (log entry 7): an operation word at the head of the host
port; an inbound payload in the payload view, under a `DECODE_PAYLOAD`; an inbound frame in the RX queue of
a freshly armed receive, under a `POLL`. Outbound items are never taken from anywhere. -/
def placeItem (item : Item) (s : State) : State :=
  match item with
  | .host w => { s with sched := .op w :: s.sched }
  | .payloadIn bytes =>
    { s with
      rxbuf := s.rxbuf.putAll 2 bytes
      rxLen := BitVec.ofNat 8 bytes.length
      rxValid := true
      sched := .op decodePayloadWord :: s.sched }
  | .frameIn bytes =>
    { rxStart (BitVec.allOnes 32) .armed s with
      rxQueue := bytes
      sched := .op pollWord :: s.sched }
  | .payloadOut _ => s
  | .frameOut _ => s

end Sys2Proof.Machine
end

