-- ==== Sys2Proof/Machine/Step.lean ====
section
/-! DEFINITION. One step of the machine, and the state in which a given encoded instruction is the next
thing the machine takes. -/

namespace Sys2Proof.Machine

/-- One step (00_scope.md R18): one agent's move, or one receive step of the engine. -/
def step (s : State) : Host.Outcome State Fault Refusal := nextMove s

/-- `s` with the instruction whose first `nbits` bits are `w`, higher bits 0, where the next step takes its
instruction from (log entry 7). -/
def State.withFetchWord (s : State) (nbits w : Nat) : State := placeItem (tableItem nbits w) s

end Sys2Proof.Machine
end

