-- ==== Sys2Proof/Machine/HostSide.lean ====
section
/-! DEFINITION. What the spec says of the host's own arithmetic around the engine: the exact readings
(41_field_codec.md R168, 10_state.md R36), the setpoint conversion of each command (44_command_dispatch.md R297), how the
source's interface reads the engine's results (43_receiver.md R246, 10_state.md R34, 60_exceptions.md R370) and
the pseudo-operations (30_encoding.md R131). No step of the machine uses them (log entries 19 and 24). -/

namespace Sys2Proof.Machine

/-- The reading of the last scaled read: `to_s32(GET_RES) / GET_SCALE`, exactly (41_field_codec.md R168,
R184). -/
def State.reading (s : State) : ℚ := (s.getRes.toInt : ℚ) / (s.getScale.toNat : ℚ)

/-- The number that the host's own division gives for the last scaled read (41_field_codec.md R168). -/
def State.hostReading (s : State) : ℚ := Config.hostFloatDiv s.getRes.toInt s.getScale.toNat

/-- The value of a snapshot register: signed for a signed field, unsigned for `u8` (10_state.md R36). -/
def fieldValue (type : FieldType) (raw : Word32) : Int :=
  match type with
  | .u8 => raw.toNat
  | .s16 => raw.toInt
  | .s32 => raw.toInt

/-- The exact reading of a telemetry field in a bank: `raw / scale(k)` (10_state.md R36). -/
def telemReading (e : TelemEntry) (bank : Vector (BitVec 32) 18) : ℚ :=
  (fieldValue e.type bank[e.bit] : ℚ) / (e.scale : ℚ)

/-- `trunc`: toward zero (00_scope.md R16). -/
def truncToZero (x : ℚ) : Int := Int.tdiv x.num x.den

/-- The `s32` operand of a host value times its factor; a value outside the range is refused at the host,
and the engine never sees it (44_command_dispatch.md R297, 93_implementation_defined.md U2). -/
def setpoint (factor : Nat) (x : ℚ) : Option Word32 :=
  let v := truncToZero (x * factor)
  if -2 ^ 31 ≤ v ∧ v < 2 ^ 31 then some (BitVec.ofInt 32 v) else none

/-- The source's `receive_blocking(timeout) -> (length, payload) | timeout`: a length and a payload on a
verified frame, otherwise no message (43_receiver.md R246). -/
def State.blockingReturn (s : State) : Option (Nat × List Byte) :=
  if s.opRes = .ok then some (s.rxLen.toNat, s.view) else none

/-- The end states of the source's request state machine (10_state.md R34, 44_command_dispatch.md R341). -/
inductive RequestEnd where
  | decoded
  | timedOut
  | checksumFailed
  deriving DecidableEq, Repr

/-- The source's end state behind a request's result; the spec's further results have none (R34, R341). -/
def ResultCode.requestEnd (rc : ResultCode) : Option RequestEnd :=
  if rc = .ok ∨ rc = .respMismatch then some .decoded
  else if rc = .timeout then some .timedOut
  else if rc = .crcFail then some .checksumFailed
  else Option.none

/-- What the original software shows of a result: every code but `OK` and `SENT` is the same non-result
(60_exceptions.md R370). -/
def ResultCode.originalReport (rc : ResultCode) : Option ResultCode :=
  if rc = .ok ∨ rc = .sent then some rc else Option.none

/-- `LOAD_PAYLOAD b0, ..., bk` (30_encoding.md R131). -/
def loadPayload (bytes : List Byte) : List Instr := .payReset :: bytes.map .appendU8

/-- `SEND_RAW b0, ..., bk` (R131). -/
def sendRaw (bytes : List Byte) : List Instr := loadPayload bytes ++ [.frameSend]

/-- Set current, from amperes (44_command_dispatch.md R297): `SET_CURRENT_A can, amps` (R131). -/
def setCurrentAmps (can : Byte) (amps : ℚ) : Option Instr := (setpoint 1000 amps).map (.setCurrent can)

/-- Set brake current, from amperes (R297, decision D13). -/
def setCurrentBrakeAmps (can : Byte) (amps : ℚ) : Option Instr :=
  (setpoint 1000 amps).map (.setCurrentBrake can)

/-- Set RPM: truncated, with no scaling (R297). -/
def setRpmReal (can : Byte) (rpm : ℚ) : Option Instr := (setpoint 1 rpm).map (.setRpm can)

/-- Set position: truncated, with no scaling (R297). -/
def setPosReal (can : Byte) (position : ℚ) : Option Instr := (setpoint 1 position).map (.setPos can)

/-- Set duty cycle, from a fraction (R297): `SET_DUTY_F can, duty` (R131). -/
def setDutyFraction (can : Byte) (duty : ℚ) : Option Instr := (setpoint 100000 duty).map (.setDuty can)

/-- The moves of agents, one after another (00_scope.md R18). -/
def agentMoves : List Event → State → Res
  | [], s => .next s
  | ev :: moves, s => andThen (agentMove ev s) (agentMoves moves)

/-- `WAIT_FRAME`: the host polls until `OP_RES` is not `NONE` (30_encoding.md R131). DESIGN CHOICE (log entry 24):
R131 leaves open what the other agents do meanwhile and how much fuel the loop has. Both are the argument: each
entry holds the moves that the other agents make before the next `POLL`, and there is one `POLL` for each entry. -/
def waitFrame : List (List Event) → State → Res
  | [], s => .next s
  | moves :: rounds, s =>
    andThen (agentMoves moves s) fun s =>
      andThen (execPoll s) fun s => if s.opRes ≠ .none then .next s else waitFrame rounds s

end Sys2Proof.Machine
end

