-- ==== Sys2Proof/Machine/ReadPort.lean ====
section
/-! DEFINITION. The host read port (10_state.md R31, 20_memory.md R82, R88): every register and every
buffer byte as the host sees it. A read is a function of the state and changes nothing (log entry 21). -/

namespace Sys2Proof.Machine

/-- `ENG` (10_state.md R33): the sequencing state, a view of `BUSY`. -/
inductive Eng where
  | ready
  | blockRx
  deriving DecidableEq, Repr

/-- The sequencing state (R33). -/
def State.eng (s : State) : Eng := if s.busy then .blockRx else .ready

/-- One register of a snapshot bank; past the last field there is none, and it reads 0. -/
def bankReg (bank : Vector (BitVec 32) 18) (k : Nat) : Word32 := bank.toList.getD k 0

/-- The register with this number, zero-extended; a number that is not in the table reads 0
(10_state.md R31). -/
def readReg (s : State) (number : Nat) : Word32 :=
  match number with
  | 0x00 => statusWord s
  | 0x01 => s.opRes.code.zeroExtend 32
  | 0x02 => s.cfgTimeout
  | 0x03 => s.crcRes.zeroExtend 32
  | 0x04 => s.txCur.zeroExtend 32
  | 0x05 => s.txCount.zeroExtend 32
  | 0x06 => s.rxCur.zeroExtend 32
  | 0x07 => s.rxLen.zeroExtend 32
  | 0x08 => s.getRes
  | 0x09 => s.getScale
  | 0x0A => s.rxCnt.zeroExtend 32
  | 0x0B => s.rxExp.zeroExtend 32
  | 0x0C => s.rxDecl.zeroExtend 32
  | 0x0D => s.rxT0
  | 0x0E => s.rxTmo
  | 0x0F => s.rxHint.zeroExtend 32
  | 0x10 => s.rxResult.code.zeroExtend 32
  | 0x11 => s.reqState.code.zeroExtend 32
  | 0x12 => s.reqResult.code.zeroExtend 32
  | 0x13 => s.reqCmd.zeroExtend 32
  | 0x14 => s.decId.zeroExtend 32
  | 0x15 => s.decRes.code.zeroExtend 32
  | 0x16 => s.fwMajor.zeroExtend 32
  | 0x17 => s.fwMinor.zeroExtend 32
  | 0x18 => s.auxX.zeroExtend 32
  | 0x19 => s.auxY.zeroExtend 32
  | 0x1A => s.auxBtn.zeroExtend 32
  | 0x1B => s.opCur.zeroExtend 32
  | n =>
    if 0x20 ≤ n ∧ n ≤ 0x31 then bankReg s.latest (n - 0x20)
    else if 0x40 ≤ n ∧ n ≤ 0x51 then bankReg s.prev (n - 0x40)
    else 0

/-- A buffer byte at the read port; an offset outside the buffer has none (20_memory.md R82). `draw` is
the read's own draw for a byte that nothing has written (R83). -/
def readBuf (s : State) (buf : Buffer) (a draw : Nat) : Option Byte :=
  if a < Config.bufSize buf then some (((s.mem buf).get a).getD (Config.freeByte buf a draw)) else none

end Sys2Proof.Machine
end

