-- ==== Sys2Proof/Safety.lean ====
section
/-! DEFINITION. What a sound state of the engine is, in the terms the spec gives its registers (ranges and
reserved bits of 10_state.md R31 and R32, the result codes of 60_exceptions.md R370, the receive rules of
43_receiver.md R231 to R244), and what a safe step is. -/

namespace Sys2Proof.Machine

/-- A buffer holds written bytes in canonical form, all inside the buffer (20_memory.md R82). -/
structure Memory.Sound (m : Memory) (size : Nat) : Prop where
  wf : m.wf
  inside : ∀ c ∈ m, c.1 < size

/-- Register ranges and reserved bits (10_state.md R31, R32, R35, 44_command_dispatch.md R332); the payload
under assembly has been written (20_memory.md R83). -/
structure State.RangesOk (s : State) : Prop where
  rxbuf : s.rxbuf.Sound Config.rxbufSize
  txpay : s.txpay.Sound Config.txCap
  txCur : s.txCur.toNat ≤ Config.txCap
  txWritten : ∀ a < s.txCur.toNat, (s.txpay.get a).isSome
  rxLen : s.rxLen.toNat ≤ 251
  rxCur : s.rxCur.toNat ≤ s.rxLen.toNat
  rxCnt : s.rxCnt.toNat ≤ Config.rxbufSize
  auxBtn : s.auxBtn.toNat < 4
  rxExpReserved : s.rxExp.extractLsb' 9 6 = 0
  getScale : s.getScale ≠ 0
  snapshots : s.prevValid = true → s.latestValid = true

/-- The result registers hold only the codes that R370 and R231 let be written to them, and the
request register agrees with the request in progress (60_exceptions.md R370, 44_command_dispatch.md R340). -/
structure State.ResultsOk (s : State) : Prop where
  rxResult : s.rxResult ∈ [.none, .ok, .crcFail, .timeout, .rxOverflow, .rxLong]
  decRes : s.decRes ∈ [.none, .ok, .decodeFail]
  reqResult : s.reqResult ∈
    [.none, .ok, .respMismatch, .decodeFail, .timeout, .crcFail, .rxOverflow, .rxLong, .sent]
  reqNeverSeen : s.reqState ≠ .encodedSent
  awaiting : s.reqState = .awaiting ↔ s.busy = true ∧ s.opCur ≠ 0x30

/-- The sequencing state (10_state.md R33): `BUSY` is the blocking receive's, and `OP_CUR` names its
operation. -/
structure State.SequencingOk (s : State) : Prop where
  busy : s.busy = true ↔ s.rxMode = .blocking
  busyReceives : s.busy = true → s.rxResult = .none
  opBusy : s.busy = true → s.opCur = 0x30 ∨ s.opCur = 0x50 ∨ s.opCur = 0x51 ∨ s.opCur = 0x52
  opReady : s.busy = false → s.opCur = 0

/-- A receive in progress (43_receiver.md R231 to R237): the bytes of the current frame lie in `RXBUF`
below `RX_CNT`; before the second byte no length is known, after it the frame is a short one whose
expected length is its declared length plus 5. -/
structure State.AssemblyOk (s : State) : Prop where
  count : receiving s = true → s.rxCnt.toNat < Config.rxbufSize
  stored : receiving s = true → ∀ a < s.rxCnt.toNat, (s.rxbuf.get a).isSome
  noHeader : receiving s = true → s.rxExp.getLsbD 15 = false → s.rxCnt.toNat ≤ 1
  header : receiving s = true → s.rxExp.getLsbD 15 = true →
    2 ≤ s.rxCnt.toNat ∧ s.rxDecl.toNat ≤ 251
      ∧ s.rxExp = 0x8000 ||| BitVec.ofNat 16 (s.rxDecl.toNat + 5)
      ∧ s.rxbuf.get 0 = some Config.startShort ∧ s.rxbuf.get 1 = some s.rxDecl

/-- The payload view (43_receiver.md R243, R244): with `RX_VALID` = 1, `RXBUF` holds the short frame of a
payload of `RX_LEN` bytes, which is the view; with `RX_VALID` = 0 there is no view. -/
structure State.ViewOk (s : State) : Prop where
  valid : s.rxValid = true →
    s.rxResult = .ok
      ∧ ∃ p : List Byte, p.length = s.rxLen.toNat
        ∧ ∀ i < p.length + 5, s.rxbuf.get i = (shortFrame p)[i]?
  noView : s.rxValid = false → s.rxLen = 0 ∧ s.rxCur = 0

/-- The invariant of the engine. -/
structure State.Inv (s : State) : Prop where
  ranges : s.RangesOk
  results : s.ResultsOk
  sequencing : s.SequencingOk
  assembly : s.AssemblyOk
  view : s.ViewOk

/-- A step is safe when it neither faults nor is refused. -/
def safeStep (s : State) : Prop := ∃ t, step s = .next t

/-! ### Terms the statements use -/

/-- `n` steps of the machine. -/
def runSteps : Nat → State → Res
  | 0, s => .next s
  | n + 1, s => andThen (step s) (runSteps n)

/-- The reserved selector values, as 30_encoding.md R110 lists them. -/
def reservedSelector (sel : Byte) : Prop :=
  sel = 0x00 ∨ (0x02 ≤ sel ∧ sel ≤ 0x0F) ∨ (0x15 ≤ sel ∧ sel ≤ 0x17) ∨ (0x1E ≤ sel ∧ sel ≤ 0x1F)
    ∨ (0x22 ≤ sel ∧ sel ≤ 0x2F) ∨ (0x33 ≤ sel ∧ sel ≤ 0x3F) ∨ (0x41 ≤ sel ∧ sel ≤ 0x4F)
    ∨ (0x5A ≤ sel ∧ sel ≤ 0x5F) ∨ (0x61 ≤ sel ∧ sel ≤ 0x6F) ∨ 0x72 ≤ sel

/-- The bits of an operation word that its row in 30_encoding.md R110 names, `SEL` included: a 1 for each. -/
def namedBits (sel : Byte) : OpWord :=
  match sel.toNat with
  | 0x01 => 0xFFFFFFFF000001FF
  | 0x11 => 0xFFFF
  | 0x12 => 0xFFFF
  | 0x13 => 0xFFFFFFFF000000FF
  | 0x14 => 0xFFFFFFFF000000FF
  | 0x18 => 0xFFFF
  | 0x1C => 0xFFFFFFFF000000FF
  | 0x1D => 0xFFFFFFFF000000FF
  | 0x21 => 0xFFFFFFFF000000FF
  | 0x30 => 0xFFFFFFFF000000FF
  | 0x31 => 0x0000FFFF000000FF
  | 0x50 => 0xFFFF
  | 0x51 => 0xFFFF
  | 0x52 => 0xFFFFFFFF0000FFFF
  | 0x53 => 0xFFFFFFFF0000FFFF
  | 0x54 => 0xFFFFFFFF0000FFFF
  | 0x55 => 0xFFFFFFFF0000FFFF
  | 0x56 => 0xFFFFFFFF0000FFFF
  | 0x57 => 0xFFFFFFFF0000FFFF
  | 0x58 => 0xFFFF
  | 0x59 => 0xFFFF
  | 0x60 => 0x0000000003FFFFFF
  | 0x70 => 0xFFFFFFFF000000FF
  | _ => 0xFF

/-- The wire type of telemetry field `k` (44_command_dispatch.md R320). -/
def telemType (k : Nat) : FieldType :=
  if k = 0 ∨ k = 1 ∨ k = 6 ∨ k = 8 then .s16 else if k = 15 ∨ k = 17 then .u8 else .s32

/-- The value of telemetry field `k` whose first wire byte is byte `start` of `body`: big-endian, sign-extended
for a signed type and zero-extended for `u8` (44_command_dispatch.md R332, 10_state.md R36). -/
def telemWord (k : Nat) (body : List Byte) (start : Nat) : BitVec 32 :=
  let b (j : Nat) : Byte := body.getD (start + j) 0
  match telemType k with
  | .s16 => (b 0 ++ b 1).signExtend 32
  | .u8 => (b 0).zeroExtend 32
  | .s32 => b 0 ++ b 1 ++ b 2 ++ b 3

/-- `off(m, k)`: the body offset of field `k` under mask `m` (44_command_dispatch.md R323). -/
def fieldOffset (m : Word32) (k : Nat) : Nat :=
  ((List.range k).map fun j => if m.getLsbD j then (telemType j).width else 0).sum

/-- The payload of a command: behind the forward marker and the peer id when there is a peer
(44_command_dispatch.md R312). -/
def peerPayload (can : Byte) (cmd : List Byte) : List Byte :=
  (if can ≠ 0 then [0x22, can] else []) ++ cmd

/-- `t` is `s` after `p` was built at the start of `TXPAY` and sent (44_command_dispatch.md R300): every
other byte of `TXPAY` stays, and so does everything that is not named. -/
def BuiltAndSent (p : List Byte) (s t : State) : Prop :=
  (∀ a, t.txpay.get a = if a < p.length then p[a]? else s.txpay.get a)
    ∧ t = { s with
        txpay := t.txpay
        txCur := BitVec.ofNat 16 p.length
        txOut := s.txOut ++ frameEncode p
        txCount := BitVec.ofNat 17 (p.length + 5)
        diagLog := (s.diag .frameSent).diagLog }

/-- `t` is `s` after a request without a response that sent `p` (44_command_dispatch.md R340). -/
def RequestSent (cmd : Byte) (p : List Byte) (s t : State) : Prop :=
  BuiltAndSent p
    { s with reqCmd := cmd, reqState := .done, reqResult := .sent, opRes := .sent, opCur := 0 } t

/-- A receive in progress that has taken no byte yet (43_receiver.md R231, R239). -/
def freshReceive (s : State) : Prop :=
  s.rxMode ≠ .idle ∧ s.rxResult = .none ∧ s.rxCnt = 0 ∧ s.rxExp = 0

/-- `s` after its receive ended with `rc`, a query's verified frame aside: an armed receive writes nothing
more, `RECV_BLOCKING` reports `rc`, a query completes its request with it (43_receiver.md R241, R245,
44_command_dispatch.md R340). -/
def receiveEnded (rc : ResultCode) (s : State) : State :=
  match s.rxMode with
  | .blocking =>
    if s.opCur = 0x30 then { s with opRes := rc, rxMode := .idle, busy := false, opCur := 0 }
    else { s with
      reqResult := rc, reqState := .done, opRes := rc, rxMode := .idle, busy := false, opCur := 0 }
  | _ => s

/-- `s`, in which a query's verified response has just been decoded, after the request's completion: a failed
decode wins over an identifier other than `expected` (44_command_dispatch.md R340, 60_exceptions.md R377). -/
def queryAnswered (expected : Byte) (s : State) : State :=
  let rc : ResultCode :=
    if s.decRes = .decodeFail then .decodeFail else if s.decId ≠ expected then .respMismatch else .ok
  { s with reqResult := rc, reqState := .done, opRes := rc, rxMode := .idle, busy := false, opCur := 0 }

/-- The identifier that the query in `OP_CUR` expects back (44_command_dispatch.md R301, R302, R303). -/
def queryExpects (sel expected : Byte) : Prop :=
  (sel = 0x50 ∧ expected = 0x00) ∨ (sel = 0x51 ∧ expected = 0x04) ∨ (sel = 0x52 ∧ expected = 0x32)

/-- `s` after the bytes of the short frame of `p` have been received: they lie at the start of `RXBUF`,
whose other bytes stay, and the view is `p` (43_receiver.md R233, R234, R243). `queue` stays waiting. -/
def receivedFrame (p queue : List Byte) (s : State) : State :=
  ({ s with
    rxQueue := queue
    rxbuf := s.rxbuf.putAll 0 (shortFrame p)
    rxCnt := BitVec.ofNat 9 (p.length + 5)
    rxExp := 0x8000 ||| BitVec.ofNat 16 (p.length + 5)
    rxDecl := BitVec.ofNat 8 p.length
    rxResult := .ok
    rxLen := BitVec.ofNat 8 p.length
    rxValid := true
    rxCur := 0 } : State).diag .frameOk

end Sys2Proof.Machine
end

