-- ==== Sys2Proof/Certificates/Slice0/Obligations.lean ====
section
/-! DEFINITION. The statements for the provers, from the numbered rules of spec/. A statement marked
'stated' in OBLIGATIONS.json formalises the rule it cites; a 'derived' one rests on an inference the spec
marks as its own, on a value it takes from general knowledge, or on a convention of this model (the log
entry is named). -/

section

open Sys2Proof Sys2Proof.Machine

/-! ### Encoding (30_encoding.md) -/

/-- Decoding the encoding of a well-formed instruction gives it back, for every instruction and every
operand value (R105, R106, R110, R111, R200). That a wire row is an instruction is log entry 5. -/
def Obligations.DecodeUndoesEncode : Prop :=
  ∀ i : Instr, i.wf = true → decode (encode i) = .ok i

/-- Words and payloads written out from the tables of R110, R111, R121 in the shapes of R105, R106, R200, R312,
and from the examples of R201, R331. That a payload or a frame is an instruction is log entry 5. -/
def Obligations.SpecWordsDecode : Prop :=
  decode (.host 0x0000000500000001) = .ok (.crc16 .txpay 0 5)
    ∧ decode (.host 0x0000138800000013) = .ok (.appendInt32 5000)
    ∧ decode (.host 0x0000000A0000001C) = .ok (.getFloat16 10)
    ∧ decode (.host 0x0000000A00000021) = .ok (.frameCheck 10)
    ∧ decode (.host 0x0000000800000031) = .ok (.arm 8)
    ∧ decode (.host 0x0000008000000052) = .ok (.reqValuesSel 0 0x80)
    ∧ decode (.host 0x0000138800000753) = .ok (.setCurrent 7 5000)
    ∧ decode (.host 0x000000000132C860) = .ok (.auxWrite 200 50 true false)
    ∧ decode (.host 0x000000FA00000070) = .ok (.cfgTimeout 250)
    ∧ decode (.payloadIn [0x00, 3, 62]) = .ok (.commFwVersion (.inbound [3, 62]))
    ∧ decode (.payloadOut [0x22, 7, 0x06, 0x00, 0x00, 0x13, 0x88])
        = .ok (.commForwardCan (.outbound (7, .setCurrent 5000)))
    ∧ decode (.frameOut [0x02, 0x05, 0x06, 0x00, 0x00, 0x13, 0x88, 0x8B, 0x25, 0x03])
        = .ok (.frameShort (.outbound [0x06, 0x00, 0x00, 0x13, 0x88]))

/-- R113: two words that agree on the fields their row names do the same, whatever their other bits. -/
def Obligations.UnnamedFieldsIgnored : Prop :=
  ∀ (w w' : OpWord), w &&& namedBits (wordSel w) = w' &&& namedBits (wordSel w) →
    decode (.host w) = decode (.host w') ∧ ∀ s, issueWord w s = issueWord w' s

/-- R374: a word with a reserved selector raises `ERR_OP` and changes nothing else, whatever its other fields;
every other word is an operation. -/
def Obligations.ReservedSelectorRaises : Prop :=
  ∀ w : OpWord,
    (reservedSelector (wordSel w) → ∀ s : State, s.busy = false →
      issueWord w s = .next { s with errOp := true, opRes := .badOp })
    ∧ (¬ reservedSelector (wordSel w) → ∃ i, decode (.host w) = .ok i)

/-- R373: while `BUSY` = 1 every operation word is refused, and only `ERR_BUSY` records it. -/
def Obligations.BusyRefusesEveryWord : Prop :=
  ∀ (w : OpWord) (s : State), s.busy = true → issueWord w s = .next { s with errBusy := true }

/-- A step is the pending move, or the engine's turn when there is none; an operation word that decodes to `i`
runs the meaning of `i`, in the state without that move (R110, R114; the schedule of moves is log entry 1). -/
def Obligations.StepRunsDecodedWord : Prop :=
  (∀ s : State, s.sched = [] → step s = engineTurn s)
  ∧ (∀ (s : State) (ev : Event) (rest : List Event), s.sched = ev :: rest →
    step s = agentMove ev { s with sched := rest })
  ∧ ∀ (s : State) (w : OpWord) (rest : List Event) (i : Instr),
    s.sched = .op w :: rest → decode (.host w) = .ok i → step s = exec i { s with sched := rest }

/-- An inbound payload whose first byte is in the catalogue decodes to its wire row, and that row's meaning
is the single decode site on the whole payload (R106, R330; log entry 5). -/
def Obligations.InboundRowsRunDecodeSite : Prop :=
  ∀ (name : CommandName) (body : List Byte),
    ∃ i, decode (.payloadIn (Config.cmdId name :: body)) = .ok i
      ∧ ∀ s : State, exec i s = .next (decodeSite (Config.cmdId name :: body) s)

/-! ### CRC Engine (40_crc.md) -/

/-- The CRC of the empty sequence and of every all-zero sequence, and the published check value (R142,
R144; the parameters are log entry 4). -/
def Obligations.CrcKnownValues : Prop :=
  crc16 [] = Config.crc.init ^^^ Config.crc.xorOut
    ∧ (∀ n, crc16 (List.replicate n 0) = 0x0000)
    ∧ crc16 [0x31, 0x32, 0x33, 0x34, 0x35, 0x36, 0x37, 0x38, 0x39] = 0x31C3

/-- R143: with bit 0 of the polynomial set, sequences that differ in exactly one bit have different CRCs,
whatever the initial value and the final XOR. -/
def Obligations.CrcDetectsSingleBit : Prop :=
  ∀ (p : Config.CrcParams) (pre post : List Byte) (b : Byte) (k : Fin 8),
    p.poly.getLsbD 0 = true → p.refIn = false → p.refOut = false →
      crcWith p (pre ++ b :: post) ≠ crcWith p (pre ++ (b ^^^ (1#8 <<< k.val)) :: post)

/-- R145: `CRC16` refuses a range that passes the buffer's size; otherwise it writes `CRC_RES` and `OP_RES` and
nothing else (the model's own draw counter aside), and over written bytes `CRC_RES` is their CRC. That bytes of
an earlier receive count as written is the model's reading of R239, not of R205's sentence on `FRAME_CHECK`
(log entry 17). -/
def Obligations.Crc16Range : Prop :=
  (∀ (f1 f2 f3 : Byte) (off n : BitVec 16), decode (.host (hostWord 0x01 f1 f2 f3 (off ++ n)))
    = .ok (.crc16 (if f1.getLsbD 0 then .rxbuf else .txpay) off n))
  ∧ ∀ (buf : Buffer) (off n : BitVec 16) (s : State), s.busy = false →
    (off.toNat + n.toNat > (if buf = .txpay then 512 else 256) →
      exec (.crc16 buf off n) s = .next { s with errBounds := true, opRes := .bounds })
    ∧ (off.toNat + n.toNat ≤ (if buf = .txpay then 512 else 256) →
      ∃ t, exec (.crc16 buf off n) s = .next t
        ∧ t = { s with crcRes := t.crcRes, opRes := .ok, draws := t.draws }
        ∧ ∀ bs : List Byte, bs.length = n.toNat →
          (∀ i (h : i < bs.length), (s.mem buf).get (off.toNat + i) = some bs[i]) → t.crcRes = crc16 bs)

/-! ### Binary Field Codec (41_field_codec.md) -/

/-- R175: `PAY_RESET` moves the cursor only. -/
def Obligations.PayResetMovesCursor : Prop :=
  (∀ (f1 f2 f3 : Byte) (imm : Word32), decode (.host (hostWord 0x10 f1 f2 f3 imm)) = .ok .payReset)
  ∧ ∀ s : State, s.busy = false → exec .payReset s = .next { s with txCur := 0, opRes := .ok }

/-- R176, R177: a one-byte append stores its byte at `TX_CUR` and moves the cursor by one, every other byte
of `TXPAY` staying; at `TXCAP` it is refused whole. -/
def Obligations.AppendByteStores : Prop :=
  (∀ (f1 f2 f3 : Byte) (imm : Word32),
    decode (.host (hostWord 0x11 f1 f2 f3 imm)) = .ok (.appendU8 f1)
    ∧ decode (.host (hostWord 0x12 f1 f2 f3 imm)) = .ok (.appendBool (f1 != 0)))
  ∧ ∀ (i : Instr) (v : Byte) (s : State), s.busy = false →
    (i = .appendU8 v ∨ (i = .appendBool true ∧ v = 1) ∨ (i = .appendBool false ∧ v = 0)) →
    (s.txCur.toNat + 1 > 512 → exec i s = .next { s with errBounds := true, opRes := .bounds })
    ∧ (s.txCur.toNat + 1 ≤ 512 → ∃ t, exec i s = .next t
      ∧ t = { s with txpay := t.txpay, txCur := s.txCur + 1, opRes := .ok }
      ∧ t.txpay.get s.txCur.toNat = some v
      ∧ ∀ a, a ≠ s.txCur.toNat → t.txpay.get a = s.txpay.get a)

/-- R178, R179: a four-byte append stores `v` most significant byte first at `TX_CUR` and moves the cursor by
four, every other byte of `TXPAY` staying; when fewer than four bytes remain nothing is written. -/
def Obligations.AppendWordStores : Prop :=
  (∀ (f1 f2 f3 : Byte) (imm : Word32),
    decode (.host (hostWord 0x13 f1 f2 f3 imm)) = .ok (.appendInt32 imm)
    ∧ decode (.host (hostWord 0x14 f1 f2 f3 imm)) = .ok (.appendUint32 imm))
  ∧ ∀ (i : Instr) (v : Word32) (s : State), s.busy = false → (i = .appendInt32 v ∨ i = .appendUint32 v) →
    (s.txCur.toNat + 4 > 512 → exec i s = .next { s with errBounds := true, opRes := .bounds })
    ∧ (s.txCur.toNat + 4 ≤ 512 → ∃ t, exec i s = .next t
      ∧ t = { s with txpay := t.txpay, txCur := s.txCur + 4, opRes := .ok }
      ∧ t.txpay.get s.txCur.toNat = some (v.extractLsb' 24 8)
      ∧ t.txpay.get (s.txCur.toNat + 1) = some (v.extractLsb' 16 8)
      ∧ t.txpay.get (s.txCur.toNat + 2) = some (v.extractLsb' 8 8)
      ∧ t.txpay.get (s.txCur.toNat + 3) = some (v.extractLsb' 0 8)
      ∧ ∀ a, a < s.txCur.toNat ∨ s.txCur.toNat + 4 ≤ a → t.txpay.get a = s.txpay.get a)

/-- R180: `RX_SEEK` sets the cursor anywhere in the view, its end included; else it is refused. -/
def Obligations.RxSeekSetsCursor : Prop :=
  (∀ (f1 f2 f3 : Byte) (imm : Word32), decode (.host (hostWord 0x18 f1 f2 f3 imm)) = .ok (.rxSeek f1))
  ∧ ∀ (p : Byte) (s : State), s.busy = false →
    ((s.rxValid = false ∨ p.toNat > s.rxLen.toNat) →
      exec (.rxSeek p) s = .next { s with errBounds := true, opRes := .bounds })
    ∧ ((s.rxValid = true ∧ p.toNat ≤ s.rxLen.toNat) →
      exec (.rxSeek p) s = .next { s with rxCur := p, opRes := .ok })

/-- R181, R182, R183: the unscaled reads are refused past the view; otherwise they take 1 or 4 bytes of the
view at `RX_CUR`, the first most significant, into `GET_RES` with scale 1, and memory and every other
register stay. `RX_LEN` is in its range (10_state.md R31). -/
def Obligations.IntegerReads : Prop :=
  (∀ (f1 f2 f3 : Byte) (imm : Word32),
    decode (.host (hostWord 0x19 f1 f2 f3 imm)) = .ok .getU8
    ∧ decode (.host (hostWord 0x1A f1 f2 f3 imm)) = .ok .getInt32
    ∧ decode (.host (hostWord 0x1B f1 f2 f3 imm)) = .ok .getUint32)
  ∧ ∀ s : State, s.busy = false → s.rxLen.toNat ≤ 251 →
    ((s.rxValid = false ∨ s.rxCur.toNat + 1 > s.rxLen.toNat) →
      exec .getU8 s = .next { s with errBounds := true, opRes := .bounds })
    ∧ (s.rxValid = true → s.rxCur.toNat + 1 ≤ s.rxLen.toNat →
      exec .getU8 s = .next { s with
        getRes := (s.byteAt .rxbuf (2 + s.rxCur.toNat)).zeroExtend 32
        getScale := 1, rxCur := s.rxCur + 1, opRes := .ok })
    ∧ ∀ i : Instr, i = .getInt32 ∨ i = .getUint32 →
      ((s.rxValid = false ∨ s.rxCur.toNat + 4 > s.rxLen.toNat) →
        exec i s = .next { s with errBounds := true, opRes := .bounds })
      ∧ (s.rxValid = true → s.rxCur.toNat + 4 ≤ s.rxLen.toNat →
        exec i s = .next { s with
          getRes := s.byteAt .rxbuf (2 + s.rxCur.toNat) ++ s.byteAt .rxbuf (3 + s.rxCur.toNat)
            ++ s.byteAt .rxbuf (4 + s.rxCur.toNat) ++ s.byteAt .rxbuf (5 + s.rxCur.toNat)
          getScale := 1, rxCur := s.rxCur + 4, opRes := .ok })

/-- R184: `GET_FLOAT16` refuses a zero scale first, then a read past the view; otherwise it sign-extends two
bytes of the view into `GET_RES` and keeps its scale, so that the exact reading is their signed value over the
scale (R168). -/
def Obligations.GetFloat16Reads : Prop :=
  (∀ (f1 f2 f3 : Byte) (imm : Word32), decode (.host (hostWord 0x1C f1 f2 f3 imm)) = .ok (.getFloat16 imm))
  ∧ ∀ (scale : Word32) (s : State), s.busy = false → s.rxLen.toNat ≤ 251 →
    (scale = 0 → exec (.getFloat16 scale) s = .next { s with errArg := true, opRes := .badArg })
    ∧ (scale ≠ 0 → (s.rxValid = false ∨ s.rxCur.toNat + 2 > s.rxLen.toNat) →
      exec (.getFloat16 scale) s = .next { s with errBounds := true, opRes := .bounds })
    ∧ (scale ≠ 0 → s.rxValid = true → s.rxCur.toNat + 2 ≤ s.rxLen.toNat →
      let raw : BitVec 16 := s.byteAt .rxbuf (2 + s.rxCur.toNat) ++ s.byteAt .rxbuf (3 + s.rxCur.toNat)
      let t : State := { s with
        getRes := raw.signExtend 32, getScale := scale, rxCur := s.rxCur + 2, opRes := .ok }
      exec (.getFloat16 scale) s = .next t ∧ t.reading = (raw.toInt : ℚ) / (scale.toNat : ℚ))

/-- R185: `GET_FLOAT32`, as R184 with four bytes. -/
def Obligations.GetFloat32Reads : Prop :=
  (∀ (f1 f2 f3 : Byte) (imm : Word32), decode (.host (hostWord 0x1D f1 f2 f3 imm)) = .ok (.getFloat32 imm))
  ∧ ∀ (scale : Word32) (s : State), s.busy = false → s.rxLen.toNat ≤ 251 →
    (scale = 0 → exec (.getFloat32 scale) s = .next { s with errArg := true, opRes := .badArg })
    ∧ (scale ≠ 0 → (s.rxValid = false ∨ s.rxCur.toNat + 4 > s.rxLen.toNat) →
      exec (.getFloat32 scale) s = .next { s with errBounds := true, opRes := .bounds })
    ∧ (scale ≠ 0 → s.rxValid = true → s.rxCur.toNat + 4 ≤ s.rxLen.toNat →
      exec (.getFloat32 scale) s = .next { s with
        getRes := s.byteAt .rxbuf (2 + s.rxCur.toNat) ++ s.byteAt .rxbuf (3 + s.rxCur.toNat)
          ++ s.byteAt .rxbuf (4 + s.rxCur.toNat) ++ s.byteAt .rxbuf (5 + s.rxCur.toNat)
        getScale := scale, rxCur := s.rxCur + 4, opRes := .ok })

/-! ### Frame Codec (42_frame_codec.md) -/

/-- R200: the two frame forms, byte for byte, with their lengths. -/
def Obligations.FrameEncodeForms : Prop :=
  ∀ p : List Byte,
    (p.length ≤ 255 →
      frameEncode p = [0x02, BitVec.ofNat 8 p.length] ++ p
        ++ [(crc16 p).extractLsb' 8 8, (crc16 p).extractLsb' 0 8, 0x03]
      ∧ (frameEncode p).length = p.length + 5)
    ∧ (256 ≤ p.length → p.length ≤ 65535 →
      frameEncode p = [0x03, (BitVec.ofNat 16 p.length).extractLsb' 8 8, (BitVec.ofNat 16 p.length).extractLsb' 0 8]
        ++ p ++ [(crc16 p).extractLsb' 8 8, (crc16 p).extractLsb' 0 8, 0x03]
      ∧ (frameEncode p).length = p.length + 6)

/-- R208: `FrameDecode` of a short frame accepts it and gives its payload back, the empty payload included. -/
def Obligations.FrameRoundTrip : Prop :=
  ∀ p : List Byte, p.length ≤ 255 →
    frameDecode (fun i => (frameEncode p).getD i 0) (p.length + 5) = (true, p)

/-- R209: one flipped bit of the payload region or of the CRC bytes of a short frame makes `FrameDecode`
refuse it; one of the start or the end marker leaves its verdict. -/
def Obligations.FrameDetectsFlippedBit : Prop :=
  ∀ (p : List Byte) (j : Nat) (k : Fin 8), p.length ≤ 255 → j < p.length + 5 → j ≠ 1 →
    let flipped : Nat → Byte := fun i =>
      if i = j then (frameEncode p).getD i 0 ^^^ (1#8 <<< k.val) else (frameEncode p).getD i 0
    (2 ≤ j ∧ j < p.length + 4 → (frameDecode flipped (p.length + 5)).1 = false)
    ∧ (j = 0 ∨ j = p.length + 4 → (frameDecode flipped (p.length + 5)).1 = true)

/-- R201: `FRAME_SEND` emits the frame of `TXPAY[0 .. TX_CUR)`, counts and reports it, and changes neither the
cursor nor `TXPAY`. `TX_CUR` is in its range and the payload has been written. -/
def Obligations.FrameSendEmits : Prop :=
  (∀ (f1 f2 f3 : Byte) (imm : Word32), decode (.host (hostWord 0x20 f1 f2 f3 imm)) = .ok .frameSend)
  ∧ ∀ (p : List Byte) (s : State), s.busy = false → s.txCur.toNat ≤ 512 → p.length = s.txCur.toNat →
    (∀ i (h : i < p.length), s.txpay.get i = some p[i]) →
      exec .frameSend s = .next { s with
        txOut := s.txOut ++ frameEncode p
        txCount := BitVec.ofNat 17 (frameEncode p).length
        diagLog := (s.diag .frameSent).diagLog
        opRes := .ok }

/-- R205: `FRAME_CHECK` writes only `OP_RES` (the model's own draw counter aside): `FORMAT` for a length
outside 5..256 or other than the declared one plus 5, else the CRC's verdict, neither marker being
checked. Over bytes that the current receive has not written it answers one of the three. -/
def Obligations.FrameCheckVerdict : Prop :=
  (∀ (f1 f2 f3 : Byte) (imm : Word32), decode (.host (hostWord 0x21 f1 f2 f3 imm)) = .ok (.frameCheck imm))
  ∧ ∀ (n : Word32) (s : State), s.busy = false →
    ∃ t, exec (.frameCheck n) s = .next t
      ∧ t = { s with opRes := t.opRes, draws := t.draws }
      ∧ t.opRes ∈ [ResultCode.format, .ok, .crcFail]
      ∧ (n.toNat < 5 ∨ n.toNat > 256 → t.opRes = .format)
      ∧ (5 ≤ n.toNat → n.toNat ≤ 256 → 2 ≤ s.rxCnt.toNat →
        (s.byteAt .rxbuf 1).toNat + 5 ≠ n.toNat → t.opRes = .format)
      ∧ (5 ≤ n.toNat → n.toNat ≤ 256 → n.toNat ≤ s.rxCnt.toNat →
        (s.byteAt .rxbuf 1).toNat + 5 = n.toNat →
        t.opRes =
          if s.byteAt .rxbuf (n.toNat - 3) ++ s.byteAt .rxbuf (n.toNat - 2)
            = crc16 (s.bytesAt .rxbuf 2 (n.toNat - 5)) then .ok else .crcFail)

/-! ### Receiver (43_receiver.md) -/

/-- R239, R245: the issue of `RECV_BLOCKING` starts a fresh blocking receive with its own timeout; neither
the RX queue nor `RXBUF` changes, nor anything else that is not named. -/
def Obligations.RecvBlockingStarts : Prop :=
  (∀ (f1 f2 f3 : Byte) (imm : Word32), decode (.host (hostWord 0x30 f1 f2 f3 imm)) = .ok (.recvBlocking imm))
  ∧ ∀ (t : Time) (s : State), s.busy = false →
    exec (.recvBlocking t) s = .next { s with
      opCur := 0x30, busy := true, rxMode := .blocking, rxResult := .none
      rxCnt := 0, rxExp := 0x0000, rxDecl := 0, rxT0 := s.now, rxTmo := t
      rxValid := false, rxLen := 0, rxCur := 0, rxErrBadStart := false, rxErrLenOvf := false }

/-- R250: `ARM` starts a fresh armed receive under `CFG_TIMEOUT`, keeps the hint, and does not set `BUSY`. -/
def Obligations.ArmStarts : Prop :=
  (∀ (f1 f2 f3 : Byte) (high h : BitVec 16), decode (.host (hostWord 0x31 f1 f2 f3 (high ++ h))) = .ok (.arm h))
  ∧ ∀ (h : BitVec 16) (s : State), s.busy = false →
    exec (.arm h) s = .next { s with
      rxHint := h, rxMode := .armed, rxResult := .none, opRes := .ok
      rxCnt := 0, rxExp := 0x0000, rxDecl := 0, rxT0 := s.now, rxTmo := s.cfgTimeout
      rxValid := false, rxLen := 0, rxCur := 0, rxErrBadStart := false, rxErrLenOvf := false }

/-- R238, R240: the deadline is tested first. An expired receive ends with `TIMEOUT` and takes no byte: by
`POLL` when armed, by the engine's turn when blocking, completing a request without a decode (R340). -/
def Obligations.DeadlineFirst : Prop :=
  ∀ s : State, (s.now - s.rxT0).toNat ≥ s.rxTmo.toNat → s.rxResult = .none →
    (s.busy = false → s.rxMode = .armed →
      exec .poll s = .next { s with
        rxResult := .timeout, opRes := .timeout, diagLog := (s.diag .timeout).diagLog })
    ∧ (s.busy = true → s.rxMode = .blocking → s.opCur = 0x30 →
      engineTurn s = .next { s with
        rxResult := .timeout, opRes := .timeout, diagLog := (s.diag .timeout).diagLog
        rxMode := .idle, busy := false, opCur := 0 })
    ∧ (s.busy = true → s.rxMode = .blocking → s.opCur = 0x50 ∨ s.opCur = 0x51 ∨ s.opCur = 0x52 →
      engineTurn s = .next { s with
        rxResult := .timeout, opRes := .timeout, diagLog := (s.diag .timeout).diagLog
        reqResult := .timeout, reqState := .done, rxMode := .idle, busy := false, opCur := 0 })

/-- R234, R235, R236: what the second byte `b` of a frame whose first byte is `m` does to a receive in
progress, in either strategy. -/
def Obligations.HeaderJudged : Prop :=
  ∀ (m b : Byte) (queue : List Byte) (s : State),
    s.rxResult = .none → expired s = false → s.rxCnt = 1 → s.rxbuf.get 0 = some m → s.rxQueue = b :: queue →
    let stored : State := { s with rxQueue := queue, rxbuf := s.rxbuf.put 1 b, rxCnt := 2 }
    let long : State :=
      { stored with rxResult := .rxLong, diagLog := (s.diag .longUnsupported).diagLog }
    (m = 0x02 → b.toNat + 5 ≤ 256 →
      rxStep s = .next { stored with rxDecl := b, rxExp := 0x8000 ||| BitVec.ofNat 16 (b.toNat + 5) })
    ∧ (m = 0x02 → b.toNat + 5 > 256 →
      rxStep s = .next { stored with
        rxDecl := b, rxErrLenOvf := true, rxCnt := 0, diagLog := (s.diag .lenOverflow).diagLog })
    ∧ (m = 0x03 → s.rxMode = .armed → rxStep s = .next long)
    ∧ (m = 0x03 → s.rxMode = .blocking → s.opCur = 0x30 →
      rxStep s = .next { long with opRes := .rxLong, rxMode := .idle, busy := false, opCur := 0 })
    ∧ (m = 0x03 → s.rxMode = .blocking → s.opCur = 0x50 ∨ s.opCur = 0x51 ∨ s.opCur = 0x52 →
      rxStep s = .next { long with
        reqResult := .rxLong, reqState := .done, opRes := .rxLong, rxMode := .idle, busy := false, opCur := 0 })
    ∧ (m ≠ 0x02 → m ≠ 0x03 →
      rxStep s = .next { stored with
        rxErrBadStart := true, rxCnt := 0, diagLog := (s.diag .badStart).diagLog })

/-- R233, R237, R241, R242, R243: what a byte `b` that is not a frame's second one does to a receive in
progress, armed or blocking: completion first, then exhaustion, else it is only stored. A frame is complete at
its expected length with the end marker there. A receive that ends says so in every register of its operation:
`RECV_BLOCKING` (R245) and a query, whose verified frame is decoded (R340, R377). That `RX_DECL` is the length
byte stored is part of the invariant. -/
def Obligations.ByteCompletesOrExhausts : Prop :=
  ∀ (b : Byte) (queue : List Byte) (s : State),
    s.rxMode = .armed
      ∨ (s.rxMode = .blocking
        ∧ (s.opCur = 0x30 ∨ s.opCur = 0x50 ∨ s.opCur = 0x51 ∨ s.opCur = 0x52)) →
    s.rxResult = .none → expired s = false →
    s.rxCnt.toNat < 256 → s.rxCnt ≠ 1 → s.rxQueue = b :: queue →
    let stored : State :=
      { s with rxQueue := queue, rxbuf := s.rxbuf.put s.rxCnt.toNat b, rxCnt := s.rxCnt + 1 }
    let complete : Prop :=
      s.rxExp.getLsbD 15 = true ∧ (s.rxExp.extractLsb' 0 9).toNat = s.rxCnt.toNat + 1 ∧ b = 0x03
    let verified : State := { stored with
      rxResult := .ok, rxLen := s.rxDecl, rxValid := true, rxCur := 0, diagLog := (s.diag .frameOk).diagLog }
    (∀ d : Byte, complete → s.rxbuf.get 1 = some d → d.toNat + 5 = s.rxCnt.toNat + 1 →
      let payload := stored.bytesAt .rxbuf 2 d.toNat
      let crcMatches : Prop :=
        stored.byteAt .rxbuf (d.toNat + 2) ++ stored.byteAt .rxbuf (d.toNat + 3) = crc16 payload
      (¬crcMatches → rxStep s = .next (receiveEnded .crcFail
        { stored with rxResult := .crcFail, diagLog := (s.diag .crcFail).diagLog }))
      ∧ (crcMatches → s.rxMode = .armed ∨ s.opCur = 0x30 → rxStep s = .next (receiveEnded .ok verified))
      ∧ (crcMatches → s.rxMode = .blocking → s.rxDecl = d → ∀ expected : Byte, queryExpects s.opCur expected →
        rxStep s = .next (queryAnswered expected (decodeSite payload { verified with rxMode := .idle }))))
    ∧ (¬complete → s.rxCnt.toNat = 255 →
      rxStep s = .next (receiveEnded .rxOverflow
        { stored with rxResult := .rxOverflow, diagLog := (s.diag .bufExhausted).diagLog }))
    ∧ (¬complete → s.rxCnt.toNat ≠ 255 → rxStep s = .next stored)

/-- R253: an armed receive that has ended keeps its mode and its result under every agent's move but a reset
and the operations that start a receive; a `POLL` then repeats the result, one without an armed receive answers
`NOT_ARMED`, and neither changes anything else. -/
def Obligations.PollSticky : Prop :=
  (∀ (ev : Event) (s t : State), s.rxMode = .armed → s.rxResult ≠ .none → ev ≠ .reset →
    (∀ w, ev = .op w → wordSel w ∉ [0x30, 0x31, 0x50, 0x51, 0x52]) →
    agentMove ev s = .next t → t.rxMode = .armed ∧ t.rxResult = s.rxResult)
  ∧ ∀ s : State, s.busy = false →
    (s.rxMode ≠ .armed → exec .poll s = .next { s with opRes := .notArmed })
    ∧ (s.rxMode = .armed → s.rxResult ≠ .none → exec .poll s = .next { s with opRes := s.rxResult })

/-- R252: a `POLL` with no byte available completes no frame and decodes nothing: before the deadline it
only writes `OP_RES`, after it it also ends the receive. -/
def Obligations.PollWithoutBytes : Prop :=
  ∀ s : State, s.busy = false → s.rxMode = .armed → s.rxResult = .none → s.rxQueue = [] →
    (expired s = false → exec .poll s = .next { s with opRes := .none })
    ∧ (expired s = true → exec .poll s = .next { s with
        rxResult := .timeout, opRes := .timeout, diagLog := (s.diag .timeout).diagLog })

/-- R251: one `POLL` of a fresh armed receive whose queue starts with the short frame of a payload of at most
251 bytes delivers that payload, decodes it, reports the decode's result, and leaves the later bytes. -/
def Obligations.PollDeliversFrame : Prop :=
  (∀ (f1 f2 f3 : Byte) (imm : Word32), decode (.host (hostWord 0x32 f1 f2 f3 imm)) = .ok .poll)
  ∧ ∀ (p rest : List Byte) (s : State),
    s.busy = false → s.rxMode = .armed → freshReceive s → expired s = false → p.length ≤ 251 →
    s.rxQueue = frameEncode p ++ rest →
      (let t := decodeSite p (receivedFrame p rest s)
       exec .poll s = .next { t with opRes := t.decRes })
      ∧ (receivedFrame p rest s).view = p
      ∧ ∀ a, (receivedFrame p rest s).rxbuf.get a
          = if a < p.length + 5 then (frameEncode p)[a]? else s.rxbuf.get a

/-- R245: the engine's own steps bring a fresh `RECV_BLOCKING` whose queue starts with a frame to its end,
one byte a step, with the payload in the view and no decode. That the engine moves when no
other move is pending is log entry 1. -/
def Obligations.BlockingReceiveDelivers : Prop :=
  ∀ (p rest : List Byte) (s : State),
    s.sched = [] → s.busy = true → s.rxMode = .blocking → s.opCur = 0x30 →
    freshReceive s → expired s = false → p.length ≤ 251 → s.rxQueue = frameEncode p ++ rest →
      runSteps (p.length + 5) s = .next { receivedFrame p rest s with
        rxMode := .idle, opRes := .ok, busy := false, opCur := 0 }

/-- R256: one receive step of an armed receive and of the same receive as a `RECV_BLOCKING` store the same
bytes, take the same ones and reach the same result, flags, view and events. -/
def Obligations.StrategiesAgree : Prop :=
  ∀ s t : State, s.rxMode = .armed → s.rxResult = .none → rxStep s = .next t →
    ∃ u, rxStep { s with rxMode := .blocking, busy := true, opCur := 0x30 } = .next u
      ∧ u.rxbuf = t.rxbuf ∧ u.rxQueue = t.rxQueue ∧ u.rxResult = t.rxResult
      ∧ u.rxCnt = t.rxCnt ∧ u.rxExp = t.rxExp ∧ u.rxDecl = t.rxDecl
      ∧ u.rxValid = t.rxValid ∧ u.rxLen = t.rxLen ∧ u.rxCur = t.rxCur
      ∧ u.rxErrBadStart = t.rxErrBadStart ∧ u.rxErrLenOvf = t.rxErrLenOvf ∧ u.diagLog = t.diagLog
      ∧ (u.rxMode = .idle ↔ t.rxResult ≠ .none)

/-! ### Command Dispatcher (44_command_dispatch.md) -/

/-- R336: `DECODE_PAYLOAD` without a view is refused; with one it runs the decode site on the view and
reports its result. `RX_LEN` is in its range (10_state.md R31). -/
def Obligations.DecodePayloadRuns : Prop :=
  (∀ (f1 f2 f3 : Byte) (imm : Word32), decode (.host (hostWord 0x40 f1 f2 f3 imm)) = .ok .decodePayload)
  ∧ ∀ s : State, s.busy = false → s.rxLen.toNat ≤ 251 →
    (s.rxValid = false → exec .decodePayload s = .next { s with errBounds := true, opRes := .bounds })
    ∧ (s.rxValid = true →
      exec .decodePayload s =
        .next { decodeSite s.view s with opRes := (decodeSite s.view s).decRes })

/-- R331: the firmware-version response sets the version from the two bytes behind the identifier; a shorter
payload fails and changes no version. The identifier and the result are the decode site's (R330); that an
inbound wire row is an instruction, and runs that site, is log entry 5. -/
def Obligations.FwVersionDecodes : Prop :=
  ∀ (body : List Byte) (s : State),
    (∀ (maj min : Byte) (more : List Byte), body = maj :: min :: more →
      exec (.commFwVersion (.inbound body)) s = .next { s with
        decId := 0x00, decRes := .ok, fwMajor := maj, fwMinor := min, fwValid := true })
    ∧ (body.length < 2 →
      exec (.commFwVersion (.inbound body)) s = .next { s with
        decId := 0x00, decRes := .decodeFail, diagLog := (s.diag .decodeShort).diagLog })

/-- R323, R333: a selective response archives `LATEST` and then sets each field its mask selects from the
body at that field's own offset, every other field keeping its value; one that is too short fails and
changes no snapshot. Mask bits without a field take no byte (R335). The archive, the big-endian reads and the
sign or zero extension are R332's. The table is R320's (log entry 4); that an inbound wire row is an instruction
is log entry 5. -/
def Obligations.SelectiveResponseDecodes : Prop :=
  ∀ (body : List Byte) (s : State),
    (body.length < 4 →
      exec (.commGetValuesSelective (.inbound body)) s = .next { s with
        decId := 0x32, decRes := .decodeFail, diagLog := (s.diag .decodeShort).diagLog })
    ∧ ∀ (m : Word32) (fields : List Byte), body = enc32 m ++ fields →
      (fields.length < fieldOffset m 18 →
        exec (.commGetValuesSelective (.inbound body)) s = .next { s with
          decId := 0x32, decRes := .decodeFail, diagLog := (s.diag .decodeShort).diagLog })
      ∧ (fieldOffset m 18 ≤ fields.length →
        ∃ t, exec (.commGetValuesSelective (.inbound body)) s = .next t
          ∧ t = { s with
              decId := 0x32, decRes := .ok, prev := s.latest, prevValid := s.latestValid
              latest := t.latest, latestValid := true }
          ∧ ∀ k : Fin 18, t.latest[k] =
              if m.getLsbD k then telemWord k fields (fieldOffset m k) else s.latest[k])

/-- R334: a full response of at least 59 bytes sets all 18 fields, in order and without gaps; a shorter one
fails and changes no snapshot. The archive, the big-endian reads and the sign or zero extension are R332's. The
table is R320's (log entry 4); that an inbound wire row is an instruction is log entry 5. -/
def Obligations.FullResponseDecodes : Prop :=
  ∀ (body : List Byte) (s : State),
    (body.length + 1 < 59 →
      exec (.commGetValues (.inbound body)) s = .next { s with
        decId := 0x04, decRes := .decodeFail, diagLog := (s.diag .decodeShort).diagLog })
    ∧ (59 ≤ body.length + 1 →
      ∃ t, exec (.commGetValues (.inbound body)) s = .next t
        ∧ t = { s with
            decId := 0x04, decRes := .ok, prev := s.latest, prevValid := s.latestValid
            latest := t.latest, latestValid := true }
        ∧ ∀ k : Fin 18, t.latest[k] = telemWord k body (fieldOffset 0xFFFFFFFF k))

/-- 30_encoding.md R122, R330: every identifier but the three of the decoders is unknown, the outbound-only
commands' own among them, and so is the empty payload: a failed decode that changes nothing else. That an inbound wire row is
an instruction is log entry 5. -/
def Obligations.UnknownIdentifiersFail : Prop :=
  ∀ (body : List Byte) (s : State),
    decodeSite [] s
        = { s with decId := 0, decRes := .decodeFail, diagLog := (s.diag .unknownCmd).diagLog }
    ∧ (∀ id : Byte, id ≠ 0x00 → id ≠ 0x04 → id ≠ 0x32 →
      decodeSite (id :: body) s
        = { s with decId := id, decRes := .decodeFail, diagLog := (s.diag .unknownCmd).diagLog })
    ∧ ∀ (i : Instr) (id : Byte),
      (i = .commSetDuty (.inbound body) ∧ id = 0x05) ∨ (i = .commSetCurrent (.inbound body) ∧ id = 0x06)
        ∨ (i = .commSetCurrentBrake (.inbound body) ∧ id = 0x07) ∨ (i = .commSetRpm (.inbound body) ∧ id = 0x08)
        ∨ (i = .commSetPos (.inbound body) ∧ id = 0x09) ∨ (i = .commAlive (.inbound body) ∧ id = 0x1E)
        ∨ (i = .commForwardCan (.inbound body) ∧ id = 0x22)
        ∨ (i = .commSetChuckData (.inbound body) ∧ id = 0x23) →
      exec i s
        = .next { s with decId := id, decRes := .decodeFail, diagLog := (s.diag .unknownCmd).diagLog }

/-- R304 to R308: a setpoint operation builds its identifier and the four bytes of `v`, behind the forward
marker when there is a peer, sends the frame, and ends at once with `SENT`. The identifiers are the
spec's (30_encoding.md R121, log entry 4). -/
def Obligations.SetpointsSend : Prop :=
  (∀ (can f2 f3 : Byte) (v : Word32),
    decode (.host (hostWord 0x53 can f2 f3 v)) = .ok (.setCurrent can v)
    ∧ decode (.host (hostWord 0x54 can f2 f3 v)) = .ok (.setCurrentBrake can v)
    ∧ decode (.host (hostWord 0x55 can f2 f3 v)) = .ok (.setRpm can v)
    ∧ decode (.host (hostWord 0x56 can f2 f3 v)) = .ok (.setPos can v)
    ∧ decode (.host (hostWord 0x57 can f2 f3 v)) = .ok (.setDuty can v))
  ∧ ∀ (can : Byte) (v : Word32) (s : State), s.busy = false →
    let payload (id : Byte) : List Byte :=
      peerPayload can
        [id, v.extractLsb' 24 8, v.extractLsb' 16 8, v.extractLsb' 8 8, v.extractLsb' 0 8]
    (∃ t, exec (.setCurrent can v) s = .next t ∧ RequestSent 0x06 (payload 0x06) s t)
    ∧ (∃ t, exec (.setCurrentBrake can v) s = .next t ∧ RequestSent 0x07 (payload 0x07) s t)
    ∧ (∃ t, exec (.setRpm can v) s = .next t ∧ RequestSent 0x08 (payload 0x08) s t)
    ∧ (∃ t, exec (.setPos can v) s = .next t ∧ RequestSent 0x09 (payload 0x09) s t)
    ∧ (∃ t, exec (.setDuty can v) s = .next t ∧ RequestSent 0x05 (payload 0x05) s t)

/-- R309, R310: `SET_AUX` sends the auxiliary registers as they stand, with `AUX_PAD` zeros behind them;
`SEND_ALIVE` sends its identifier alone. The identifiers and the padding are the spec's own
values (log entry 4). -/
def Obligations.AuxAndAliveSend : Prop :=
  (∀ (can f2 f3 : Byte) (imm : Word32),
    decode (.host (hostWord 0x58 can f2 f3 imm)) = .ok (.setAux can)
    ∧ decode (.host (hostWord 0x59 can f2 f3 imm)) = .ok (.sendAlive can))
  ∧ ∀ (can : Byte) (s : State), s.busy = false →
    (∃ t, exec (.setAux can) s = .next t
      ∧ RequestSent 0x23 (peerPayload can
          ([0x23, s.auxX, s.auxY, if s.auxBtn.getLsbD 0 then 1 else 0, if s.auxBtn.getLsbD 1 then 1 else 0]
            ++ List.replicate 6 0)) s t)
    ∧ (∃ t, exec (.sendAlive can) s = .next t ∧ RequestSent 0x1E (peerPayload can [0x1E]) s t)

/-- R301, R302, R303: a query sends its payload and goes on to a fresh blocking receive under
`CFG_TIMEOUT`, `AWAITING` its response. -/
def Obligations.QueriesAwait : Prop :=
  (∀ (can f2 f3 : Byte) (imm : Word32),
    decode (.host (hostWord 0x50 can f2 f3 imm)) = .ok (.reqFwVersion can)
    ∧ decode (.host (hostWord 0x51 can f2 f3 imm)) = .ok (.reqValues can)
    ∧ decode (.host (hostWord 0x52 can f2 f3 imm)) = .ok (.reqValuesSel can imm))
  ∧ ∀ (can : Byte) (mask : Word32) (s : State) (i : Instr) (sel id : Byte) (args : List Byte), s.busy = false →
    (i = .reqFwVersion can ∧ sel = 0x50 ∧ id = 0x00 ∧ args = [])
      ∨ (i = .reqValues can ∧ sel = 0x51 ∧ id = 0x04 ∧ args = [])
      ∨ (i = .reqValuesSel can mask ∧ sel = 0x52 ∧ id = 0x32
        ∧ args = [mask.extractLsb' 24 8, mask.extractLsb' 16 8, mask.extractLsb' 8 8, mask.extractLsb' 0 8]) →
    ∃ t, exec i s = .next t
      ∧ BuiltAndSent (peerPayload can (id :: args))
          { s with
            opCur := sel, reqCmd := id, reqState := .awaiting, reqResult := .none
            busy := true, rxMode := .blocking, rxResult := .none
            rxCnt := 0, rxExp := 0x0000, rxDecl := 0, rxT0 := s.now, rxTmo := s.cfgTimeout
            rxValid := false, rxLen := 0, rxCur := 0, rxErrBadStart := false, rxErrLenOvf := false } t

/-- R340, R377: a query whose answer is the frame of a payload of at most 251 bytes ends, one byte a step,
with the answer decoded: `DECODE_FAIL` for a failed decode, else `RESP_MISMATCH` for another identifier,
else `OK`. That the engine moves when no other move is pending is log entry 1. -/
def Obligations.QueryCompletes : Prop :=
  ∀ (p rest : List Byte) (s : State) (expected : Byte),
    s.sched = [] → s.busy = true → s.rxMode = .blocking → freshReceive s → expired s = false →
    p.length ≤ 251 → s.rxQueue = frameEncode p ++ rest →
    (s.opCur = 0x50 ∧ expected = 0x00) ∨ (s.opCur = 0x51 ∧ expected = 0x04)
      ∨ (s.opCur = 0x52 ∧ expected = 0x32) →
    let t := decodeSite p { receivedFrame p rest s with rxMode := .idle }
    let res : ResultCode :=
      if t.decRes = .decodeFail then .decodeFail else if t.decId ≠ expected then .respMismatch else .ok
    runSteps (p.length + 5) s =
      .next { t with reqResult := res, reqState := .done, opRes := res, busy := false, opCur := 0 }

/-- R311: `AUX_WRITE` sets the auxiliary registers and nothing else. -/
def Obligations.AuxWriteSets : Prop :=
  (∀ (f1 f2 f3 : Byte) (imm : Word32),
    decode (.host (hostWord 0x60 f1 f2 f3 imm)) = .ok (.auxWrite f1 f2 (f3.getLsbD 0) (f3.getLsbD 1)))
  ∧ ∀ (x y : Byte) (lower upper : Bool) (s : State), s.busy = false →
    ∃ t, exec (.auxWrite x y lower upper) s = .next t
      ∧ t = { s with auxX := x, auxY := y, auxBtn := t.auxBtn, opRes := .ok }
      ∧ t.auxBtn.getLsbD 0 = lower ∧ t.auxBtn.getLsbD 1 = upper ∧ t.auxBtn.extractLsb' 2 6 = 0

/-- R297, on the host's side of the port: each of the five commands has its factor, and its operand is the
host's value times that factor, rounded toward zero; there is none exactly when that integer is outside the
`s32` range (log entry 19). -/
def Obligations.SetpointRoundsTowardZero : Prop :=
  ∀ (factor : Nat) (x : ℚ),
    (∀ v : Word32, setpoint factor x = some v →
      |(v.toInt : ℚ)| ≤ |x * factor| ∧ |x * factor - v.toInt| < 1 ∧ 0 ≤ (v.toInt : ℚ) * (x * factor))
    ∧ (setpoint factor x = none ↔ x * factor ≤ -2 ^ 31 - 1 ∨ 2 ^ 31 ≤ x * factor)
    ∧ ∀ (convert : Byte → ℚ → Option Instr) (command : Byte → Word32 → Instr),
      (convert = setCurrentAmps ∧ command = .setCurrent ∧ factor = 1000)
        ∨ (convert = setCurrentBrakeAmps ∧ command = .setCurrentBrake ∧ factor = 1000)
        ∨ (convert = setRpmReal ∧ command = .setRpm ∧ factor = 1)
        ∨ (convert = setPosReal ∧ command = .setPos ∧ factor = 1)
        ∨ (convert = setDutyFraction ∧ command = .setDuty ∧ factor = 100000) →
      ∀ (can : Byte) (i : Instr),
        convert can x = some i ↔ ∃ v : Word32, setpoint factor x = some v ∧ i = command can v

/-- R350: `CFG_TIMEOUT` sets its register; the timeout of a receive in progress stays. -/
def Obligations.CfgTimeoutSets : Prop :=
  (∀ (f1 f2 f3 : Byte) (imm : Word32), decode (.host (hostWord 0x70 f1 f2 f3 imm)) = .ok (.cfgTimeout imm))
  ∧ ∀ (t : Time) (s : State), s.busy = false →
    exec (.cfgTimeout t) s = .next { s with cfgTimeout := t, opRes := .ok }

/-- R351: `CLR_ERR` clears the four sticky error flags; the two receive flags stay. -/
def Obligations.ClrErrClears : Prop :=
  (∀ (f1 f2 f3 : Byte) (imm : Word32), decode (.host (hostWord 0x71 f1 f2 f3 imm)) = .ok .clrErr)
  ∧ ∀ s : State, s.busy = false →
    exec .clrErr s = .next { s with
      errBusy := false, errBounds := false, errArg := false, errOp := false, opRes := .ok }

/-- R291, R300, R312: the wire row of each command, sent, puts its payload in `TXPAY` and its frame on the TX
port; the forward row puts the marker and the peer id first. That a wire row is an instruction, and that it
runs `Build` and `Send` alone, is log entry 5. -/
def Obligations.CommandRowsEmit : Prop :=
  ∀ (s : State) (v : Word32) (x y : Byte) (lower upper : Bool),
    let be (w : Word32) : List Byte :=
      [w.extractLsb' 24 8, w.extractLsb' 16 8, w.extractLsb' 8 8, w.extractLsb' 0 8]
    (∀ (i : Instr) (p : List Byte),
      (i = .commFwVersion (.outbound ()) ∧ p = [0x00]) ∨ (i = .commGetValues (.outbound ()) ∧ p = [0x04])
        ∨ (i = .commGetValuesSelective (.outbound v) ∧ p = 0x32 :: be v)
        ∨ (i = .commSetDuty (.outbound v) ∧ p = 0x05 :: be v)
        ∨ (i = .commSetCurrent (.outbound v) ∧ p = 0x06 :: be v)
        ∨ (i = .commSetCurrentBrake (.outbound v) ∧ p = 0x07 :: be v)
        ∨ (i = .commSetRpm (.outbound v) ∧ p = 0x08 :: be v)
        ∨ (i = .commSetPos (.outbound v) ∧ p = 0x09 :: be v)
        ∨ (i = .commAlive (.outbound ()) ∧ p = [0x1E])
        ∨ (i = .commSetChuckData (.outbound (x, y, lower, upper))
          ∧ p = [0x23, x, y, if lower then 1 else 0, if upper then 1 else 0, 0, 0, 0, 0, 0, 0]) →
      ∃ t, exec i s = .next t ∧ BuiltAndSent p s t)
    ∧ (∀ (peer : Byte) (c : Command), peer ≠ 0 →
      ∃ t, exec (.commForwardCan (.outbound (peer, c))) s = .next t
        ∧ BuiltAndSent (0x22 :: peer :: c.payload) s t)

/-- R100, R101: the outbound frame rows emit their frame and count and report it; a payload length that the
form cannot carry is refused by name (log entry 18). That a frame row is an instruction, which emits, counts and
reports its frame and writes no `OP_RES`, is log entry 5. -/
def Obligations.FrameRowsEmit : Prop :=
  ∀ (p : List Byte) (s : State),
    let emitted : State := { s with
      txOut := s.txOut ++ frameEncode p
      txCount := BitVec.ofNat 17 (frameEncode p).length
      diagLog := (s.diag .frameSent).diagLog }
    (p.length ≤ 255 → exec (.frameShort (.outbound p)) s = .next emitted)
    ∧ (p.length > 255 → exec (.frameShort (.outbound p)) s = .refused (.noSuchFrame p.length))
    ∧ (256 ≤ p.length → p.length ≤ 65535 → exec (.frameLong (.outbound p)) s = .next emitted)
    ∧ (p.length < 256 ∨ p.length > 65535 →
      exec (.frameLong (.outbound p)) s = .refused (.noSuchFrame p.length))

/-- The inbound frame rows (log entry 5): with no receive in progress the bytes wait in the queue (R93). With one,
whatever it has already taken and whatever is queued, they are taken behind the queue by what `POLL` does when
armed (R251) and by the engine's own steps when blocking (R238). In particular a fresh receive delivers a short
frame (R243), as a query decodes it (R340), and ends at the second byte of a long one (R236). -/
def Obligations.FrameRowsReceive : Prop :=
  ∀ (s : State) (bytes : List Byte),
    let arrived (start : Byte) : State := { s with rxQueue := s.rxQueue ++ start :: bytes }
    (s.rxMode = .idle ∨ s.rxResult ≠ .none →
      exec (.frameShort (.inbound bytes)) s = .next (arrived 0x02)
      ∧ exec (.frameLong (.inbound bytes)) s = .next (arrived 0x03))
    ∧ (s.rxMode = .armed → s.busy = false → s.rxResult = .none →
      exec (.frameShort (.inbound bytes)) s = exec .poll (arrived 0x02)
      ∧ exec (.frameLong (.inbound bytes)) s = exec .poll (arrived 0x03))
    ∧ (s.rxMode = .blocking → s.busy = true → s.rxResult = .none → s.sched = [] →
      exec (.frameShort (.inbound bytes)) s = runSteps (s.rxQueue.length + bytes.length + 1) (arrived 0x02)
      ∧ exec (.frameLong (.inbound bytes)) s = runSteps (s.rxQueue.length + bytes.length + 1) (arrived 0x03))
    ∧ (freshReceive s → expired s = false → s.rxQueue = [] →
      ∀ p : List Byte, p.length ≤ 251 → 0x02 :: bytes = frameEncode p →
        (s.rxMode = .armed →
          let t := decodeSite p (receivedFrame p [] s)
          exec (.frameShort (.inbound bytes)) s = .next { t with opRes := t.decRes })
        ∧ (s.rxMode = .blocking → s.opCur = 0x30 →
          exec (.frameShort (.inbound bytes)) s = .next { receivedFrame p [] s with
            rxMode := .idle, opRes := .ok, busy := false, opCur := 0 })
        ∧ (s.rxMode = .blocking → ∀ expected : Byte, queryExpects s.opCur expected →
          exec (.frameShort (.inbound bytes)) s = .next (queryAnswered expected
            (decodeSite p { receivedFrame p [] s with rxMode := .idle }))))
    ∧ (freshReceive s → expired s = false → s.rxQueue = [] →
      ∀ (b : Byte) (more : List Byte), bytes = b :: more →
        let long : State := { s with
          rxQueue := more, rxbuf := (s.rxbuf.put 0 0x03).put 1 b, rxCnt := 2
          rxResult := .rxLong, opRes := .rxLong, diagLog := (s.diag .longUnsupported).diagLog }
        (s.rxMode = .armed → exec (.frameLong (.inbound bytes)) s = .next long)
        ∧ (s.rxMode = .blocking → s.opCur = 0x30 ∨ s.opCur = 0x50 ∨ s.opCur = 0x51 ∨ s.opCur = 0x52 →
          exec (.frameLong (.inbound bytes)) s = .next (receiveEnded .rxLong long)))

/-! ### Status, reset and the whole machine (10_state.md, 60_exceptions.md, 70_reset_and_hazards.md) -/

/-- 10_state.md R32: each bit of the `STATUS` word is its flag, `RX_MODE` is bits 2:1, bits 31:13 read 0. -/
def Obligations.StatusWordFields : Prop :=
  ∀ s : State,
    let w := readReg s 0x00
    w.getLsbD 0 = s.busy
    ∧ w.extractLsb' 1 2 = (match s.rxMode with | .idle => 0#2 | .blocking => 1#2 | .armed => 2#2)
    ∧ w.getLsbD 3 = s.rxValid ∧ w.getLsbD 4 = s.rxErrBadStart ∧ w.getLsbD 5 = s.rxErrLenOvf
    ∧ w.getLsbD 6 = s.errBusy ∧ w.getLsbD 7 = s.errBounds ∧ w.getLsbD 8 = s.errArg ∧ w.getLsbD 9 = s.errOp
    ∧ w.getLsbD 10 = s.latestValid ∧ w.getLsbD 11 = s.prevValid ∧ w.getLsbD 12 = s.fwValid
    ∧ w.extractLsb' 13 19 = 0

/-- 70_reset_and_hazards.md R410: after the reset input every register reads its reset value, the engine is
`READY`, and no byte of either buffer has a value. -/
def Obligations.ResetValues : Prop :=
  ∀ s : State,
    ∃ t, agentMove .reset s = .next t
      ∧ (∀ n, readReg t n =
          if n = 0x02 then 100 else if n = 0x09 then 1 else if n = 0x18 ∨ n = 0x19 then 127 else 0)
      ∧ t.eng = .ready
      ∧ ∀ a, t.rxbuf.get a = none ∧ t.txpay.get a = none

/-- 70_reset_and_hazards.md R412: reset leaves the RX queue, the TX output, the clock and the event log. -/
def Obligations.ResetKeepsEnvironment : Prop :=
  ∀ s : State,
    ∃ t, agentMove .reset s = .next t
      ∧ t.rxQueue = s.rxQueue ∧ t.txOut = s.txOut ∧ t.now = s.now ∧ t.diagLog = s.diagLog
      ∧ t.diagPresent = s.diagPresent

/-- A step that starts outside a receive in progress and is no reset leaves `RXBUF`, all of it (20_memory.md
R82, 43_receiver.md R244). The moves are those of log entry 1. -/
def Obligations.RxbufOnlyByReceiver : Prop :=
  ∀ s t : State, receiving s = false → s.sched.head? ≠ some .reset → step s = .next t → t.rxbuf = s.rxbuf

/-- 10_state.md R38: no step but `AUX_WRITE` and reset changes the auxiliary input state. The moves are
those of log entry 1. -/
def Obligations.AuxOnlyByAuxWrite : Prop :=
  ∀ s t : State, s.sched.head? ≠ some .reset → (∀ w, s.sched.head? = some (.op w) → wordSel w ≠ 0x60) →
    step s = .next t → t.auxX = s.auxX ∧ t.auxY = s.auxY ∧ t.auxBtn = s.auxBtn

/-- 20_memory.md R82: no step changes `TXPAY` but an `APPEND_*`, a command of the builder, and reset. The
moves are those of log entry 1. -/
def Obligations.TxpayOnlyByAppendAndBuild : Prop :=
  ∀ s t : State, s.sched.head? ≠ some .reset →
    (∀ w, s.sched.head? = some (.op w) →
      wordSel w ∉ [0x11, 0x12, 0x13, 0x14, 0x50, 0x51, 0x52, 0x53, 0x54, 0x55, 0x56, 0x57, 0x58, 0x59]) →
    step s = .next t → t.txpay = s.txpay

/-- 20_memory.md R93, R94: the ports are first in, first out. A step takes bytes only from the front of the RX
queue, where only the RX source's move adds any, and only adds bytes behind those already sent. 00_scope.md R18,
60_exceptions.md R383: no step changes the clock but its own tick, which advances it modulo 2^32 and changes
nothing else. The moves are those of log entry 1. -/
def Obligations.PortsAndClockMove : Prop :=
  ∀ s t : State, step s = .next t →
    (∃ taken, t.rxQueue = s.rxQueue.drop taken
        ++ (match s.sched.head? with | some (.rx b) => [b] | _ => []))
    ∧ (∃ sent, t.txOut = s.txOut ++ sent)
    ∧ t.now = s.now + (match s.sched.head? with | some (.tick ms) => ms | _ => 0)
    ∧ ∀ (ms : Time) (rest : List Event), s.sched = .tick ms :: rest →
      t = { s with sched := rest, now := BitVec.ofNat 32 (s.now.toNat + ms.toNat) }

/-- The invariant holds after reset. -/
def Obligations.ResetMeetsInvariant : Prop :=
  State.reset.Inv

/-- Every step keeps the invariant: register ranges and reserved bits, the result codes, the sequencing
state, the assembly of a frame, and the payload view that is a verified frame (10_state.md R31 to R35,
43_receiver.md R231 to R244). A step is a move of log entry 1. -/
def Obligations.StepKeepsInvariant : Prop :=
  ∀ s t : State, s.Inv → step s = .next t → t.Inv

/-- Under the invariant no step faults or is refused: every failure of the engine is a result code or a flag,
never a stop (60_exceptions.md R378). The faults are log entry 9's. -/
def Obligations.StepNeverStops : Prop :=
  ∀ s : State, s.Inv → safeStep s

/-- 60_exceptions.md R381: no rule reads the event log. From a state with any other log, and with or without a
sink, a step does the same but for the log: its events are appended with a sink and discarded without. -/
def Obligations.DiagDoesNotInterfere : Prop :=
  ∀ (s t : State) (log : List DiagEvent) (present : Bool), step s = .next t →
    ∃ events : List DiagEvent,
      t.diagLog = (if s.diagPresent then s.diagLog ++ events else s.diagLog)
      ∧ step { s with diagLog := log, diagPresent := present }
        = .next { t with diagLog := if present then log ++ events else log, diagPresent := present }

/-- The host read port in every state (10_state.md R31, 20_memory.md R82; `STATUS` is StatusWordFields'): each
number reads the register of its row of R31, zero-extended, result codes as R370 numbers them, both snapshot
banks field by field, and 0 at a number that R31 does not list. A buffer offset that exists reads a byte, the
one written there if there is one, and no other offset does. That the port is these two functions is log
entry 21. -/
def Obligations.ReadPortValues : Prop :=
  ∀ s : State,
    let code (r : ResultCode) : Nat :=
      match r with
      | .none => 0x00 | .ok => 0x01 | .timeout => 0x02 | .crcFail => 0x03 | .rxOverflow => 0x04
      | .rxLong => 0x05 | .decodeFail => 0x06 | .respMismatch => 0x07 | .notArmed => 0x08 | .bounds => 0x09
      | .badArg => 0x0A | .format => 0x0B | .sent => 0x0C | .badOp => 0x0D
    let reqState : Nat := match s.reqState with | .idle => 0 | .encodedSent => 1 | .awaiting => 2 | .done => 3
    (∀ row ∈ ([(0x01, code s.opRes), (0x02, s.cfgTimeout.toNat), (0x03, s.crcRes.toNat), (0x04, s.txCur.toNat),
        (0x05, s.txCount.toNat), (0x06, s.rxCur.toNat), (0x07, s.rxLen.toNat), (0x08, s.getRes.toNat),
        (0x09, s.getScale.toNat), (0x0A, s.rxCnt.toNat), (0x0B, s.rxExp.toNat), (0x0C, s.rxDecl.toNat),
        (0x0D, s.rxT0.toNat), (0x0E, s.rxTmo.toNat), (0x0F, s.rxHint.toNat), (0x10, code s.rxResult),
        (0x11, reqState), (0x12, code s.reqResult), (0x13, s.reqCmd.toNat), (0x14, s.decId.toNat),
        (0x15, code s.decRes), (0x16, s.fwMajor.toNat), (0x17, s.fwMinor.toNat), (0x18, s.auxX.toNat),
        (0x19, s.auxY.toNat), (0x1A, s.auxBtn.toNat), (0x1B, s.opCur.toNat)] : List (Nat × Nat)),
      (readReg s row.1).toNat = row.2)
    ∧ (∀ k : Fin 18, readReg s (0x20 + k) = s.latest[k] ∧ readReg s (0x40 + k) = s.prev[k])
    ∧ (∀ n : Nat, (0x1C ≤ n ∧ n ≤ 0x1F) ∨ (0x32 ≤ n ∧ n ≤ 0x3F) ∨ 0x52 ≤ n → readReg s n = 0)
    ∧ ∀ a draw : Nat,
      (∀ b : Byte, a < 256 → s.rxbuf.get a = some b → readBuf s .rxbuf a draw = some b)
      ∧ (∀ b : Byte, a < 512 → s.txpay.get a = some b → readBuf s .txpay a draw = some b)
      ∧ ((readBuf s .rxbuf a draw).isSome = true ↔ a < 256)
      ∧ ((readBuf s .txpay a draw).isSome = true ↔ a < 512)

end
end

