-- ==== Sys2Proof/Laws/HostWord.lean ====
section
/-! SUPPORT. The fields of a host operation word that was put together from its fields (30_encoding.md R111,
R112). -/

namespace Sys2Proof.Machine

/-- Bit `i` of an assembled word, by the field it lies in. -/
theorem getLsbD_hostWord (sel f1 f2 f3 : Byte) (imm : Word32) (i : Nat) :
    (hostWord sel f1 f2 f3 imm).getLsbD i =
      if i < 8 then sel.getLsbD i
      else if i < 16 then f1.getLsbD (i - 8)
      else if i < 24 then f2.getLsbD (i - 16)
      else if i < 32 then f3.getLsbD (i - 24)
      else imm.getLsbD (i - 32) := by
  rw [hostWord, BitVec.getLsbD_append, BitVec.getLsbD_append, BitVec.getLsbD_append, BitVec.getLsbD_append]
  by_cases h1 : i < 8
  · simp [h1, show i < 16 by omega, show i < 24 by omega, show i < 32 by omega]
  by_cases h2 : i < 16
  · simp [h1, h2, show i < 24 by omega, show i < 32 by omega, show i - 8 < 8 by omega]
  by_cases h3 : i < 24
  · simp [h1, h2, h3, show i < 32 by omega]
  by_cases h4 : i < 32
  · simp [h1, h2, h3, h4]
  · simp [h1, h2, h3, h4]

@[simp] theorem wordSel_hostWord (sel f1 f2 f3 : Byte) (imm : Word32) :
    wordSel (hostWord sel f1 f2 f3 imm) = sel := by
  apply BitVec.eq_of_getLsbD_eq
  intro i hi
  rw [wordSel, BitVec.getLsbD_extractLsb', getLsbD_hostWord]
  simp [hi]

@[simp] theorem wordF1_hostWord (sel f1 f2 f3 : Byte) (imm : Word32) :
    wordF1 (hostWord sel f1 f2 f3 imm) = f1 := by
  apply BitVec.eq_of_getLsbD_eq
  intro i hi
  rw [wordF1, BitVec.getLsbD_extractLsb', getLsbD_hostWord]
  simp [hi, show 8 + i < 16 by omega]

@[simp] theorem wordF2_hostWord (sel f1 f2 f3 : Byte) (imm : Word32) :
    wordF2 (hostWord sel f1 f2 f3 imm) = f2 := by
  apply BitVec.eq_of_getLsbD_eq
  intro i hi
  rw [wordF2, BitVec.getLsbD_extractLsb', getLsbD_hostWord]
  simp [hi, show ¬ 16 + i < 8 by omega, show 16 + i < 24 by omega]

@[simp] theorem wordF3_hostWord (sel f1 f2 f3 : Byte) (imm : Word32) :
    wordF3 (hostWord sel f1 f2 f3 imm) = f3 := by
  apply BitVec.eq_of_getLsbD_eq
  intro i hi
  rw [wordF3, BitVec.getLsbD_extractLsb', getLsbD_hostWord]
  simp [hi, show ¬ 24 + i < 8 by omega, show ¬ 24 + i < 16 by omega, show 24 + i < 32 by omega]

@[simp] theorem wordImm_hostWord (sel f1 f2 f3 : Byte) (imm : Word32) :
    wordImm (hostWord sel f1 f2 f3 imm) = imm := by
  apply BitVec.eq_of_getLsbD_eq
  intro i hi
  rw [wordImm, BitVec.getLsbD_extractLsb', getLsbD_hostWord]
  simp [hi, show ¬ 32 + i < 8 by omega, show ¬ 32 + i < 16 by omega, show ¬ 32 + i < 24 by omega]

@[simp] theorem immHi_append (high low : BitVec 16) : immHi (high ++ low) = high := by
  apply BitVec.eq_of_getLsbD_eq
  intro i hi
  rw [immHi, BitVec.getLsbD_extractLsb']
  refine (congrArg _ (BitVec.getLsbD_append (x := high) (y := low))).trans ?_
  simp [hi]

@[simp] theorem immLo_append (high low : BitVec 16) : immLo (high ++ low) = low := by
  apply BitVec.eq_of_getLsbD_eq
  intro i hi
  rw [immLo, BitVec.getLsbD_extractLsb']
  refine (congrArg _ (BitVec.getLsbD_append (x := high) (y := low))).trans ?_
  simp [hi]

end Sys2Proof.Machine
end

