-- ==== Sys2Proof/Laws/Memory.lean ====
section
/-! SUPPORT. The laws of the buffers: a read after a write, writes that leave other bytes alone, and the
canonical form, which every write keeps and which makes equal contents equal data. -/

namespace Sys2Proof.Machine

@[simp] theorem Memory.get_nil (a : Nat) : Memory.get [] a = none := rfl

theorem Memory.get_cons (c : Host.Cell) (m : Memory) (a : Nat) :
    Memory.get (c :: m) a = if a = c.1 then some c.2 else Memory.get m a := rfl

theorem Memory.get_put (m : Memory) (a a' : Nat) (b : Byte) :
    (m.put a b).get a' = if a' = a then some b else m.get a' := by
  induction m with
  | nil => simp [Memory.put, Memory.get_cons]
  | cons c m ih =>
    obtain ⟨x, y⟩ := c
    have step : Memory.get (Memory.put ((x, y) :: m) a b) a' =
        if a' = a then some b else if a' = x then some y else Memory.get m a' := by
      rcases lt_trichotomy a x with h | h | h
      · rw [Memory.put, if_pos h]; simp only [Memory.get_cons]
      · subst h; rw [Memory.put, if_neg (lt_irrefl _), if_pos rfl, Memory.get_cons]
        by_cases e : a' = a <;> simp [e]
      · rw [Memory.put, if_neg (by omega), if_neg (by omega), Memory.get_cons, ih]
        by_cases e : a' = x
        · subst e; simp [show a' ≠ a by omega]
        · simp [e]
    rw [step, Memory.get_cons]

@[simp] theorem Memory.get_put_same (m : Memory) (a : Nat) (b : Byte) : (m.put a b).get a = some b := by
  simp [Memory.get_put]

theorem Memory.get_put_other (m : Memory) {a a' : Nat} (b : Byte) (h : a' ≠ a) :
    (m.put a b).get a' = m.get a' := by
  simp [Memory.get_put, h]

@[simp] theorem Memory.putAll_nil (m : Memory) (a : Nat) : m.putAll a [] = m := rfl

@[simp] theorem Memory.putAll_cons (m : Memory) (a : Nat) (b : Byte) (bs : List Byte) :
    m.putAll a (b :: bs) = (m.put a b).putAll (a + 1) bs := rfl

/-- What `putAll` stores, byte by byte, and what it leaves alone (20_memory.md R85). -/
theorem Memory.get_putAll (m : Memory) (a : Nat) (bs : List Byte) (a' : Nat) :
    (m.putAll a bs).get a' = if a ≤ a' ∧ a' < a + bs.length then bs[a' - a]? else m.get a' := by
  induction bs generalizing m a with
  | nil => simp
  | cons b bs ih =>
    rw [Memory.putAll_cons, ih, Memory.get_put]
    by_cases h : a' = a
    · subst h; simp
    · by_cases h2 : a ≤ a' ∧ a' < a + (b :: bs).length
      · have h3 : a + 1 ≤ a' ∧ a' < a + 1 + bs.length := by rw [List.length_cons] at h2; omega
        rw [if_pos h3, if_pos h2]
        obtain ⟨k, rfl⟩ : ∃ k, a' = a + 1 + k := ⟨a' - (a + 1), by omega⟩
        have e1 : a + 1 + k - a = k + 1 := by omega
        have e2 : a + 1 + k - (a + 1) = k := by omega
        simp [e1, e2]
      · have h3 : ¬(a + 1 ≤ a' ∧ a' < a + 1 + bs.length) := by rw [List.length_cons] at h2; omega
        rw [if_neg h3, if_neg h2, if_neg h]

theorem Memory.get_putAll_outside (m : Memory) (a : Nat) (bs : List Byte) {a' : Nat}
    (h : a' < a ∨ a + bs.length ≤ a') : (m.putAll a bs).get a' = m.get a' := by
  rw [Memory.get_putAll, if_neg (by omega)]

theorem Memory.mem_put {m : Memory} {a : Nat} {b : Byte} {c : Host.Cell} (h : c ∈ m.put a b) :
    c = (a, b) ∨ c ∈ m := by
  induction m with
  | nil => simpa [Memory.put] using h
  | cons d m ih =>
    obtain ⟨x, y⟩ := d
    unfold Memory.put at h
    split_ifs at h with h1 h2
    · simpa using h
    · rcases List.mem_cons.1 h with h | h
      · exact .inl h
      · exact .inr (List.mem_cons_of_mem _ h)
    · rcases List.mem_cons.1 h with h | h
      · exact .inr (h ▸ List.mem_cons_self)
      · exact (ih h).imp_right (List.mem_cons_of_mem _)

/-- A write keeps the canonical form. -/
theorem Memory.wf_put {m : Memory} (h : m.wf) (a : Nat) (b : Byte) : (m.put a b).wf := by
  induction m with
  | nil => simp [Memory.put]
  | cons d m ih =>
    obtain ⟨x, y⟩ := d
    have hx := List.pairwise_cons.1 h
    unfold Memory.put
    split_ifs with h1 h2
    · refine List.pairwise_cons.2 ⟨fun c hc => ?_, h⟩
      rcases List.mem_cons.1 hc with rfl | hc
      · exact h1
      · exact lt_trans h1 (hx.1 c hc)
    · subst h2
      exact List.pairwise_cons.2 ⟨hx.1, hx.2⟩
    · refine List.pairwise_cons.2 ⟨fun c hc => ?_, ih hx.2⟩
      rcases Memory.mem_put hc with rfl | hc
      · show x < a; omega
      · exact hx.1 c hc

theorem Memory.wf_putAll {m : Memory} (h : m.wf) (a : Nat) (bs : List Byte) : (m.putAll a bs).wf := by
  induction bs generalizing m a with
  | nil => exact h
  | cons b bs ih => exact ih (Memory.wf_put h a b) (a + 1)

theorem Memory.Sound.put {m : Memory} {size : Nat} (h : m.Sound size) {a : Nat} (ha : a < size) (b : Byte) :
    (m.put a b).Sound size :=
  ⟨Memory.wf_put h.wf a b, fun c hc => by
    rcases Memory.mem_put hc with rfl | hc
    · exact ha
    · exact h.inside c hc⟩

theorem Memory.Sound.putAll {m : Memory} {size : Nat} (h : m.Sound size) {a : Nat} {bs : List Byte}
    (ha : a + bs.length ≤ size) : (m.putAll a bs).Sound size := by
  induction bs generalizing m a with
  | nil => exact h
  | cons b bs ih =>
    simp only [List.length_cons] at ha
    exact ih (h.put (by omega) b) (by omega)

theorem Memory.Sound.nil (size : Nat) : Memory.Sound [] size := ⟨List.Pairwise.nil, by simp⟩

theorem Memory.get_eq_none {m : Memory} {a : Nat} (h : ∀ c ∈ m, a < c.1) : m.get a = none := by
  induction m with
  | nil => rfl
  | cons d m ih =>
    rw [Memory.get_cons, if_neg (by have := h d List.mem_cons_self; omega)]
    exact ih fun c hc => h c (List.mem_cons_of_mem _ hc)

/-- In canonical form, memories that read alike are equal data. -/
theorem Memory.ext_get {m m' : Memory} (h : m.wf) (h' : m'.wf) (e : ∀ a, m.get a = m'.get a) : m = m' := by
  induction m generalizing m' with
  | nil =>
    cases m' with
    | nil => rfl
    | cons d m' => have := e d.1; simp [Memory.get_cons] at this
  | cons c m ih =>
    cases m' with
    | nil => have := e c.1; simp [Memory.get_cons] at this
    | cons d m' =>
      have hc := List.pairwise_cons.1 h
      have hd := List.pairwise_cons.1 h'
      have key : c.1 = d.1 := by
        rcases lt_trichotomy c.1 d.1 with hlt | heq | hgt
        · have := e c.1
          rw [Memory.get_cons, if_pos rfl, Memory.get_cons, if_neg (by omega),
            Memory.get_eq_none fun x hx => lt_trans hlt (hd.1 x hx)] at this
          cases this
        · exact heq
        · have := e d.1
          rw [Memory.get_cons, if_neg (by omega), Memory.get_cons, if_pos rfl,
            Memory.get_eq_none fun x hx => lt_trans hgt (hc.1 x hx)] at this
          cases this
      have val : c.2 = d.2 := by
        have := e c.1
        rw [Memory.get_cons, if_pos rfl, Memory.get_cons, if_pos key] at this
        exact Option.some.inj this
      have rest : m = m' := ih hc.2 hd.2 fun a => by
        by_cases ha : a = c.1
        · subst ha
          rw [Memory.get_eq_none hc.1, Memory.get_eq_none fun x hx => key ▸ hd.1 x hx]
        · have := e a
          rwa [Memory.get_cons, if_neg ha, Memory.get_cons, if_neg (by omega)] at this
      rw [rest, Prod.ext key val]

/-! ### Reads of a range -/

@[simp] theorem length_readRange (get : Nat → Byte) (a n : Nat) : (readRange get a n).length = n := by
  simp [readRange]

theorem getElem_readRange (get : Nat → Byte) (a n i : Nat) (h : i < (readRange get a n).length) :
    (readRange get a n)[i] = get (a + i) := by
  simp [readRange]

/-- A range that agrees with a list byte by byte reads as that list. -/
theorem readRange_eq {get : Nat → Byte} {a : Nat} {bs : List Byte}
    (h : ∀ i (hi : i < bs.length), get (a + i) = bs[i]) : readRange get a bs.length = bs :=
  List.ext_getElem (by simp) fun i h1 h2 => by rw [getElem_readRange]; exact h i h2

theorem readRange_congr {get get' : Nat → Byte} {a n : Nat} (h : ∀ i < n, get (a + i) = get' (a + i)) :
    readRange get a n = readRange get' a n := by
  simp only [readRange]
  exact List.map_congr_left fun i hi => h i (List.mem_range.1 hi)

/-- A written byte reads as it was written, whatever the free values are. -/
theorem State.byteAt_of_get {s : State} {buf : Buffer} {a : Nat} {b : Byte} (h : (s.mem buf).get a = some b) :
    s.byteAt buf a = b := by
  simp [State.byteAt, h]

end Sys2Proof.Machine
end

