-- ==== Sys2Proof/Laws/State.lean ====
section
/-! SUPPORT. One lemma per field for each named update of the state, so that no later proof unfolds a record
update. An update that writes a field says what it writes; every other field stays. -/

namespace Sys2Proof.Machine

variable (s : State)

/-! ### `State.withRes` -/

@[simp] theorem State.withRes_busy (rc : ResultCode) : (s.withRes rc).busy = s.busy := rfl
@[simp] theorem State.withRes_rxMode (rc : ResultCode) : (s.withRes rc).rxMode = s.rxMode := rfl
@[simp] theorem State.withRes_rxValid (rc : ResultCode) : (s.withRes rc).rxValid = s.rxValid := rfl
@[simp] theorem State.withRes_rxErrBadStart (rc : ResultCode) : (s.withRes rc).rxErrBadStart = s.rxErrBadStart := rfl
@[simp] theorem State.withRes_rxErrLenOvf (rc : ResultCode) : (s.withRes rc).rxErrLenOvf = s.rxErrLenOvf := rfl
@[simp] theorem State.withRes_errBusy (rc : ResultCode) : (s.withRes rc).errBusy = s.errBusy := rfl
@[simp] theorem State.withRes_errBounds (rc : ResultCode) : (s.withRes rc).errBounds = s.errBounds := rfl
@[simp] theorem State.withRes_errArg (rc : ResultCode) : (s.withRes rc).errArg = s.errArg := rfl
@[simp] theorem State.withRes_errOp (rc : ResultCode) : (s.withRes rc).errOp = s.errOp := rfl
@[simp] theorem State.withRes_latestValid (rc : ResultCode) : (s.withRes rc).latestValid = s.latestValid := rfl
@[simp] theorem State.withRes_prevValid (rc : ResultCode) : (s.withRes rc).prevValid = s.prevValid := rfl
@[simp] theorem State.withRes_fwValid (rc : ResultCode) : (s.withRes rc).fwValid = s.fwValid := rfl
@[simp] theorem State.withRes_opRes (rc : ResultCode) : (s.withRes rc).opRes = rc := rfl
@[simp] theorem State.withRes_cfgTimeout (rc : ResultCode) : (s.withRes rc).cfgTimeout = s.cfgTimeout := rfl
@[simp] theorem State.withRes_crcRes (rc : ResultCode) : (s.withRes rc).crcRes = s.crcRes := rfl
@[simp] theorem State.withRes_txCur (rc : ResultCode) : (s.withRes rc).txCur = s.txCur := rfl
@[simp] theorem State.withRes_txCount (rc : ResultCode) : (s.withRes rc).txCount = s.txCount := rfl
@[simp] theorem State.withRes_rxCur (rc : ResultCode) : (s.withRes rc).rxCur = s.rxCur := rfl
@[simp] theorem State.withRes_rxLen (rc : ResultCode) : (s.withRes rc).rxLen = s.rxLen := rfl
@[simp] theorem State.withRes_getRes (rc : ResultCode) : (s.withRes rc).getRes = s.getRes := rfl
@[simp] theorem State.withRes_getScale (rc : ResultCode) : (s.withRes rc).getScale = s.getScale := rfl
@[simp] theorem State.withRes_rxCnt (rc : ResultCode) : (s.withRes rc).rxCnt = s.rxCnt := rfl
@[simp] theorem State.withRes_rxExp (rc : ResultCode) : (s.withRes rc).rxExp = s.rxExp := rfl
@[simp] theorem State.withRes_rxDecl (rc : ResultCode) : (s.withRes rc).rxDecl = s.rxDecl := rfl
@[simp] theorem State.withRes_rxT0 (rc : ResultCode) : (s.withRes rc).rxT0 = s.rxT0 := rfl
@[simp] theorem State.withRes_rxTmo (rc : ResultCode) : (s.withRes rc).rxTmo = s.rxTmo := rfl
@[simp] theorem State.withRes_rxHint (rc : ResultCode) : (s.withRes rc).rxHint = s.rxHint := rfl
@[simp] theorem State.withRes_rxResult (rc : ResultCode) : (s.withRes rc).rxResult = s.rxResult := rfl
@[simp] theorem State.withRes_reqState (rc : ResultCode) : (s.withRes rc).reqState = s.reqState := rfl
@[simp] theorem State.withRes_reqResult (rc : ResultCode) : (s.withRes rc).reqResult = s.reqResult := rfl
@[simp] theorem State.withRes_reqCmd (rc : ResultCode) : (s.withRes rc).reqCmd = s.reqCmd := rfl
@[simp] theorem State.withRes_decId (rc : ResultCode) : (s.withRes rc).decId = s.decId := rfl
@[simp] theorem State.withRes_decRes (rc : ResultCode) : (s.withRes rc).decRes = s.decRes := rfl
@[simp] theorem State.withRes_fwMajor (rc : ResultCode) : (s.withRes rc).fwMajor = s.fwMajor := rfl
@[simp] theorem State.withRes_fwMinor (rc : ResultCode) : (s.withRes rc).fwMinor = s.fwMinor := rfl
@[simp] theorem State.withRes_auxX (rc : ResultCode) : (s.withRes rc).auxX = s.auxX := rfl
@[simp] theorem State.withRes_auxY (rc : ResultCode) : (s.withRes rc).auxY = s.auxY := rfl
@[simp] theorem State.withRes_auxBtn (rc : ResultCode) : (s.withRes rc).auxBtn = s.auxBtn := rfl
@[simp] theorem State.withRes_opCur (rc : ResultCode) : (s.withRes rc).opCur = s.opCur := rfl
@[simp] theorem State.withRes_latest (rc : ResultCode) : (s.withRes rc).latest = s.latest := rfl
@[simp] theorem State.withRes_prev (rc : ResultCode) : (s.withRes rc).prev = s.prev := rfl
@[simp] theorem State.withRes_rxbuf (rc : ResultCode) : (s.withRes rc).rxbuf = s.rxbuf := rfl
@[simp] theorem State.withRes_txpay (rc : ResultCode) : (s.withRes rc).txpay = s.txpay := rfl
@[simp] theorem State.withRes_rxQueue (rc : ResultCode) : (s.withRes rc).rxQueue = s.rxQueue := rfl
@[simp] theorem State.withRes_txOut (rc : ResultCode) : (s.withRes rc).txOut = s.txOut := rfl
@[simp] theorem State.withRes_now (rc : ResultCode) : (s.withRes rc).now = s.now := rfl
@[simp] theorem State.withRes_diagLog (rc : ResultCode) : (s.withRes rc).diagLog = s.diagLog := rfl
@[simp] theorem State.withRes_diagPresent (rc : ResultCode) : (s.withRes rc).diagPresent = s.diagPresent := rfl
@[simp] theorem State.withRes_sched (rc : ResultCode) : (s.withRes rc).sched = s.sched := rfl
@[simp] theorem State.withRes_draws (rc : ResultCode) : (s.withRes rc).draws = s.draws := rfl

/-! ### `State.drawn` -/

@[simp] theorem State.drawn_busy : (s.drawn).busy = s.busy := rfl
@[simp] theorem State.drawn_rxMode : (s.drawn).rxMode = s.rxMode := rfl
@[simp] theorem State.drawn_rxValid : (s.drawn).rxValid = s.rxValid := rfl
@[simp] theorem State.drawn_rxErrBadStart : (s.drawn).rxErrBadStart = s.rxErrBadStart := rfl
@[simp] theorem State.drawn_rxErrLenOvf : (s.drawn).rxErrLenOvf = s.rxErrLenOvf := rfl
@[simp] theorem State.drawn_errBusy : (s.drawn).errBusy = s.errBusy := rfl
@[simp] theorem State.drawn_errBounds : (s.drawn).errBounds = s.errBounds := rfl
@[simp] theorem State.drawn_errArg : (s.drawn).errArg = s.errArg := rfl
@[simp] theorem State.drawn_errOp : (s.drawn).errOp = s.errOp := rfl
@[simp] theorem State.drawn_latestValid : (s.drawn).latestValid = s.latestValid := rfl
@[simp] theorem State.drawn_prevValid : (s.drawn).prevValid = s.prevValid := rfl
@[simp] theorem State.drawn_fwValid : (s.drawn).fwValid = s.fwValid := rfl
@[simp] theorem State.drawn_opRes : (s.drawn).opRes = s.opRes := rfl
@[simp] theorem State.drawn_cfgTimeout : (s.drawn).cfgTimeout = s.cfgTimeout := rfl
@[simp] theorem State.drawn_crcRes : (s.drawn).crcRes = s.crcRes := rfl
@[simp] theorem State.drawn_txCur : (s.drawn).txCur = s.txCur := rfl
@[simp] theorem State.drawn_txCount : (s.drawn).txCount = s.txCount := rfl
@[simp] theorem State.drawn_rxCur : (s.drawn).rxCur = s.rxCur := rfl
@[simp] theorem State.drawn_rxLen : (s.drawn).rxLen = s.rxLen := rfl
@[simp] theorem State.drawn_getRes : (s.drawn).getRes = s.getRes := rfl
@[simp] theorem State.drawn_getScale : (s.drawn).getScale = s.getScale := rfl
@[simp] theorem State.drawn_rxCnt : (s.drawn).rxCnt = s.rxCnt := rfl
@[simp] theorem State.drawn_rxExp : (s.drawn).rxExp = s.rxExp := rfl
@[simp] theorem State.drawn_rxDecl : (s.drawn).rxDecl = s.rxDecl := rfl
@[simp] theorem State.drawn_rxT0 : (s.drawn).rxT0 = s.rxT0 := rfl
@[simp] theorem State.drawn_rxTmo : (s.drawn).rxTmo = s.rxTmo := rfl
@[simp] theorem State.drawn_rxHint : (s.drawn).rxHint = s.rxHint := rfl
@[simp] theorem State.drawn_rxResult : (s.drawn).rxResult = s.rxResult := rfl
@[simp] theorem State.drawn_reqState : (s.drawn).reqState = s.reqState := rfl
@[simp] theorem State.drawn_reqResult : (s.drawn).reqResult = s.reqResult := rfl
@[simp] theorem State.drawn_reqCmd : (s.drawn).reqCmd = s.reqCmd := rfl
@[simp] theorem State.drawn_decId : (s.drawn).decId = s.decId := rfl
@[simp] theorem State.drawn_decRes : (s.drawn).decRes = s.decRes := rfl
@[simp] theorem State.drawn_fwMajor : (s.drawn).fwMajor = s.fwMajor := rfl
@[simp] theorem State.drawn_fwMinor : (s.drawn).fwMinor = s.fwMinor := rfl
@[simp] theorem State.drawn_auxX : (s.drawn).auxX = s.auxX := rfl
@[simp] theorem State.drawn_auxY : (s.drawn).auxY = s.auxY := rfl
@[simp] theorem State.drawn_auxBtn : (s.drawn).auxBtn = s.auxBtn := rfl
@[simp] theorem State.drawn_opCur : (s.drawn).opCur = s.opCur := rfl
@[simp] theorem State.drawn_latest : (s.drawn).latest = s.latest := rfl
@[simp] theorem State.drawn_prev : (s.drawn).prev = s.prev := rfl
@[simp] theorem State.drawn_rxbuf : (s.drawn).rxbuf = s.rxbuf := rfl
@[simp] theorem State.drawn_txpay : (s.drawn).txpay = s.txpay := rfl
@[simp] theorem State.drawn_rxQueue : (s.drawn).rxQueue = s.rxQueue := rfl
@[simp] theorem State.drawn_txOut : (s.drawn).txOut = s.txOut := rfl
@[simp] theorem State.drawn_now : (s.drawn).now = s.now := rfl
@[simp] theorem State.drawn_diagLog : (s.drawn).diagLog = s.diagLog := rfl
@[simp] theorem State.drawn_diagPresent : (s.drawn).diagPresent = s.diagPresent := rfl
@[simp] theorem State.drawn_sched : (s.drawn).sched = s.sched := rfl
@[simp] theorem State.drawn_draws : (s.drawn).draws = s.draws + 1 := rfl

/-! ### `State.diag` -/

@[simp] theorem State.diag_busy (ev : DiagEvent) : (s.diag ev).busy = s.busy := rfl
@[simp] theorem State.diag_rxMode (ev : DiagEvent) : (s.diag ev).rxMode = s.rxMode := rfl
@[simp] theorem State.diag_rxValid (ev : DiagEvent) : (s.diag ev).rxValid = s.rxValid := rfl
@[simp] theorem State.diag_rxErrBadStart (ev : DiagEvent) : (s.diag ev).rxErrBadStart = s.rxErrBadStart := rfl
@[simp] theorem State.diag_rxErrLenOvf (ev : DiagEvent) : (s.diag ev).rxErrLenOvf = s.rxErrLenOvf := rfl
@[simp] theorem State.diag_errBusy (ev : DiagEvent) : (s.diag ev).errBusy = s.errBusy := rfl
@[simp] theorem State.diag_errBounds (ev : DiagEvent) : (s.diag ev).errBounds = s.errBounds := rfl
@[simp] theorem State.diag_errArg (ev : DiagEvent) : (s.diag ev).errArg = s.errArg := rfl
@[simp] theorem State.diag_errOp (ev : DiagEvent) : (s.diag ev).errOp = s.errOp := rfl
@[simp] theorem State.diag_latestValid (ev : DiagEvent) : (s.diag ev).latestValid = s.latestValid := rfl
@[simp] theorem State.diag_prevValid (ev : DiagEvent) : (s.diag ev).prevValid = s.prevValid := rfl
@[simp] theorem State.diag_fwValid (ev : DiagEvent) : (s.diag ev).fwValid = s.fwValid := rfl
@[simp] theorem State.diag_opRes (ev : DiagEvent) : (s.diag ev).opRes = s.opRes := rfl
@[simp] theorem State.diag_cfgTimeout (ev : DiagEvent) : (s.diag ev).cfgTimeout = s.cfgTimeout := rfl
@[simp] theorem State.diag_crcRes (ev : DiagEvent) : (s.diag ev).crcRes = s.crcRes := rfl
@[simp] theorem State.diag_txCur (ev : DiagEvent) : (s.diag ev).txCur = s.txCur := rfl
@[simp] theorem State.diag_txCount (ev : DiagEvent) : (s.diag ev).txCount = s.txCount := rfl
@[simp] theorem State.diag_rxCur (ev : DiagEvent) : (s.diag ev).rxCur = s.rxCur := rfl
@[simp] theorem State.diag_rxLen (ev : DiagEvent) : (s.diag ev).rxLen = s.rxLen := rfl
@[simp] theorem State.diag_getRes (ev : DiagEvent) : (s.diag ev).getRes = s.getRes := rfl
@[simp] theorem State.diag_getScale (ev : DiagEvent) : (s.diag ev).getScale = s.getScale := rfl
@[simp] theorem State.diag_rxCnt (ev : DiagEvent) : (s.diag ev).rxCnt = s.rxCnt := rfl
@[simp] theorem State.diag_rxExp (ev : DiagEvent) : (s.diag ev).rxExp = s.rxExp := rfl
@[simp] theorem State.diag_rxDecl (ev : DiagEvent) : (s.diag ev).rxDecl = s.rxDecl := rfl
@[simp] theorem State.diag_rxT0 (ev : DiagEvent) : (s.diag ev).rxT0 = s.rxT0 := rfl
@[simp] theorem State.diag_rxTmo (ev : DiagEvent) : (s.diag ev).rxTmo = s.rxTmo := rfl
@[simp] theorem State.diag_rxHint (ev : DiagEvent) : (s.diag ev).rxHint = s.rxHint := rfl
@[simp] theorem State.diag_rxResult (ev : DiagEvent) : (s.diag ev).rxResult = s.rxResult := rfl
@[simp] theorem State.diag_reqState (ev : DiagEvent) : (s.diag ev).reqState = s.reqState := rfl
@[simp] theorem State.diag_reqResult (ev : DiagEvent) : (s.diag ev).reqResult = s.reqResult := rfl
@[simp] theorem State.diag_reqCmd (ev : DiagEvent) : (s.diag ev).reqCmd = s.reqCmd := rfl
@[simp] theorem State.diag_decId (ev : DiagEvent) : (s.diag ev).decId = s.decId := rfl
@[simp] theorem State.diag_decRes (ev : DiagEvent) : (s.diag ev).decRes = s.decRes := rfl
@[simp] theorem State.diag_fwMajor (ev : DiagEvent) : (s.diag ev).fwMajor = s.fwMajor := rfl
@[simp] theorem State.diag_fwMinor (ev : DiagEvent) : (s.diag ev).fwMinor = s.fwMinor := rfl
@[simp] theorem State.diag_auxX (ev : DiagEvent) : (s.diag ev).auxX = s.auxX := rfl
@[simp] theorem State.diag_auxY (ev : DiagEvent) : (s.diag ev).auxY = s.auxY := rfl
@[simp] theorem State.diag_auxBtn (ev : DiagEvent) : (s.diag ev).auxBtn = s.auxBtn := rfl
@[simp] theorem State.diag_opCur (ev : DiagEvent) : (s.diag ev).opCur = s.opCur := rfl
@[simp] theorem State.diag_latest (ev : DiagEvent) : (s.diag ev).latest = s.latest := rfl
@[simp] theorem State.diag_prev (ev : DiagEvent) : (s.diag ev).prev = s.prev := rfl
@[simp] theorem State.diag_rxbuf (ev : DiagEvent) : (s.diag ev).rxbuf = s.rxbuf := rfl
@[simp] theorem State.diag_txpay (ev : DiagEvent) : (s.diag ev).txpay = s.txpay := rfl
@[simp] theorem State.diag_rxQueue (ev : DiagEvent) : (s.diag ev).rxQueue = s.rxQueue := rfl
@[simp] theorem State.diag_txOut (ev : DiagEvent) : (s.diag ev).txOut = s.txOut := rfl
@[simp] theorem State.diag_now (ev : DiagEvent) : (s.diag ev).now = s.now := rfl
@[simp] theorem State.diag_diagLog (ev : DiagEvent) : (s.diag ev).diagLog = if s.diagPresent then s.diagLog ++ [ev] else s.diagLog := rfl
@[simp] theorem State.diag_diagPresent (ev : DiagEvent) : (s.diag ev).diagPresent = s.diagPresent := rfl
@[simp] theorem State.diag_sched (ev : DiagEvent) : (s.diag ev).sched = s.sched := rfl
@[simp] theorem State.diag_draws (ev : DiagEvent) : (s.diag ev).draws = s.draws := rfl

/-! ### `State.push` -/

@[simp] theorem State.push_busy (bs : List Byte) : (s.push bs).busy = s.busy := rfl
@[simp] theorem State.push_rxMode (bs : List Byte) : (s.push bs).rxMode = s.rxMode := rfl
@[simp] theorem State.push_rxValid (bs : List Byte) : (s.push bs).rxValid = s.rxValid := rfl
@[simp] theorem State.push_rxErrBadStart (bs : List Byte) : (s.push bs).rxErrBadStart = s.rxErrBadStart := rfl
@[simp] theorem State.push_rxErrLenOvf (bs : List Byte) : (s.push bs).rxErrLenOvf = s.rxErrLenOvf := rfl
@[simp] theorem State.push_errBusy (bs : List Byte) : (s.push bs).errBusy = s.errBusy := rfl
@[simp] theorem State.push_errBounds (bs : List Byte) : (s.push bs).errBounds = s.errBounds := rfl
@[simp] theorem State.push_errArg (bs : List Byte) : (s.push bs).errArg = s.errArg := rfl
@[simp] theorem State.push_errOp (bs : List Byte) : (s.push bs).errOp = s.errOp := rfl
@[simp] theorem State.push_latestValid (bs : List Byte) : (s.push bs).latestValid = s.latestValid := rfl
@[simp] theorem State.push_prevValid (bs : List Byte) : (s.push bs).prevValid = s.prevValid := rfl
@[simp] theorem State.push_fwValid (bs : List Byte) : (s.push bs).fwValid = s.fwValid := rfl
@[simp] theorem State.push_opRes (bs : List Byte) : (s.push bs).opRes = s.opRes := rfl
@[simp] theorem State.push_cfgTimeout (bs : List Byte) : (s.push bs).cfgTimeout = s.cfgTimeout := rfl
@[simp] theorem State.push_crcRes (bs : List Byte) : (s.push bs).crcRes = s.crcRes := rfl
@[simp] theorem State.push_txCur (bs : List Byte) : (s.push bs).txCur = s.txCur := rfl
@[simp] theorem State.push_txCount (bs : List Byte) : (s.push bs).txCount = s.txCount := rfl
@[simp] theorem State.push_rxCur (bs : List Byte) : (s.push bs).rxCur = s.rxCur := rfl
@[simp] theorem State.push_rxLen (bs : List Byte) : (s.push bs).rxLen = s.rxLen := rfl
@[simp] theorem State.push_getRes (bs : List Byte) : (s.push bs).getRes = s.getRes := rfl
@[simp] theorem State.push_getScale (bs : List Byte) : (s.push bs).getScale = s.getScale := rfl
@[simp] theorem State.push_rxCnt (bs : List Byte) : (s.push bs).rxCnt = s.rxCnt := rfl
@[simp] theorem State.push_rxExp (bs : List Byte) : (s.push bs).rxExp = s.rxExp := rfl
@[simp] theorem State.push_rxDecl (bs : List Byte) : (s.push bs).rxDecl = s.rxDecl := rfl
@[simp] theorem State.push_rxT0 (bs : List Byte) : (s.push bs).rxT0 = s.rxT0 := rfl
@[simp] theorem State.push_rxTmo (bs : List Byte) : (s.push bs).rxTmo = s.rxTmo := rfl
@[simp] theorem State.push_rxHint (bs : List Byte) : (s.push bs).rxHint = s.rxHint := rfl
@[simp] theorem State.push_rxResult (bs : List Byte) : (s.push bs).rxResult = s.rxResult := rfl
@[simp] theorem State.push_reqState (bs : List Byte) : (s.push bs).reqState = s.reqState := rfl
@[simp] theorem State.push_reqResult (bs : List Byte) : (s.push bs).reqResult = s.reqResult := rfl
@[simp] theorem State.push_reqCmd (bs : List Byte) : (s.push bs).reqCmd = s.reqCmd := rfl
@[simp] theorem State.push_decId (bs : List Byte) : (s.push bs).decId = s.decId := rfl
@[simp] theorem State.push_decRes (bs : List Byte) : (s.push bs).decRes = s.decRes := rfl
@[simp] theorem State.push_fwMajor (bs : List Byte) : (s.push bs).fwMajor = s.fwMajor := rfl
@[simp] theorem State.push_fwMinor (bs : List Byte) : (s.push bs).fwMinor = s.fwMinor := rfl
@[simp] theorem State.push_auxX (bs : List Byte) : (s.push bs).auxX = s.auxX := rfl
@[simp] theorem State.push_auxY (bs : List Byte) : (s.push bs).auxY = s.auxY := rfl
@[simp] theorem State.push_auxBtn (bs : List Byte) : (s.push bs).auxBtn = s.auxBtn := rfl
@[simp] theorem State.push_opCur (bs : List Byte) : (s.push bs).opCur = s.opCur := rfl
@[simp] theorem State.push_latest (bs : List Byte) : (s.push bs).latest = s.latest := rfl
@[simp] theorem State.push_prev (bs : List Byte) : (s.push bs).prev = s.prev := rfl
@[simp] theorem State.push_rxbuf (bs : List Byte) : (s.push bs).rxbuf = s.rxbuf := rfl
@[simp] theorem State.push_txpay (bs : List Byte) : (s.push bs).txpay = s.txpay := rfl
@[simp] theorem State.push_rxQueue (bs : List Byte) : (s.push bs).rxQueue = s.rxQueue := rfl
@[simp] theorem State.push_txOut (bs : List Byte) : (s.push bs).txOut = s.txOut ++ bs := rfl
@[simp] theorem State.push_now (bs : List Byte) : (s.push bs).now = s.now := rfl
@[simp] theorem State.push_diagLog (bs : List Byte) : (s.push bs).diagLog = s.diagLog := rfl
@[simp] theorem State.push_diagPresent (bs : List Byte) : (s.push bs).diagPresent = s.diagPresent := rfl
@[simp] theorem State.push_sched (bs : List Byte) : (s.push bs).sched = s.sched := rfl
@[simp] theorem State.push_draws (bs : List Byte) : (s.push bs).draws = s.draws := rfl

/-! ### `State.arrive` -/

@[simp] theorem State.arrive_busy (bs : List Byte) : (s.arrive bs).busy = s.busy := rfl
@[simp] theorem State.arrive_rxMode (bs : List Byte) : (s.arrive bs).rxMode = s.rxMode := rfl
@[simp] theorem State.arrive_rxValid (bs : List Byte) : (s.arrive bs).rxValid = s.rxValid := rfl
@[simp] theorem State.arrive_rxErrBadStart (bs : List Byte) : (s.arrive bs).rxErrBadStart = s.rxErrBadStart := rfl
@[simp] theorem State.arrive_rxErrLenOvf (bs : List Byte) : (s.arrive bs).rxErrLenOvf = s.rxErrLenOvf := rfl
@[simp] theorem State.arrive_errBusy (bs : List Byte) : (s.arrive bs).errBusy = s.errBusy := rfl
@[simp] theorem State.arrive_errBounds (bs : List Byte) : (s.arrive bs).errBounds = s.errBounds := rfl
@[simp] theorem State.arrive_errArg (bs : List Byte) : (s.arrive bs).errArg = s.errArg := rfl
@[simp] theorem State.arrive_errOp (bs : List Byte) : (s.arrive bs).errOp = s.errOp := rfl
@[simp] theorem State.arrive_latestValid (bs : List Byte) : (s.arrive bs).latestValid = s.latestValid := rfl
@[simp] theorem State.arrive_prevValid (bs : List Byte) : (s.arrive bs).prevValid = s.prevValid := rfl
@[simp] theorem State.arrive_fwValid (bs : List Byte) : (s.arrive bs).fwValid = s.fwValid := rfl
@[simp] theorem State.arrive_opRes (bs : List Byte) : (s.arrive bs).opRes = s.opRes := rfl
@[simp] theorem State.arrive_cfgTimeout (bs : List Byte) : (s.arrive bs).cfgTimeout = s.cfgTimeout := rfl
@[simp] theorem State.arrive_crcRes (bs : List Byte) : (s.arrive bs).crcRes = s.crcRes := rfl
@[simp] theorem State.arrive_txCur (bs : List Byte) : (s.arrive bs).txCur = s.txCur := rfl
@[simp] theorem State.arrive_txCount (bs : List Byte) : (s.arrive bs).txCount = s.txCount := rfl
@[simp] theorem State.arrive_rxCur (bs : List Byte) : (s.arrive bs).rxCur = s.rxCur := rfl
@[simp] theorem State.arrive_rxLen (bs : List Byte) : (s.arrive bs).rxLen = s.rxLen := rfl
@[simp] theorem State.arrive_getRes (bs : List Byte) : (s.arrive bs).getRes = s.getRes := rfl
@[simp] theorem State.arrive_getScale (bs : List Byte) : (s.arrive bs).getScale = s.getScale := rfl
@[simp] theorem State.arrive_rxCnt (bs : List Byte) : (s.arrive bs).rxCnt = s.rxCnt := rfl
@[simp] theorem State.arrive_rxExp (bs : List Byte) : (s.arrive bs).rxExp = s.rxExp := rfl
@[simp] theorem State.arrive_rxDecl (bs : List Byte) : (s.arrive bs).rxDecl = s.rxDecl := rfl
@[simp] theorem State.arrive_rxT0 (bs : List Byte) : (s.arrive bs).rxT0 = s.rxT0 := rfl
@[simp] theorem State.arrive_rxTmo (bs : List Byte) : (s.arrive bs).rxTmo = s.rxTmo := rfl
@[simp] theorem State.arrive_rxHint (bs : List Byte) : (s.arrive bs).rxHint = s.rxHint := rfl
@[simp] theorem State.arrive_rxResult (bs : List Byte) : (s.arrive bs).rxResult = s.rxResult := rfl
@[simp] theorem State.arrive_reqState (bs : List Byte) : (s.arrive bs).reqState = s.reqState := rfl
@[simp] theorem State.arrive_reqResult (bs : List Byte) : (s.arrive bs).reqResult = s.reqResult := rfl
@[simp] theorem State.arrive_reqCmd (bs : List Byte) : (s.arrive bs).reqCmd = s.reqCmd := rfl
@[simp] theorem State.arrive_decId (bs : List Byte) : (s.arrive bs).decId = s.decId := rfl
@[simp] theorem State.arrive_decRes (bs : List Byte) : (s.arrive bs).decRes = s.decRes := rfl
@[simp] theorem State.arrive_fwMajor (bs : List Byte) : (s.arrive bs).fwMajor = s.fwMajor := rfl
@[simp] theorem State.arrive_fwMinor (bs : List Byte) : (s.arrive bs).fwMinor = s.fwMinor := rfl
@[simp] theorem State.arrive_auxX (bs : List Byte) : (s.arrive bs).auxX = s.auxX := rfl
@[simp] theorem State.arrive_auxY (bs : List Byte) : (s.arrive bs).auxY = s.auxY := rfl
@[simp] theorem State.arrive_auxBtn (bs : List Byte) : (s.arrive bs).auxBtn = s.auxBtn := rfl
@[simp] theorem State.arrive_opCur (bs : List Byte) : (s.arrive bs).opCur = s.opCur := rfl
@[simp] theorem State.arrive_latest (bs : List Byte) : (s.arrive bs).latest = s.latest := rfl
@[simp] theorem State.arrive_prev (bs : List Byte) : (s.arrive bs).prev = s.prev := rfl
@[simp] theorem State.arrive_rxbuf (bs : List Byte) : (s.arrive bs).rxbuf = s.rxbuf := rfl
@[simp] theorem State.arrive_txpay (bs : List Byte) : (s.arrive bs).txpay = s.txpay := rfl
@[simp] theorem State.arrive_rxQueue (bs : List Byte) : (s.arrive bs).rxQueue = s.rxQueue ++ bs := rfl
@[simp] theorem State.arrive_txOut (bs : List Byte) : (s.arrive bs).txOut = s.txOut := rfl
@[simp] theorem State.arrive_now (bs : List Byte) : (s.arrive bs).now = s.now := rfl
@[simp] theorem State.arrive_diagLog (bs : List Byte) : (s.arrive bs).diagLog = s.diagLog := rfl
@[simp] theorem State.arrive_diagPresent (bs : List Byte) : (s.arrive bs).diagPresent = s.diagPresent := rfl
@[simp] theorem State.arrive_sched (bs : List Byte) : (s.arrive bs).sched = s.sched := rfl
@[simp] theorem State.arrive_draws (bs : List Byte) : (s.arrive bs).draws = s.draws := rfl

/-! ### `State.raise` -/

@[simp] theorem State.raise_busy (e : ErrFlag) : (s.raise e).busy = s.busy := by cases e <;> rfl
@[simp] theorem State.raise_rxMode (e : ErrFlag) : (s.raise e).rxMode = s.rxMode := by cases e <;> rfl
@[simp] theorem State.raise_rxValid (e : ErrFlag) : (s.raise e).rxValid = s.rxValid := by cases e <;> rfl
@[simp] theorem State.raise_rxErrBadStart (e : ErrFlag) : (s.raise e).rxErrBadStart = s.rxErrBadStart := by cases e <;> rfl
@[simp] theorem State.raise_rxErrLenOvf (e : ErrFlag) : (s.raise e).rxErrLenOvf = s.rxErrLenOvf := by cases e <;> rfl
@[simp] theorem State.raise_errBusy (e : ErrFlag) : (s.raise e).errBusy = s.errBusy := by cases e <;> rfl
@[simp] theorem State.raise_latestValid (e : ErrFlag) : (s.raise e).latestValid = s.latestValid := by cases e <;> rfl
@[simp] theorem State.raise_prevValid (e : ErrFlag) : (s.raise e).prevValid = s.prevValid := by cases e <;> rfl
@[simp] theorem State.raise_fwValid (e : ErrFlag) : (s.raise e).fwValid = s.fwValid := by cases e <;> rfl
@[simp] theorem State.raise_cfgTimeout (e : ErrFlag) : (s.raise e).cfgTimeout = s.cfgTimeout := by cases e <;> rfl
@[simp] theorem State.raise_crcRes (e : ErrFlag) : (s.raise e).crcRes = s.crcRes := by cases e <;> rfl
@[simp] theorem State.raise_txCur (e : ErrFlag) : (s.raise e).txCur = s.txCur := by cases e <;> rfl
@[simp] theorem State.raise_txCount (e : ErrFlag) : (s.raise e).txCount = s.txCount := by cases e <;> rfl
@[simp] theorem State.raise_rxCur (e : ErrFlag) : (s.raise e).rxCur = s.rxCur := by cases e <;> rfl
@[simp] theorem State.raise_rxLen (e : ErrFlag) : (s.raise e).rxLen = s.rxLen := by cases e <;> rfl
@[simp] theorem State.raise_getRes (e : ErrFlag) : (s.raise e).getRes = s.getRes := by cases e <;> rfl
@[simp] theorem State.raise_getScale (e : ErrFlag) : (s.raise e).getScale = s.getScale := by cases e <;> rfl
@[simp] theorem State.raise_rxCnt (e : ErrFlag) : (s.raise e).rxCnt = s.rxCnt := by cases e <;> rfl
@[simp] theorem State.raise_rxExp (e : ErrFlag) : (s.raise e).rxExp = s.rxExp := by cases e <;> rfl
@[simp] theorem State.raise_rxDecl (e : ErrFlag) : (s.raise e).rxDecl = s.rxDecl := by cases e <;> rfl
@[simp] theorem State.raise_rxT0 (e : ErrFlag) : (s.raise e).rxT0 = s.rxT0 := by cases e <;> rfl
@[simp] theorem State.raise_rxTmo (e : ErrFlag) : (s.raise e).rxTmo = s.rxTmo := by cases e <;> rfl
@[simp] theorem State.raise_rxHint (e : ErrFlag) : (s.raise e).rxHint = s.rxHint := by cases e <;> rfl
@[simp] theorem State.raise_rxResult (e : ErrFlag) : (s.raise e).rxResult = s.rxResult := by cases e <;> rfl
@[simp] theorem State.raise_reqState (e : ErrFlag) : (s.raise e).reqState = s.reqState := by cases e <;> rfl
@[simp] theorem State.raise_reqResult (e : ErrFlag) : (s.raise e).reqResult = s.reqResult := by cases e <;> rfl
@[simp] theorem State.raise_reqCmd (e : ErrFlag) : (s.raise e).reqCmd = s.reqCmd := by cases e <;> rfl
@[simp] theorem State.raise_decId (e : ErrFlag) : (s.raise e).decId = s.decId := by cases e <;> rfl
@[simp] theorem State.raise_decRes (e : ErrFlag) : (s.raise e).decRes = s.decRes := by cases e <;> rfl
@[simp] theorem State.raise_fwMajor (e : ErrFlag) : (s.raise e).fwMajor = s.fwMajor := by cases e <;> rfl
@[simp] theorem State.raise_fwMinor (e : ErrFlag) : (s.raise e).fwMinor = s.fwMinor := by cases e <;> rfl
@[simp] theorem State.raise_auxX (e : ErrFlag) : (s.raise e).auxX = s.auxX := by cases e <;> rfl
@[simp] theorem State.raise_auxY (e : ErrFlag) : (s.raise e).auxY = s.auxY := by cases e <;> rfl
@[simp] theorem State.raise_auxBtn (e : ErrFlag) : (s.raise e).auxBtn = s.auxBtn := by cases e <;> rfl
@[simp] theorem State.raise_opCur (e : ErrFlag) : (s.raise e).opCur = s.opCur := by cases e <;> rfl
@[simp] theorem State.raise_latest (e : ErrFlag) : (s.raise e).latest = s.latest := by cases e <;> rfl
@[simp] theorem State.raise_prev (e : ErrFlag) : (s.raise e).prev = s.prev := by cases e <;> rfl
@[simp] theorem State.raise_rxbuf (e : ErrFlag) : (s.raise e).rxbuf = s.rxbuf := by cases e <;> rfl
@[simp] theorem State.raise_txpay (e : ErrFlag) : (s.raise e).txpay = s.txpay := by cases e <;> rfl
@[simp] theorem State.raise_rxQueue (e : ErrFlag) : (s.raise e).rxQueue = s.rxQueue := by cases e <;> rfl
@[simp] theorem State.raise_txOut (e : ErrFlag) : (s.raise e).txOut = s.txOut := by cases e <;> rfl
@[simp] theorem State.raise_now (e : ErrFlag) : (s.raise e).now = s.now := by cases e <;> rfl
@[simp] theorem State.raise_diagLog (e : ErrFlag) : (s.raise e).diagLog = s.diagLog := by cases e <;> rfl
@[simp] theorem State.raise_diagPresent (e : ErrFlag) : (s.raise e).diagPresent = s.diagPresent := by cases e <;> rfl
@[simp] theorem State.raise_sched (e : ErrFlag) : (s.raise e).sched = s.sched := by cases e <;> rfl
@[simp] theorem State.raise_draws (e : ErrFlag) : (s.raise e).draws = s.draws := by cases e <;> rfl

/-! ### `State.clearErrors` -/

@[simp] theorem State.clearErrors_busy : (s.clearErrors).busy = s.busy := rfl
@[simp] theorem State.clearErrors_rxMode : (s.clearErrors).rxMode = s.rxMode := rfl
@[simp] theorem State.clearErrors_rxValid : (s.clearErrors).rxValid = s.rxValid := rfl
@[simp] theorem State.clearErrors_rxErrBadStart : (s.clearErrors).rxErrBadStart = s.rxErrBadStart := rfl
@[simp] theorem State.clearErrors_rxErrLenOvf : (s.clearErrors).rxErrLenOvf = s.rxErrLenOvf := rfl
@[simp] theorem State.clearErrors_errBusy : (s.clearErrors).errBusy = false := rfl
@[simp] theorem State.clearErrors_errBounds : (s.clearErrors).errBounds = false := rfl
@[simp] theorem State.clearErrors_errArg : (s.clearErrors).errArg = false := rfl
@[simp] theorem State.clearErrors_errOp : (s.clearErrors).errOp = false := rfl
@[simp] theorem State.clearErrors_latestValid : (s.clearErrors).latestValid = s.latestValid := rfl
@[simp] theorem State.clearErrors_prevValid : (s.clearErrors).prevValid = s.prevValid := rfl
@[simp] theorem State.clearErrors_fwValid : (s.clearErrors).fwValid = s.fwValid := rfl
@[simp] theorem State.clearErrors_opRes : (s.clearErrors).opRes = s.opRes := rfl
@[simp] theorem State.clearErrors_cfgTimeout : (s.clearErrors).cfgTimeout = s.cfgTimeout := rfl
@[simp] theorem State.clearErrors_crcRes : (s.clearErrors).crcRes = s.crcRes := rfl
@[simp] theorem State.clearErrors_txCur : (s.clearErrors).txCur = s.txCur := rfl
@[simp] theorem State.clearErrors_txCount : (s.clearErrors).txCount = s.txCount := rfl
@[simp] theorem State.clearErrors_rxCur : (s.clearErrors).rxCur = s.rxCur := rfl
@[simp] theorem State.clearErrors_rxLen : (s.clearErrors).rxLen = s.rxLen := rfl
@[simp] theorem State.clearErrors_getRes : (s.clearErrors).getRes = s.getRes := rfl
@[simp] theorem State.clearErrors_getScale : (s.clearErrors).getScale = s.getScale := rfl
@[simp] theorem State.clearErrors_rxCnt : (s.clearErrors).rxCnt = s.rxCnt := rfl
@[simp] theorem State.clearErrors_rxExp : (s.clearErrors).rxExp = s.rxExp := rfl
@[simp] theorem State.clearErrors_rxDecl : (s.clearErrors).rxDecl = s.rxDecl := rfl
@[simp] theorem State.clearErrors_rxT0 : (s.clearErrors).rxT0 = s.rxT0 := rfl
@[simp] theorem State.clearErrors_rxTmo : (s.clearErrors).rxTmo = s.rxTmo := rfl
@[simp] theorem State.clearErrors_rxHint : (s.clearErrors).rxHint = s.rxHint := rfl
@[simp] theorem State.clearErrors_rxResult : (s.clearErrors).rxResult = s.rxResult := rfl
@[simp] theorem State.clearErrors_reqState : (s.clearErrors).reqState = s.reqState := rfl
@[simp] theorem State.clearErrors_reqResult : (s.clearErrors).reqResult = s.reqResult := rfl
@[simp] theorem State.clearErrors_reqCmd : (s.clearErrors).reqCmd = s.reqCmd := rfl
@[simp] theorem State.clearErrors_decId : (s.clearErrors).decId = s.decId := rfl
@[simp] theorem State.clearErrors_decRes : (s.clearErrors).decRes = s.decRes := rfl
@[simp] theorem State.clearErrors_fwMajor : (s.clearErrors).fwMajor = s.fwMajor := rfl
@[simp] theorem State.clearErrors_fwMinor : (s.clearErrors).fwMinor = s.fwMinor := rfl
@[simp] theorem State.clearErrors_auxX : (s.clearErrors).auxX = s.auxX := rfl
@[simp] theorem State.clearErrors_auxY : (s.clearErrors).auxY = s.auxY := rfl
@[simp] theorem State.clearErrors_auxBtn : (s.clearErrors).auxBtn = s.auxBtn := rfl
@[simp] theorem State.clearErrors_opCur : (s.clearErrors).opCur = s.opCur := rfl
@[simp] theorem State.clearErrors_latest : (s.clearErrors).latest = s.latest := rfl
@[simp] theorem State.clearErrors_prev : (s.clearErrors).prev = s.prev := rfl
@[simp] theorem State.clearErrors_rxbuf : (s.clearErrors).rxbuf = s.rxbuf := rfl
@[simp] theorem State.clearErrors_txpay : (s.clearErrors).txpay = s.txpay := rfl
@[simp] theorem State.clearErrors_rxQueue : (s.clearErrors).rxQueue = s.rxQueue := rfl
@[simp] theorem State.clearErrors_txOut : (s.clearErrors).txOut = s.txOut := rfl
@[simp] theorem State.clearErrors_now : (s.clearErrors).now = s.now := rfl
@[simp] theorem State.clearErrors_diagLog : (s.clearErrors).diagLog = s.diagLog := rfl
@[simp] theorem State.clearErrors_diagPresent : (s.clearErrors).diagPresent = s.diagPresent := rfl
@[simp] theorem State.clearErrors_sched : (s.clearErrors).sched = s.sched := rfl
@[simp] theorem State.clearErrors_draws : (s.clearErrors).draws = s.draws := rfl

/-! ### `emitFrame` -/

@[simp] theorem emitFrame_busy (f : List Byte) : (emitFrame f s).busy = s.busy := rfl
@[simp] theorem emitFrame_rxMode (f : List Byte) : (emitFrame f s).rxMode = s.rxMode := rfl
@[simp] theorem emitFrame_rxValid (f : List Byte) : (emitFrame f s).rxValid = s.rxValid := rfl
@[simp] theorem emitFrame_rxErrBadStart (f : List Byte) : (emitFrame f s).rxErrBadStart = s.rxErrBadStart := rfl
@[simp] theorem emitFrame_rxErrLenOvf (f : List Byte) : (emitFrame f s).rxErrLenOvf = s.rxErrLenOvf := rfl
@[simp] theorem emitFrame_errBusy (f : List Byte) : (emitFrame f s).errBusy = s.errBusy := rfl
@[simp] theorem emitFrame_errBounds (f : List Byte) : (emitFrame f s).errBounds = s.errBounds := rfl
@[simp] theorem emitFrame_errArg (f : List Byte) : (emitFrame f s).errArg = s.errArg := rfl
@[simp] theorem emitFrame_errOp (f : List Byte) : (emitFrame f s).errOp = s.errOp := rfl
@[simp] theorem emitFrame_latestValid (f : List Byte) : (emitFrame f s).latestValid = s.latestValid := rfl
@[simp] theorem emitFrame_prevValid (f : List Byte) : (emitFrame f s).prevValid = s.prevValid := rfl
@[simp] theorem emitFrame_fwValid (f : List Byte) : (emitFrame f s).fwValid = s.fwValid := rfl
@[simp] theorem emitFrame_opRes (f : List Byte) : (emitFrame f s).opRes = s.opRes := rfl
@[simp] theorem emitFrame_cfgTimeout (f : List Byte) : (emitFrame f s).cfgTimeout = s.cfgTimeout := rfl
@[simp] theorem emitFrame_crcRes (f : List Byte) : (emitFrame f s).crcRes = s.crcRes := rfl
@[simp] theorem emitFrame_txCur (f : List Byte) : (emitFrame f s).txCur = s.txCur := rfl
@[simp] theorem emitFrame_txCount (f : List Byte) : (emitFrame f s).txCount = BitVec.ofNat 17 f.length := rfl
@[simp] theorem emitFrame_rxCur (f : List Byte) : (emitFrame f s).rxCur = s.rxCur := rfl
@[simp] theorem emitFrame_rxLen (f : List Byte) : (emitFrame f s).rxLen = s.rxLen := rfl
@[simp] theorem emitFrame_getRes (f : List Byte) : (emitFrame f s).getRes = s.getRes := rfl
@[simp] theorem emitFrame_getScale (f : List Byte) : (emitFrame f s).getScale = s.getScale := rfl
@[simp] theorem emitFrame_rxCnt (f : List Byte) : (emitFrame f s).rxCnt = s.rxCnt := rfl
@[simp] theorem emitFrame_rxExp (f : List Byte) : (emitFrame f s).rxExp = s.rxExp := rfl
@[simp] theorem emitFrame_rxDecl (f : List Byte) : (emitFrame f s).rxDecl = s.rxDecl := rfl
@[simp] theorem emitFrame_rxT0 (f : List Byte) : (emitFrame f s).rxT0 = s.rxT0 := rfl
@[simp] theorem emitFrame_rxTmo (f : List Byte) : (emitFrame f s).rxTmo = s.rxTmo := rfl
@[simp] theorem emitFrame_rxHint (f : List Byte) : (emitFrame f s).rxHint = s.rxHint := rfl
@[simp] theorem emitFrame_rxResult (f : List Byte) : (emitFrame f s).rxResult = s.rxResult := rfl
@[simp] theorem emitFrame_reqState (f : List Byte) : (emitFrame f s).reqState = s.reqState := rfl
@[simp] theorem emitFrame_reqResult (f : List Byte) : (emitFrame f s).reqResult = s.reqResult := rfl
@[simp] theorem emitFrame_reqCmd (f : List Byte) : (emitFrame f s).reqCmd = s.reqCmd := rfl
@[simp] theorem emitFrame_decId (f : List Byte) : (emitFrame f s).decId = s.decId := rfl
@[simp] theorem emitFrame_decRes (f : List Byte) : (emitFrame f s).decRes = s.decRes := rfl
@[simp] theorem emitFrame_fwMajor (f : List Byte) : (emitFrame f s).fwMajor = s.fwMajor := rfl
@[simp] theorem emitFrame_fwMinor (f : List Byte) : (emitFrame f s).fwMinor = s.fwMinor := rfl
@[simp] theorem emitFrame_auxX (f : List Byte) : (emitFrame f s).auxX = s.auxX := rfl
@[simp] theorem emitFrame_auxY (f : List Byte) : (emitFrame f s).auxY = s.auxY := rfl
@[simp] theorem emitFrame_auxBtn (f : List Byte) : (emitFrame f s).auxBtn = s.auxBtn := rfl
@[simp] theorem emitFrame_opCur (f : List Byte) : (emitFrame f s).opCur = s.opCur := rfl
@[simp] theorem emitFrame_latest (f : List Byte) : (emitFrame f s).latest = s.latest := rfl
@[simp] theorem emitFrame_prev (f : List Byte) : (emitFrame f s).prev = s.prev := rfl
@[simp] theorem emitFrame_rxbuf (f : List Byte) : (emitFrame f s).rxbuf = s.rxbuf := rfl
@[simp] theorem emitFrame_txpay (f : List Byte) : (emitFrame f s).txpay = s.txpay := rfl
@[simp] theorem emitFrame_rxQueue (f : List Byte) : (emitFrame f s).rxQueue = s.rxQueue := rfl
@[simp] theorem emitFrame_txOut (f : List Byte) : (emitFrame f s).txOut = s.txOut ++ f := rfl
@[simp] theorem emitFrame_now (f : List Byte) : (emitFrame f s).now = s.now := rfl
@[simp] theorem emitFrame_diagLog (f : List Byte) : (emitFrame f s).diagLog = if s.diagPresent then s.diagLog ++ [.frameSent] else s.diagLog := rfl
@[simp] theorem emitFrame_diagPresent (f : List Byte) : (emitFrame f s).diagPresent = s.diagPresent := rfl
@[simp] theorem emitFrame_sched (f : List Byte) : (emitFrame f s).sched = s.sched := rfl
@[simp] theorem emitFrame_draws (f : List Byte) : (emitFrame f s).draws = s.draws := rfl

/-! ### `build` -/

@[simp] theorem build_busy (c : Command) (can : Byte) : (build c can s).busy = s.busy := rfl
@[simp] theorem build_rxMode (c : Command) (can : Byte) : (build c can s).rxMode = s.rxMode := rfl
@[simp] theorem build_rxValid (c : Command) (can : Byte) : (build c can s).rxValid = s.rxValid := rfl
@[simp] theorem build_rxErrBadStart (c : Command) (can : Byte) : (build c can s).rxErrBadStart = s.rxErrBadStart := rfl
@[simp] theorem build_rxErrLenOvf (c : Command) (can : Byte) : (build c can s).rxErrLenOvf = s.rxErrLenOvf := rfl
@[simp] theorem build_errBusy (c : Command) (can : Byte) : (build c can s).errBusy = s.errBusy := rfl
@[simp] theorem build_errBounds (c : Command) (can : Byte) : (build c can s).errBounds = s.errBounds := rfl
@[simp] theorem build_errArg (c : Command) (can : Byte) : (build c can s).errArg = s.errArg := rfl
@[simp] theorem build_errOp (c : Command) (can : Byte) : (build c can s).errOp = s.errOp := rfl
@[simp] theorem build_latestValid (c : Command) (can : Byte) : (build c can s).latestValid = s.latestValid := rfl
@[simp] theorem build_prevValid (c : Command) (can : Byte) : (build c can s).prevValid = s.prevValid := rfl
@[simp] theorem build_fwValid (c : Command) (can : Byte) : (build c can s).fwValid = s.fwValid := rfl
@[simp] theorem build_opRes (c : Command) (can : Byte) : (build c can s).opRes = s.opRes := rfl
@[simp] theorem build_cfgTimeout (c : Command) (can : Byte) : (build c can s).cfgTimeout = s.cfgTimeout := rfl
@[simp] theorem build_crcRes (c : Command) (can : Byte) : (build c can s).crcRes = s.crcRes := rfl
@[simp] theorem build_txCur (c : Command) (can : Byte) : (build c can s).txCur = BitVec.ofNat 16 (c.addressed can).length := rfl
@[simp] theorem build_txCount (c : Command) (can : Byte) : (build c can s).txCount = s.txCount := rfl
@[simp] theorem build_rxCur (c : Command) (can : Byte) : (build c can s).rxCur = s.rxCur := rfl
@[simp] theorem build_rxLen (c : Command) (can : Byte) : (build c can s).rxLen = s.rxLen := rfl
@[simp] theorem build_getRes (c : Command) (can : Byte) : (build c can s).getRes = s.getRes := rfl
@[simp] theorem build_getScale (c : Command) (can : Byte) : (build c can s).getScale = s.getScale := rfl
@[simp] theorem build_rxCnt (c : Command) (can : Byte) : (build c can s).rxCnt = s.rxCnt := rfl
@[simp] theorem build_rxExp (c : Command) (can : Byte) : (build c can s).rxExp = s.rxExp := rfl
@[simp] theorem build_rxDecl (c : Command) (can : Byte) : (build c can s).rxDecl = s.rxDecl := rfl
@[simp] theorem build_rxT0 (c : Command) (can : Byte) : (build c can s).rxT0 = s.rxT0 := rfl
@[simp] theorem build_rxTmo (c : Command) (can : Byte) : (build c can s).rxTmo = s.rxTmo := rfl
@[simp] theorem build_rxHint (c : Command) (can : Byte) : (build c can s).rxHint = s.rxHint := rfl
@[simp] theorem build_rxResult (c : Command) (can : Byte) : (build c can s).rxResult = s.rxResult := rfl
@[simp] theorem build_reqState (c : Command) (can : Byte) : (build c can s).reqState = s.reqState := rfl
@[simp] theorem build_reqResult (c : Command) (can : Byte) : (build c can s).reqResult = s.reqResult := rfl
@[simp] theorem build_reqCmd (c : Command) (can : Byte) : (build c can s).reqCmd = s.reqCmd := rfl
@[simp] theorem build_decId (c : Command) (can : Byte) : (build c can s).decId = s.decId := rfl
@[simp] theorem build_decRes (c : Command) (can : Byte) : (build c can s).decRes = s.decRes := rfl
@[simp] theorem build_fwMajor (c : Command) (can : Byte) : (build c can s).fwMajor = s.fwMajor := rfl
@[simp] theorem build_fwMinor (c : Command) (can : Byte) : (build c can s).fwMinor = s.fwMinor := rfl
@[simp] theorem build_auxX (c : Command) (can : Byte) : (build c can s).auxX = s.auxX := rfl
@[simp] theorem build_auxY (c : Command) (can : Byte) : (build c can s).auxY = s.auxY := rfl
@[simp] theorem build_auxBtn (c : Command) (can : Byte) : (build c can s).auxBtn = s.auxBtn := rfl
@[simp] theorem build_opCur (c : Command) (can : Byte) : (build c can s).opCur = s.opCur := rfl
@[simp] theorem build_latest (c : Command) (can : Byte) : (build c can s).latest = s.latest := rfl
@[simp] theorem build_prev (c : Command) (can : Byte) : (build c can s).prev = s.prev := rfl
@[simp] theorem build_rxbuf (c : Command) (can : Byte) : (build c can s).rxbuf = s.rxbuf := rfl
@[simp] theorem build_txpay (c : Command) (can : Byte) : (build c can s).txpay = s.txpay.putAll 0 (c.addressed can) := rfl
@[simp] theorem build_rxQueue (c : Command) (can : Byte) : (build c can s).rxQueue = s.rxQueue := rfl
@[simp] theorem build_txOut (c : Command) (can : Byte) : (build c can s).txOut = s.txOut := rfl
@[simp] theorem build_now (c : Command) (can : Byte) : (build c can s).now = s.now := rfl
@[simp] theorem build_diagLog (c : Command) (can : Byte) : (build c can s).diagLog = s.diagLog := rfl
@[simp] theorem build_diagPresent (c : Command) (can : Byte) : (build c can s).diagPresent = s.diagPresent := rfl
@[simp] theorem build_sched (c : Command) (can : Byte) : (build c can s).sched = s.sched := rfl
@[simp] theorem build_draws (c : Command) (can : Byte) : (build c can s).draws = s.draws := rfl

/-! ### `rxStart` -/

@[simp] theorem rxStart_busy (tmo : Time) (mode : RxMode) : (rxStart tmo mode s).busy = if mode = .blocking then true else s.busy := rfl
@[simp] theorem rxStart_rxMode (tmo : Time) (mode : RxMode) : (rxStart tmo mode s).rxMode = mode := rfl
@[simp] theorem rxStart_rxValid (tmo : Time) (mode : RxMode) : (rxStart tmo mode s).rxValid = false := rfl
@[simp] theorem rxStart_rxErrBadStart (tmo : Time) (mode : RxMode) : (rxStart tmo mode s).rxErrBadStart = false := rfl
@[simp] theorem rxStart_rxErrLenOvf (tmo : Time) (mode : RxMode) : (rxStart tmo mode s).rxErrLenOvf = false := rfl
@[simp] theorem rxStart_errBusy (tmo : Time) (mode : RxMode) : (rxStart tmo mode s).errBusy = s.errBusy := rfl
@[simp] theorem rxStart_errBounds (tmo : Time) (mode : RxMode) : (rxStart tmo mode s).errBounds = s.errBounds := rfl
@[simp] theorem rxStart_errArg (tmo : Time) (mode : RxMode) : (rxStart tmo mode s).errArg = s.errArg := rfl
@[simp] theorem rxStart_errOp (tmo : Time) (mode : RxMode) : (rxStart tmo mode s).errOp = s.errOp := rfl
@[simp] theorem rxStart_latestValid (tmo : Time) (mode : RxMode) : (rxStart tmo mode s).latestValid = s.latestValid := rfl
@[simp] theorem rxStart_prevValid (tmo : Time) (mode : RxMode) : (rxStart tmo mode s).prevValid = s.prevValid := rfl
@[simp] theorem rxStart_fwValid (tmo : Time) (mode : RxMode) : (rxStart tmo mode s).fwValid = s.fwValid := rfl
@[simp] theorem rxStart_opRes (tmo : Time) (mode : RxMode) : (rxStart tmo mode s).opRes = s.opRes := rfl
@[simp] theorem rxStart_cfgTimeout (tmo : Time) (mode : RxMode) : (rxStart tmo mode s).cfgTimeout = s.cfgTimeout := rfl
@[simp] theorem rxStart_crcRes (tmo : Time) (mode : RxMode) : (rxStart tmo mode s).crcRes = s.crcRes := rfl
@[simp] theorem rxStart_txCur (tmo : Time) (mode : RxMode) : (rxStart tmo mode s).txCur = s.txCur := rfl
@[simp] theorem rxStart_txCount (tmo : Time) (mode : RxMode) : (rxStart tmo mode s).txCount = s.txCount := rfl
@[simp] theorem rxStart_rxCur (tmo : Time) (mode : RxMode) : (rxStart tmo mode s).rxCur = 0 := rfl
@[simp] theorem rxStart_rxLen (tmo : Time) (mode : RxMode) : (rxStart tmo mode s).rxLen = 0 := rfl
@[simp] theorem rxStart_getRes (tmo : Time) (mode : RxMode) : (rxStart tmo mode s).getRes = s.getRes := rfl
@[simp] theorem rxStart_getScale (tmo : Time) (mode : RxMode) : (rxStart tmo mode s).getScale = s.getScale := rfl
@[simp] theorem rxStart_rxCnt (tmo : Time) (mode : RxMode) : (rxStart tmo mode s).rxCnt = 0 := rfl
@[simp] theorem rxStart_rxExp (tmo : Time) (mode : RxMode) : (rxStart tmo mode s).rxExp = 0 := rfl
@[simp] theorem rxStart_rxDecl (tmo : Time) (mode : RxMode) : (rxStart tmo mode s).rxDecl = 0 := rfl
@[simp] theorem rxStart_rxT0 (tmo : Time) (mode : RxMode) : (rxStart tmo mode s).rxT0 = s.now := rfl
@[simp] theorem rxStart_rxTmo (tmo : Time) (mode : RxMode) : (rxStart tmo mode s).rxTmo = tmo := rfl
@[simp] theorem rxStart_rxHint (tmo : Time) (mode : RxMode) : (rxStart tmo mode s).rxHint = s.rxHint := rfl
@[simp] theorem rxStart_rxResult (tmo : Time) (mode : RxMode) : (rxStart tmo mode s).rxResult = .none := rfl
@[simp] theorem rxStart_reqState (tmo : Time) (mode : RxMode) : (rxStart tmo mode s).reqState = s.reqState := rfl
@[simp] theorem rxStart_reqResult (tmo : Time) (mode : RxMode) : (rxStart tmo mode s).reqResult = s.reqResult := rfl
@[simp] theorem rxStart_reqCmd (tmo : Time) (mode : RxMode) : (rxStart tmo mode s).reqCmd = s.reqCmd := rfl
@[simp] theorem rxStart_decId (tmo : Time) (mode : RxMode) : (rxStart tmo mode s).decId = s.decId := rfl
@[simp] theorem rxStart_decRes (tmo : Time) (mode : RxMode) : (rxStart tmo mode s).decRes = s.decRes := rfl
@[simp] theorem rxStart_fwMajor (tmo : Time) (mode : RxMode) : (rxStart tmo mode s).fwMajor = s.fwMajor := rfl
@[simp] theorem rxStart_fwMinor (tmo : Time) (mode : RxMode) : (rxStart tmo mode s).fwMinor = s.fwMinor := rfl
@[simp] theorem rxStart_auxX (tmo : Time) (mode : RxMode) : (rxStart tmo mode s).auxX = s.auxX := rfl
@[simp] theorem rxStart_auxY (tmo : Time) (mode : RxMode) : (rxStart tmo mode s).auxY = s.auxY := rfl
@[simp] theorem rxStart_auxBtn (tmo : Time) (mode : RxMode) : (rxStart tmo mode s).auxBtn = s.auxBtn := rfl
@[simp] theorem rxStart_opCur (tmo : Time) (mode : RxMode) : (rxStart tmo mode s).opCur = s.opCur := rfl
@[simp] theorem rxStart_latest (tmo : Time) (mode : RxMode) : (rxStart tmo mode s).latest = s.latest := rfl
@[simp] theorem rxStart_prev (tmo : Time) (mode : RxMode) : (rxStart tmo mode s).prev = s.prev := rfl
@[simp] theorem rxStart_rxbuf (tmo : Time) (mode : RxMode) : (rxStart tmo mode s).rxbuf = s.rxbuf := rfl
@[simp] theorem rxStart_txpay (tmo : Time) (mode : RxMode) : (rxStart tmo mode s).txpay = s.txpay := rfl
@[simp] theorem rxStart_rxQueue (tmo : Time) (mode : RxMode) : (rxStart tmo mode s).rxQueue = s.rxQueue := rfl
@[simp] theorem rxStart_txOut (tmo : Time) (mode : RxMode) : (rxStart tmo mode s).txOut = s.txOut := rfl
@[simp] theorem rxStart_now (tmo : Time) (mode : RxMode) : (rxStart tmo mode s).now = s.now := rfl
@[simp] theorem rxStart_diagLog (tmo : Time) (mode : RxMode) : (rxStart tmo mode s).diagLog = s.diagLog := rfl
@[simp] theorem rxStart_diagPresent (tmo : Time) (mode : RxMode) : (rxStart tmo mode s).diagPresent = s.diagPresent := rfl
@[simp] theorem rxStart_sched (tmo : Time) (mode : RxMode) : (rxStart tmo mode s).sched = s.sched := rfl
@[simp] theorem rxStart_draws (tmo : Time) (mode : RxMode) : (rxStart tmo mode s).draws = s.draws := rfl

/-! ### `acceptFrame` -/

@[simp] theorem acceptFrame_busy : (acceptFrame s).busy = s.busy := rfl
@[simp] theorem acceptFrame_rxMode : (acceptFrame s).rxMode = s.rxMode := rfl
@[simp] theorem acceptFrame_rxValid : (acceptFrame s).rxValid = true := rfl
@[simp] theorem acceptFrame_rxErrBadStart : (acceptFrame s).rxErrBadStart = s.rxErrBadStart := rfl
@[simp] theorem acceptFrame_rxErrLenOvf : (acceptFrame s).rxErrLenOvf = s.rxErrLenOvf := rfl
@[simp] theorem acceptFrame_errBusy : (acceptFrame s).errBusy = s.errBusy := rfl
@[simp] theorem acceptFrame_errBounds : (acceptFrame s).errBounds = s.errBounds := rfl
@[simp] theorem acceptFrame_errArg : (acceptFrame s).errArg = s.errArg := rfl
@[simp] theorem acceptFrame_errOp : (acceptFrame s).errOp = s.errOp := rfl
@[simp] theorem acceptFrame_latestValid : (acceptFrame s).latestValid = s.latestValid := rfl
@[simp] theorem acceptFrame_prevValid : (acceptFrame s).prevValid = s.prevValid := rfl
@[simp] theorem acceptFrame_fwValid : (acceptFrame s).fwValid = s.fwValid := rfl
@[simp] theorem acceptFrame_opRes : (acceptFrame s).opRes = s.opRes := rfl
@[simp] theorem acceptFrame_cfgTimeout : (acceptFrame s).cfgTimeout = s.cfgTimeout := rfl
@[simp] theorem acceptFrame_crcRes : (acceptFrame s).crcRes = s.crcRes := rfl
@[simp] theorem acceptFrame_txCur : (acceptFrame s).txCur = s.txCur := rfl
@[simp] theorem acceptFrame_txCount : (acceptFrame s).txCount = s.txCount := rfl
@[simp] theorem acceptFrame_rxCur : (acceptFrame s).rxCur = 0 := rfl
@[simp] theorem acceptFrame_rxLen : (acceptFrame s).rxLen = s.rxDecl := rfl
@[simp] theorem acceptFrame_getRes : (acceptFrame s).getRes = s.getRes := rfl
@[simp] theorem acceptFrame_getScale : (acceptFrame s).getScale = s.getScale := rfl
@[simp] theorem acceptFrame_rxCnt : (acceptFrame s).rxCnt = s.rxCnt := rfl
@[simp] theorem acceptFrame_rxExp : (acceptFrame s).rxExp = s.rxExp := rfl
@[simp] theorem acceptFrame_rxDecl : (acceptFrame s).rxDecl = s.rxDecl := rfl
@[simp] theorem acceptFrame_rxT0 : (acceptFrame s).rxT0 = s.rxT0 := rfl
@[simp] theorem acceptFrame_rxTmo : (acceptFrame s).rxTmo = s.rxTmo := rfl
@[simp] theorem acceptFrame_rxHint : (acceptFrame s).rxHint = s.rxHint := rfl
@[simp] theorem acceptFrame_rxResult : (acceptFrame s).rxResult = s.rxResult := rfl
@[simp] theorem acceptFrame_reqState : (acceptFrame s).reqState = s.reqState := rfl
@[simp] theorem acceptFrame_reqResult : (acceptFrame s).reqResult = s.reqResult := rfl
@[simp] theorem acceptFrame_reqCmd : (acceptFrame s).reqCmd = s.reqCmd := rfl
@[simp] theorem acceptFrame_decId : (acceptFrame s).decId = s.decId := rfl
@[simp] theorem acceptFrame_decRes : (acceptFrame s).decRes = s.decRes := rfl
@[simp] theorem acceptFrame_fwMajor : (acceptFrame s).fwMajor = s.fwMajor := rfl
@[simp] theorem acceptFrame_fwMinor : (acceptFrame s).fwMinor = s.fwMinor := rfl
@[simp] theorem acceptFrame_auxX : (acceptFrame s).auxX = s.auxX := rfl
@[simp] theorem acceptFrame_auxY : (acceptFrame s).auxY = s.auxY := rfl
@[simp] theorem acceptFrame_auxBtn : (acceptFrame s).auxBtn = s.auxBtn := rfl
@[simp] theorem acceptFrame_opCur : (acceptFrame s).opCur = s.opCur := rfl
@[simp] theorem acceptFrame_latest : (acceptFrame s).latest = s.latest := rfl
@[simp] theorem acceptFrame_prev : (acceptFrame s).prev = s.prev := rfl
@[simp] theorem acceptFrame_rxbuf : (acceptFrame s).rxbuf = s.rxbuf := rfl
@[simp] theorem acceptFrame_txpay : (acceptFrame s).txpay = s.txpay := rfl
@[simp] theorem acceptFrame_rxQueue : (acceptFrame s).rxQueue = s.rxQueue := rfl
@[simp] theorem acceptFrame_txOut : (acceptFrame s).txOut = s.txOut := rfl
@[simp] theorem acceptFrame_now : (acceptFrame s).now = s.now := rfl
@[simp] theorem acceptFrame_diagLog : (acceptFrame s).diagLog = if s.diagPresent then s.diagLog ++ [.frameOk] else s.diagLog := rfl
@[simp] theorem acceptFrame_diagPresent : (acceptFrame s).diagPresent = s.diagPresent := rfl
@[simp] theorem acceptFrame_sched : (acceptFrame s).sched = s.sched := rfl
@[simp] theorem acceptFrame_draws : (acceptFrame s).draws = s.draws := rfl

/-! ### `State.withDecRes` -/

@[simp] theorem State.withDecRes_busy (rc : ResultCode) : (s.withDecRes rc).busy = s.busy := rfl
@[simp] theorem State.withDecRes_rxMode (rc : ResultCode) : (s.withDecRes rc).rxMode = s.rxMode := rfl
@[simp] theorem State.withDecRes_rxValid (rc : ResultCode) : (s.withDecRes rc).rxValid = s.rxValid := rfl
@[simp] theorem State.withDecRes_rxErrBadStart (rc : ResultCode) : (s.withDecRes rc).rxErrBadStart = s.rxErrBadStart := rfl
@[simp] theorem State.withDecRes_rxErrLenOvf (rc : ResultCode) : (s.withDecRes rc).rxErrLenOvf = s.rxErrLenOvf := rfl
@[simp] theorem State.withDecRes_errBusy (rc : ResultCode) : (s.withDecRes rc).errBusy = s.errBusy := rfl
@[simp] theorem State.withDecRes_errBounds (rc : ResultCode) : (s.withDecRes rc).errBounds = s.errBounds := rfl
@[simp] theorem State.withDecRes_errArg (rc : ResultCode) : (s.withDecRes rc).errArg = s.errArg := rfl
@[simp] theorem State.withDecRes_errOp (rc : ResultCode) : (s.withDecRes rc).errOp = s.errOp := rfl
@[simp] theorem State.withDecRes_latestValid (rc : ResultCode) : (s.withDecRes rc).latestValid = s.latestValid := rfl
@[simp] theorem State.withDecRes_prevValid (rc : ResultCode) : (s.withDecRes rc).prevValid = s.prevValid := rfl
@[simp] theorem State.withDecRes_fwValid (rc : ResultCode) : (s.withDecRes rc).fwValid = s.fwValid := rfl
@[simp] theorem State.withDecRes_opRes (rc : ResultCode) : (s.withDecRes rc).opRes = s.opRes := rfl
@[simp] theorem State.withDecRes_cfgTimeout (rc : ResultCode) : (s.withDecRes rc).cfgTimeout = s.cfgTimeout := rfl
@[simp] theorem State.withDecRes_crcRes (rc : ResultCode) : (s.withDecRes rc).crcRes = s.crcRes := rfl
@[simp] theorem State.withDecRes_txCur (rc : ResultCode) : (s.withDecRes rc).txCur = s.txCur := rfl
@[simp] theorem State.withDecRes_txCount (rc : ResultCode) : (s.withDecRes rc).txCount = s.txCount := rfl
@[simp] theorem State.withDecRes_rxCur (rc : ResultCode) : (s.withDecRes rc).rxCur = s.rxCur := rfl
@[simp] theorem State.withDecRes_rxLen (rc : ResultCode) : (s.withDecRes rc).rxLen = s.rxLen := rfl
@[simp] theorem State.withDecRes_getRes (rc : ResultCode) : (s.withDecRes rc).getRes = s.getRes := rfl
@[simp] theorem State.withDecRes_getScale (rc : ResultCode) : (s.withDecRes rc).getScale = s.getScale := rfl
@[simp] theorem State.withDecRes_rxCnt (rc : ResultCode) : (s.withDecRes rc).rxCnt = s.rxCnt := rfl
@[simp] theorem State.withDecRes_rxExp (rc : ResultCode) : (s.withDecRes rc).rxExp = s.rxExp := rfl
@[simp] theorem State.withDecRes_rxDecl (rc : ResultCode) : (s.withDecRes rc).rxDecl = s.rxDecl := rfl
@[simp] theorem State.withDecRes_rxT0 (rc : ResultCode) : (s.withDecRes rc).rxT0 = s.rxT0 := rfl
@[simp] theorem State.withDecRes_rxTmo (rc : ResultCode) : (s.withDecRes rc).rxTmo = s.rxTmo := rfl
@[simp] theorem State.withDecRes_rxHint (rc : ResultCode) : (s.withDecRes rc).rxHint = s.rxHint := rfl
@[simp] theorem State.withDecRes_rxResult (rc : ResultCode) : (s.withDecRes rc).rxResult = s.rxResult := rfl
@[simp] theorem State.withDecRes_reqState (rc : ResultCode) : (s.withDecRes rc).reqState = s.reqState := rfl
@[simp] theorem State.withDecRes_reqResult (rc : ResultCode) : (s.withDecRes rc).reqResult = s.reqResult := rfl
@[simp] theorem State.withDecRes_reqCmd (rc : ResultCode) : (s.withDecRes rc).reqCmd = s.reqCmd := rfl
@[simp] theorem State.withDecRes_decId (rc : ResultCode) : (s.withDecRes rc).decId = s.decId := rfl
@[simp] theorem State.withDecRes_decRes (rc : ResultCode) : (s.withDecRes rc).decRes = rc := rfl
@[simp] theorem State.withDecRes_fwMajor (rc : ResultCode) : (s.withDecRes rc).fwMajor = s.fwMajor := rfl
@[simp] theorem State.withDecRes_fwMinor (rc : ResultCode) : (s.withDecRes rc).fwMinor = s.fwMinor := rfl
@[simp] theorem State.withDecRes_auxX (rc : ResultCode) : (s.withDecRes rc).auxX = s.auxX := rfl
@[simp] theorem State.withDecRes_auxY (rc : ResultCode) : (s.withDecRes rc).auxY = s.auxY := rfl
@[simp] theorem State.withDecRes_auxBtn (rc : ResultCode) : (s.withDecRes rc).auxBtn = s.auxBtn := rfl
@[simp] theorem State.withDecRes_opCur (rc : ResultCode) : (s.withDecRes rc).opCur = s.opCur := rfl
@[simp] theorem State.withDecRes_latest (rc : ResultCode) : (s.withDecRes rc).latest = s.latest := rfl
@[simp] theorem State.withDecRes_prev (rc : ResultCode) : (s.withDecRes rc).prev = s.prev := rfl
@[simp] theorem State.withDecRes_rxbuf (rc : ResultCode) : (s.withDecRes rc).rxbuf = s.rxbuf := rfl
@[simp] theorem State.withDecRes_txpay (rc : ResultCode) : (s.withDecRes rc).txpay = s.txpay := rfl
@[simp] theorem State.withDecRes_rxQueue (rc : ResultCode) : (s.withDecRes rc).rxQueue = s.rxQueue := rfl
@[simp] theorem State.withDecRes_txOut (rc : ResultCode) : (s.withDecRes rc).txOut = s.txOut := rfl
@[simp] theorem State.withDecRes_now (rc : ResultCode) : (s.withDecRes rc).now = s.now := rfl
@[simp] theorem State.withDecRes_diagLog (rc : ResultCode) : (s.withDecRes rc).diagLog = s.diagLog := rfl
@[simp] theorem State.withDecRes_diagPresent (rc : ResultCode) : (s.withDecRes rc).diagPresent = s.diagPresent := rfl
@[simp] theorem State.withDecRes_sched (rc : ResultCode) : (s.withDecRes rc).sched = s.sched := rfl
@[simp] theorem State.withDecRes_draws (rc : ResultCode) : (s.withDecRes rc).draws = s.draws := rfl

/-! ### `State.requestDone` -/

@[simp] theorem State.requestDone_busy (rc : ResultCode) : (s.requestDone rc).busy = s.busy := rfl
@[simp] theorem State.requestDone_rxMode (rc : ResultCode) : (s.requestDone rc).rxMode = s.rxMode := rfl
@[simp] theorem State.requestDone_rxValid (rc : ResultCode) : (s.requestDone rc).rxValid = s.rxValid := rfl
@[simp] theorem State.requestDone_rxErrBadStart (rc : ResultCode) : (s.requestDone rc).rxErrBadStart = s.rxErrBadStart := rfl
@[simp] theorem State.requestDone_rxErrLenOvf (rc : ResultCode) : (s.requestDone rc).rxErrLenOvf = s.rxErrLenOvf := rfl
@[simp] theorem State.requestDone_errBusy (rc : ResultCode) : (s.requestDone rc).errBusy = s.errBusy := rfl
@[simp] theorem State.requestDone_errBounds (rc : ResultCode) : (s.requestDone rc).errBounds = s.errBounds := rfl
@[simp] theorem State.requestDone_errArg (rc : ResultCode) : (s.requestDone rc).errArg = s.errArg := rfl
@[simp] theorem State.requestDone_errOp (rc : ResultCode) : (s.requestDone rc).errOp = s.errOp := rfl
@[simp] theorem State.requestDone_latestValid (rc : ResultCode) : (s.requestDone rc).latestValid = s.latestValid := rfl
@[simp] theorem State.requestDone_prevValid (rc : ResultCode) : (s.requestDone rc).prevValid = s.prevValid := rfl
@[simp] theorem State.requestDone_fwValid (rc : ResultCode) : (s.requestDone rc).fwValid = s.fwValid := rfl
@[simp] theorem State.requestDone_opRes (rc : ResultCode) : (s.requestDone rc).opRes = rc := rfl
@[simp] theorem State.requestDone_cfgTimeout (rc : ResultCode) : (s.requestDone rc).cfgTimeout = s.cfgTimeout := rfl
@[simp] theorem State.requestDone_crcRes (rc : ResultCode) : (s.requestDone rc).crcRes = s.crcRes := rfl
@[simp] theorem State.requestDone_txCur (rc : ResultCode) : (s.requestDone rc).txCur = s.txCur := rfl
@[simp] theorem State.requestDone_txCount (rc : ResultCode) : (s.requestDone rc).txCount = s.txCount := rfl
@[simp] theorem State.requestDone_rxCur (rc : ResultCode) : (s.requestDone rc).rxCur = s.rxCur := rfl
@[simp] theorem State.requestDone_rxLen (rc : ResultCode) : (s.requestDone rc).rxLen = s.rxLen := rfl
@[simp] theorem State.requestDone_getRes (rc : ResultCode) : (s.requestDone rc).getRes = s.getRes := rfl
@[simp] theorem State.requestDone_getScale (rc : ResultCode) : (s.requestDone rc).getScale = s.getScale := rfl
@[simp] theorem State.requestDone_rxCnt (rc : ResultCode) : (s.requestDone rc).rxCnt = s.rxCnt := rfl
@[simp] theorem State.requestDone_rxExp (rc : ResultCode) : (s.requestDone rc).rxExp = s.rxExp := rfl
@[simp] theorem State.requestDone_rxDecl (rc : ResultCode) : (s.requestDone rc).rxDecl = s.rxDecl := rfl
@[simp] theorem State.requestDone_rxT0 (rc : ResultCode) : (s.requestDone rc).rxT0 = s.rxT0 := rfl
@[simp] theorem State.requestDone_rxTmo (rc : ResultCode) : (s.requestDone rc).rxTmo = s.rxTmo := rfl
@[simp] theorem State.requestDone_rxHint (rc : ResultCode) : (s.requestDone rc).rxHint = s.rxHint := rfl
@[simp] theorem State.requestDone_rxResult (rc : ResultCode) : (s.requestDone rc).rxResult = s.rxResult := rfl
@[simp] theorem State.requestDone_reqState (rc : ResultCode) : (s.requestDone rc).reqState = .done := rfl
@[simp] theorem State.requestDone_reqResult (rc : ResultCode) : (s.requestDone rc).reqResult = rc := rfl
@[simp] theorem State.requestDone_reqCmd (rc : ResultCode) : (s.requestDone rc).reqCmd = s.reqCmd := rfl
@[simp] theorem State.requestDone_decId (rc : ResultCode) : (s.requestDone rc).decId = s.decId := rfl
@[simp] theorem State.requestDone_decRes (rc : ResultCode) : (s.requestDone rc).decRes = s.decRes := rfl
@[simp] theorem State.requestDone_fwMajor (rc : ResultCode) : (s.requestDone rc).fwMajor = s.fwMajor := rfl
@[simp] theorem State.requestDone_fwMinor (rc : ResultCode) : (s.requestDone rc).fwMinor = s.fwMinor := rfl
@[simp] theorem State.requestDone_auxX (rc : ResultCode) : (s.requestDone rc).auxX = s.auxX := rfl
@[simp] theorem State.requestDone_auxY (rc : ResultCode) : (s.requestDone rc).auxY = s.auxY := rfl
@[simp] theorem State.requestDone_auxBtn (rc : ResultCode) : (s.requestDone rc).auxBtn = s.auxBtn := rfl
@[simp] theorem State.requestDone_opCur (rc : ResultCode) : (s.requestDone rc).opCur = s.opCur := rfl
@[simp] theorem State.requestDone_latest (rc : ResultCode) : (s.requestDone rc).latest = s.latest := rfl
@[simp] theorem State.requestDone_prev (rc : ResultCode) : (s.requestDone rc).prev = s.prev := rfl
@[simp] theorem State.requestDone_rxbuf (rc : ResultCode) : (s.requestDone rc).rxbuf = s.rxbuf := rfl
@[simp] theorem State.requestDone_txpay (rc : ResultCode) : (s.requestDone rc).txpay = s.txpay := rfl
@[simp] theorem State.requestDone_rxQueue (rc : ResultCode) : (s.requestDone rc).rxQueue = s.rxQueue := rfl
@[simp] theorem State.requestDone_txOut (rc : ResultCode) : (s.requestDone rc).txOut = s.txOut := rfl
@[simp] theorem State.requestDone_now (rc : ResultCode) : (s.requestDone rc).now = s.now := rfl
@[simp] theorem State.requestDone_diagLog (rc : ResultCode) : (s.requestDone rc).diagLog = s.diagLog := rfl
@[simp] theorem State.requestDone_diagPresent (rc : ResultCode) : (s.requestDone rc).diagPresent = s.diagPresent := rfl
@[simp] theorem State.requestDone_sched (rc : ResultCode) : (s.requestDone rc).sched = s.sched := rfl
@[simp] theorem State.requestDone_draws (rc : ResultCode) : (s.requestDone rc).draws = s.draws := rfl

/-! ### `State.ready` -/

@[simp] theorem State.ready_busy : s.ready.busy = false := rfl
@[simp] theorem State.ready_rxMode : s.ready.rxMode = s.rxMode := rfl
@[simp] theorem State.ready_rxValid : s.ready.rxValid = s.rxValid := rfl
@[simp] theorem State.ready_rxErrBadStart : s.ready.rxErrBadStart = s.rxErrBadStart := rfl
@[simp] theorem State.ready_rxErrLenOvf : s.ready.rxErrLenOvf = s.rxErrLenOvf := rfl
@[simp] theorem State.ready_errBusy : s.ready.errBusy = s.errBusy := rfl
@[simp] theorem State.ready_errBounds : s.ready.errBounds = s.errBounds := rfl
@[simp] theorem State.ready_errArg : s.ready.errArg = s.errArg := rfl
@[simp] theorem State.ready_errOp : s.ready.errOp = s.errOp := rfl
@[simp] theorem State.ready_latestValid : s.ready.latestValid = s.latestValid := rfl
@[simp] theorem State.ready_prevValid : s.ready.prevValid = s.prevValid := rfl
@[simp] theorem State.ready_fwValid : s.ready.fwValid = s.fwValid := rfl
@[simp] theorem State.ready_opRes : s.ready.opRes = s.opRes := rfl
@[simp] theorem State.ready_cfgTimeout : s.ready.cfgTimeout = s.cfgTimeout := rfl
@[simp] theorem State.ready_crcRes : s.ready.crcRes = s.crcRes := rfl
@[simp] theorem State.ready_txCur : s.ready.txCur = s.txCur := rfl
@[simp] theorem State.ready_txCount : s.ready.txCount = s.txCount := rfl
@[simp] theorem State.ready_rxCur : s.ready.rxCur = s.rxCur := rfl
@[simp] theorem State.ready_rxLen : s.ready.rxLen = s.rxLen := rfl
@[simp] theorem State.ready_getRes : s.ready.getRes = s.getRes := rfl
@[simp] theorem State.ready_getScale : s.ready.getScale = s.getScale := rfl
@[simp] theorem State.ready_rxCnt : s.ready.rxCnt = s.rxCnt := rfl
@[simp] theorem State.ready_rxExp : s.ready.rxExp = s.rxExp := rfl
@[simp] theorem State.ready_rxDecl : s.ready.rxDecl = s.rxDecl := rfl
@[simp] theorem State.ready_rxT0 : s.ready.rxT0 = s.rxT0 := rfl
@[simp] theorem State.ready_rxTmo : s.ready.rxTmo = s.rxTmo := rfl
@[simp] theorem State.ready_rxHint : s.ready.rxHint = s.rxHint := rfl
@[simp] theorem State.ready_rxResult : s.ready.rxResult = s.rxResult := rfl
@[simp] theorem State.ready_reqState : s.ready.reqState = s.reqState := rfl
@[simp] theorem State.ready_reqResult : s.ready.reqResult = s.reqResult := rfl
@[simp] theorem State.ready_reqCmd : s.ready.reqCmd = s.reqCmd := rfl
@[simp] theorem State.ready_decId : s.ready.decId = s.decId := rfl
@[simp] theorem State.ready_decRes : s.ready.decRes = s.decRes := rfl
@[simp] theorem State.ready_fwMajor : s.ready.fwMajor = s.fwMajor := rfl
@[simp] theorem State.ready_fwMinor : s.ready.fwMinor = s.fwMinor := rfl
@[simp] theorem State.ready_auxX : s.ready.auxX = s.auxX := rfl
@[simp] theorem State.ready_auxY : s.ready.auxY = s.auxY := rfl
@[simp] theorem State.ready_auxBtn : s.ready.auxBtn = s.auxBtn := rfl
@[simp] theorem State.ready_opCur : s.ready.opCur = 0 := rfl
@[simp] theorem State.ready_latest : s.ready.latest = s.latest := rfl
@[simp] theorem State.ready_prev : s.ready.prev = s.prev := rfl
@[simp] theorem State.ready_rxbuf : s.ready.rxbuf = s.rxbuf := rfl
@[simp] theorem State.ready_txpay : s.ready.txpay = s.txpay := rfl
@[simp] theorem State.ready_rxQueue : s.ready.rxQueue = s.rxQueue := rfl
@[simp] theorem State.ready_txOut : s.ready.txOut = s.txOut := rfl
@[simp] theorem State.ready_now : s.ready.now = s.now := rfl
@[simp] theorem State.ready_diagLog : s.ready.diagLog = s.diagLog := rfl
@[simp] theorem State.ready_diagPresent : s.ready.diagPresent = s.diagPresent := rfl
@[simp] theorem State.ready_sched : s.ready.sched = s.sched := rfl
@[simp] theorem State.ready_draws : s.ready.draws = s.draws := rfl

/-! ### `State.opEnded` -/

@[simp] theorem State.opEnded_busy : s.opEnded.busy = s.busy := rfl
@[simp] theorem State.opEnded_rxMode : s.opEnded.rxMode = s.rxMode := rfl
@[simp] theorem State.opEnded_rxValid : s.opEnded.rxValid = s.rxValid := rfl
@[simp] theorem State.opEnded_rxErrBadStart : s.opEnded.rxErrBadStart = s.rxErrBadStart := rfl
@[simp] theorem State.opEnded_rxErrLenOvf : s.opEnded.rxErrLenOvf = s.rxErrLenOvf := rfl
@[simp] theorem State.opEnded_errBusy : s.opEnded.errBusy = s.errBusy := rfl
@[simp] theorem State.opEnded_errBounds : s.opEnded.errBounds = s.errBounds := rfl
@[simp] theorem State.opEnded_errArg : s.opEnded.errArg = s.errArg := rfl
@[simp] theorem State.opEnded_errOp : s.opEnded.errOp = s.errOp := rfl
@[simp] theorem State.opEnded_latestValid : s.opEnded.latestValid = s.latestValid := rfl
@[simp] theorem State.opEnded_prevValid : s.opEnded.prevValid = s.prevValid := rfl
@[simp] theorem State.opEnded_fwValid : s.opEnded.fwValid = s.fwValid := rfl
@[simp] theorem State.opEnded_opRes : s.opEnded.opRes = s.opRes := rfl
@[simp] theorem State.opEnded_cfgTimeout : s.opEnded.cfgTimeout = s.cfgTimeout := rfl
@[simp] theorem State.opEnded_crcRes : s.opEnded.crcRes = s.crcRes := rfl
@[simp] theorem State.opEnded_txCur : s.opEnded.txCur = s.txCur := rfl
@[simp] theorem State.opEnded_txCount : s.opEnded.txCount = s.txCount := rfl
@[simp] theorem State.opEnded_rxCur : s.opEnded.rxCur = s.rxCur := rfl
@[simp] theorem State.opEnded_rxLen : s.opEnded.rxLen = s.rxLen := rfl
@[simp] theorem State.opEnded_getRes : s.opEnded.getRes = s.getRes := rfl
@[simp] theorem State.opEnded_getScale : s.opEnded.getScale = s.getScale := rfl
@[simp] theorem State.opEnded_rxCnt : s.opEnded.rxCnt = s.rxCnt := rfl
@[simp] theorem State.opEnded_rxExp : s.opEnded.rxExp = s.rxExp := rfl
@[simp] theorem State.opEnded_rxDecl : s.opEnded.rxDecl = s.rxDecl := rfl
@[simp] theorem State.opEnded_rxT0 : s.opEnded.rxT0 = s.rxT0 := rfl
@[simp] theorem State.opEnded_rxTmo : s.opEnded.rxTmo = s.rxTmo := rfl
@[simp] theorem State.opEnded_rxHint : s.opEnded.rxHint = s.rxHint := rfl
@[simp] theorem State.opEnded_rxResult : s.opEnded.rxResult = s.rxResult := rfl
@[simp] theorem State.opEnded_reqState : s.opEnded.reqState = s.reqState := rfl
@[simp] theorem State.opEnded_reqResult : s.opEnded.reqResult = s.reqResult := rfl
@[simp] theorem State.opEnded_reqCmd : s.opEnded.reqCmd = s.reqCmd := rfl
@[simp] theorem State.opEnded_decId : s.opEnded.decId = s.decId := rfl
@[simp] theorem State.opEnded_decRes : s.opEnded.decRes = s.decRes := rfl
@[simp] theorem State.opEnded_fwMajor : s.opEnded.fwMajor = s.fwMajor := rfl
@[simp] theorem State.opEnded_fwMinor : s.opEnded.fwMinor = s.fwMinor := rfl
@[simp] theorem State.opEnded_auxX : s.opEnded.auxX = s.auxX := rfl
@[simp] theorem State.opEnded_auxY : s.opEnded.auxY = s.auxY := rfl
@[simp] theorem State.opEnded_auxBtn : s.opEnded.auxBtn = s.auxBtn := rfl
@[simp] theorem State.opEnded_opCur : s.opEnded.opCur = 0 := rfl
@[simp] theorem State.opEnded_latest : s.opEnded.latest = s.latest := rfl
@[simp] theorem State.opEnded_prev : s.opEnded.prev = s.prev := rfl
@[simp] theorem State.opEnded_rxbuf : s.opEnded.rxbuf = s.rxbuf := rfl
@[simp] theorem State.opEnded_txpay : s.opEnded.txpay = s.txpay := rfl
@[simp] theorem State.opEnded_rxQueue : s.opEnded.rxQueue = s.rxQueue := rfl
@[simp] theorem State.opEnded_txOut : s.opEnded.txOut = s.txOut := rfl
@[simp] theorem State.opEnded_now : s.opEnded.now = s.now := rfl
@[simp] theorem State.opEnded_diagLog : s.opEnded.diagLog = s.diagLog := rfl
@[simp] theorem State.opEnded_diagPresent : s.opEnded.diagPresent = s.diagPresent := rfl
@[simp] theorem State.opEnded_sched : s.opEnded.sched = s.sched := rfl
@[simp] theorem State.opEnded_draws : s.opEnded.draws = s.draws := rfl

/-! ### `State.awaitResponse` -/

@[simp] theorem State.awaitResponse_busy : s.awaitResponse.busy = s.busy := rfl
@[simp] theorem State.awaitResponse_rxMode : s.awaitResponse.rxMode = s.rxMode := rfl
@[simp] theorem State.awaitResponse_rxValid : s.awaitResponse.rxValid = s.rxValid := rfl
@[simp] theorem State.awaitResponse_rxErrBadStart : s.awaitResponse.rxErrBadStart = s.rxErrBadStart := rfl
@[simp] theorem State.awaitResponse_rxErrLenOvf : s.awaitResponse.rxErrLenOvf = s.rxErrLenOvf := rfl
@[simp] theorem State.awaitResponse_errBusy : s.awaitResponse.errBusy = s.errBusy := rfl
@[simp] theorem State.awaitResponse_errBounds : s.awaitResponse.errBounds = s.errBounds := rfl
@[simp] theorem State.awaitResponse_errArg : s.awaitResponse.errArg = s.errArg := rfl
@[simp] theorem State.awaitResponse_errOp : s.awaitResponse.errOp = s.errOp := rfl
@[simp] theorem State.awaitResponse_latestValid : s.awaitResponse.latestValid = s.latestValid := rfl
@[simp] theorem State.awaitResponse_prevValid : s.awaitResponse.prevValid = s.prevValid := rfl
@[simp] theorem State.awaitResponse_fwValid : s.awaitResponse.fwValid = s.fwValid := rfl
@[simp] theorem State.awaitResponse_opRes : s.awaitResponse.opRes = s.opRes := rfl
@[simp] theorem State.awaitResponse_cfgTimeout : s.awaitResponse.cfgTimeout = s.cfgTimeout := rfl
@[simp] theorem State.awaitResponse_crcRes : s.awaitResponse.crcRes = s.crcRes := rfl
@[simp] theorem State.awaitResponse_txCur : s.awaitResponse.txCur = s.txCur := rfl
@[simp] theorem State.awaitResponse_txCount : s.awaitResponse.txCount = s.txCount := rfl
@[simp] theorem State.awaitResponse_rxCur : s.awaitResponse.rxCur = s.rxCur := rfl
@[simp] theorem State.awaitResponse_rxLen : s.awaitResponse.rxLen = s.rxLen := rfl
@[simp] theorem State.awaitResponse_getRes : s.awaitResponse.getRes = s.getRes := rfl
@[simp] theorem State.awaitResponse_getScale : s.awaitResponse.getScale = s.getScale := rfl
@[simp] theorem State.awaitResponse_rxCnt : s.awaitResponse.rxCnt = s.rxCnt := rfl
@[simp] theorem State.awaitResponse_rxExp : s.awaitResponse.rxExp = s.rxExp := rfl
@[simp] theorem State.awaitResponse_rxDecl : s.awaitResponse.rxDecl = s.rxDecl := rfl
@[simp] theorem State.awaitResponse_rxT0 : s.awaitResponse.rxT0 = s.rxT0 := rfl
@[simp] theorem State.awaitResponse_rxTmo : s.awaitResponse.rxTmo = s.rxTmo := rfl
@[simp] theorem State.awaitResponse_rxHint : s.awaitResponse.rxHint = s.rxHint := rfl
@[simp] theorem State.awaitResponse_rxResult : s.awaitResponse.rxResult = s.rxResult := rfl
@[simp] theorem State.awaitResponse_reqState : s.awaitResponse.reqState = .awaiting := rfl
@[simp] theorem State.awaitResponse_reqResult : s.awaitResponse.reqResult = s.reqResult := rfl
@[simp] theorem State.awaitResponse_reqCmd : s.awaitResponse.reqCmd = s.reqCmd := rfl
@[simp] theorem State.awaitResponse_decId : s.awaitResponse.decId = s.decId := rfl
@[simp] theorem State.awaitResponse_decRes : s.awaitResponse.decRes = s.decRes := rfl
@[simp] theorem State.awaitResponse_fwMajor : s.awaitResponse.fwMajor = s.fwMajor := rfl
@[simp] theorem State.awaitResponse_fwMinor : s.awaitResponse.fwMinor = s.fwMinor := rfl
@[simp] theorem State.awaitResponse_auxX : s.awaitResponse.auxX = s.auxX := rfl
@[simp] theorem State.awaitResponse_auxY : s.awaitResponse.auxY = s.auxY := rfl
@[simp] theorem State.awaitResponse_auxBtn : s.awaitResponse.auxBtn = s.auxBtn := rfl
@[simp] theorem State.awaitResponse_opCur : s.awaitResponse.opCur = s.opCur := rfl
@[simp] theorem State.awaitResponse_latest : s.awaitResponse.latest = s.latest := rfl
@[simp] theorem State.awaitResponse_prev : s.awaitResponse.prev = s.prev := rfl
@[simp] theorem State.awaitResponse_rxbuf : s.awaitResponse.rxbuf = s.rxbuf := rfl
@[simp] theorem State.awaitResponse_txpay : s.awaitResponse.txpay = s.txpay := rfl
@[simp] theorem State.awaitResponse_rxQueue : s.awaitResponse.rxQueue = s.rxQueue := rfl
@[simp] theorem State.awaitResponse_txOut : s.awaitResponse.txOut = s.txOut := rfl
@[simp] theorem State.awaitResponse_now : s.awaitResponse.now = s.now := rfl
@[simp] theorem State.awaitResponse_diagLog : s.awaitResponse.diagLog = s.diagLog := rfl
@[simp] theorem State.awaitResponse_diagPresent : s.awaitResponse.diagPresent = s.diagPresent := rfl
@[simp] theorem State.awaitResponse_sched : s.awaitResponse.sched = s.sched := rfl
@[simp] theorem State.awaitResponse_draws : s.awaitResponse.draws = s.draws := rfl

/-! ### `State.dropOverflow` -/

@[simp] theorem State.dropOverflow_busy : s.dropOverflow.busy = s.busy := rfl
@[simp] theorem State.dropOverflow_rxMode : s.dropOverflow.rxMode = s.rxMode := rfl
@[simp] theorem State.dropOverflow_rxValid : s.dropOverflow.rxValid = s.rxValid := rfl
@[simp] theorem State.dropOverflow_rxErrBadStart : s.dropOverflow.rxErrBadStart = s.rxErrBadStart := rfl
@[simp] theorem State.dropOverflow_rxErrLenOvf : s.dropOverflow.rxErrLenOvf = true := rfl
@[simp] theorem State.dropOverflow_errBusy : s.dropOverflow.errBusy = s.errBusy := rfl
@[simp] theorem State.dropOverflow_errBounds : s.dropOverflow.errBounds = s.errBounds := rfl
@[simp] theorem State.dropOverflow_errArg : s.dropOverflow.errArg = s.errArg := rfl
@[simp] theorem State.dropOverflow_errOp : s.dropOverflow.errOp = s.errOp := rfl
@[simp] theorem State.dropOverflow_latestValid : s.dropOverflow.latestValid = s.latestValid := rfl
@[simp] theorem State.dropOverflow_prevValid : s.dropOverflow.prevValid = s.prevValid := rfl
@[simp] theorem State.dropOverflow_fwValid : s.dropOverflow.fwValid = s.fwValid := rfl
@[simp] theorem State.dropOverflow_opRes : s.dropOverflow.opRes = s.opRes := rfl
@[simp] theorem State.dropOverflow_cfgTimeout : s.dropOverflow.cfgTimeout = s.cfgTimeout := rfl
@[simp] theorem State.dropOverflow_crcRes : s.dropOverflow.crcRes = s.crcRes := rfl
@[simp] theorem State.dropOverflow_txCur : s.dropOverflow.txCur = s.txCur := rfl
@[simp] theorem State.dropOverflow_txCount : s.dropOverflow.txCount = s.txCount := rfl
@[simp] theorem State.dropOverflow_rxCur : s.dropOverflow.rxCur = s.rxCur := rfl
@[simp] theorem State.dropOverflow_rxLen : s.dropOverflow.rxLen = s.rxLen := rfl
@[simp] theorem State.dropOverflow_getRes : s.dropOverflow.getRes = s.getRes := rfl
@[simp] theorem State.dropOverflow_getScale : s.dropOverflow.getScale = s.getScale := rfl
@[simp] theorem State.dropOverflow_rxCnt : s.dropOverflow.rxCnt = 0 := rfl
@[simp] theorem State.dropOverflow_rxExp : s.dropOverflow.rxExp = s.rxExp := rfl
@[simp] theorem State.dropOverflow_rxDecl : s.dropOverflow.rxDecl = s.rxDecl := rfl
@[simp] theorem State.dropOverflow_rxT0 : s.dropOverflow.rxT0 = s.rxT0 := rfl
@[simp] theorem State.dropOverflow_rxTmo : s.dropOverflow.rxTmo = s.rxTmo := rfl
@[simp] theorem State.dropOverflow_rxHint : s.dropOverflow.rxHint = s.rxHint := rfl
@[simp] theorem State.dropOverflow_rxResult : s.dropOverflow.rxResult = s.rxResult := rfl
@[simp] theorem State.dropOverflow_reqState : s.dropOverflow.reqState = s.reqState := rfl
@[simp] theorem State.dropOverflow_reqResult : s.dropOverflow.reqResult = s.reqResult := rfl
@[simp] theorem State.dropOverflow_reqCmd : s.dropOverflow.reqCmd = s.reqCmd := rfl
@[simp] theorem State.dropOverflow_decId : s.dropOverflow.decId = s.decId := rfl
@[simp] theorem State.dropOverflow_decRes : s.dropOverflow.decRes = s.decRes := rfl
@[simp] theorem State.dropOverflow_fwMajor : s.dropOverflow.fwMajor = s.fwMajor := rfl
@[simp] theorem State.dropOverflow_fwMinor : s.dropOverflow.fwMinor = s.fwMinor := rfl
@[simp] theorem State.dropOverflow_auxX : s.dropOverflow.auxX = s.auxX := rfl
@[simp] theorem State.dropOverflow_auxY : s.dropOverflow.auxY = s.auxY := rfl
@[simp] theorem State.dropOverflow_auxBtn : s.dropOverflow.auxBtn = s.auxBtn := rfl
@[simp] theorem State.dropOverflow_opCur : s.dropOverflow.opCur = s.opCur := rfl
@[simp] theorem State.dropOverflow_latest : s.dropOverflow.latest = s.latest := rfl
@[simp] theorem State.dropOverflow_prev : s.dropOverflow.prev = s.prev := rfl
@[simp] theorem State.dropOverflow_rxbuf : s.dropOverflow.rxbuf = s.rxbuf := rfl
@[simp] theorem State.dropOverflow_txpay : s.dropOverflow.txpay = s.txpay := rfl
@[simp] theorem State.dropOverflow_rxQueue : s.dropOverflow.rxQueue = s.rxQueue := rfl
@[simp] theorem State.dropOverflow_txOut : s.dropOverflow.txOut = s.txOut := rfl
@[simp] theorem State.dropOverflow_now : s.dropOverflow.now = s.now := rfl
@[simp] theorem State.dropOverflow_diagLog : s.dropOverflow.diagLog = s.diagLog := rfl
@[simp] theorem State.dropOverflow_diagPresent : s.dropOverflow.diagPresent = s.diagPresent := rfl
@[simp] theorem State.dropOverflow_sched : s.dropOverflow.sched = s.sched := rfl
@[simp] theorem State.dropOverflow_draws : s.dropOverflow.draws = s.draws := rfl

/-! ### `State.dropBadStart` -/

@[simp] theorem State.dropBadStart_busy : s.dropBadStart.busy = s.busy := rfl
@[simp] theorem State.dropBadStart_rxMode : s.dropBadStart.rxMode = s.rxMode := rfl
@[simp] theorem State.dropBadStart_rxValid : s.dropBadStart.rxValid = s.rxValid := rfl
@[simp] theorem State.dropBadStart_rxErrBadStart : s.dropBadStart.rxErrBadStart = true := rfl
@[simp] theorem State.dropBadStart_rxErrLenOvf : s.dropBadStart.rxErrLenOvf = s.rxErrLenOvf := rfl
@[simp] theorem State.dropBadStart_errBusy : s.dropBadStart.errBusy = s.errBusy := rfl
@[simp] theorem State.dropBadStart_errBounds : s.dropBadStart.errBounds = s.errBounds := rfl
@[simp] theorem State.dropBadStart_errArg : s.dropBadStart.errArg = s.errArg := rfl
@[simp] theorem State.dropBadStart_errOp : s.dropBadStart.errOp = s.errOp := rfl
@[simp] theorem State.dropBadStart_latestValid : s.dropBadStart.latestValid = s.latestValid := rfl
@[simp] theorem State.dropBadStart_prevValid : s.dropBadStart.prevValid = s.prevValid := rfl
@[simp] theorem State.dropBadStart_fwValid : s.dropBadStart.fwValid = s.fwValid := rfl
@[simp] theorem State.dropBadStart_opRes : s.dropBadStart.opRes = s.opRes := rfl
@[simp] theorem State.dropBadStart_cfgTimeout : s.dropBadStart.cfgTimeout = s.cfgTimeout := rfl
@[simp] theorem State.dropBadStart_crcRes : s.dropBadStart.crcRes = s.crcRes := rfl
@[simp] theorem State.dropBadStart_txCur : s.dropBadStart.txCur = s.txCur := rfl
@[simp] theorem State.dropBadStart_txCount : s.dropBadStart.txCount = s.txCount := rfl
@[simp] theorem State.dropBadStart_rxCur : s.dropBadStart.rxCur = s.rxCur := rfl
@[simp] theorem State.dropBadStart_rxLen : s.dropBadStart.rxLen = s.rxLen := rfl
@[simp] theorem State.dropBadStart_getRes : s.dropBadStart.getRes = s.getRes := rfl
@[simp] theorem State.dropBadStart_getScale : s.dropBadStart.getScale = s.getScale := rfl
@[simp] theorem State.dropBadStart_rxCnt : s.dropBadStart.rxCnt = 0 := rfl
@[simp] theorem State.dropBadStart_rxExp : s.dropBadStart.rxExp = s.rxExp := rfl
@[simp] theorem State.dropBadStart_rxDecl : s.dropBadStart.rxDecl = s.rxDecl := rfl
@[simp] theorem State.dropBadStart_rxT0 : s.dropBadStart.rxT0 = s.rxT0 := rfl
@[simp] theorem State.dropBadStart_rxTmo : s.dropBadStart.rxTmo = s.rxTmo := rfl
@[simp] theorem State.dropBadStart_rxHint : s.dropBadStart.rxHint = s.rxHint := rfl
@[simp] theorem State.dropBadStart_rxResult : s.dropBadStart.rxResult = s.rxResult := rfl
@[simp] theorem State.dropBadStart_reqState : s.dropBadStart.reqState = s.reqState := rfl
@[simp] theorem State.dropBadStart_reqResult : s.dropBadStart.reqResult = s.reqResult := rfl
@[simp] theorem State.dropBadStart_reqCmd : s.dropBadStart.reqCmd = s.reqCmd := rfl
@[simp] theorem State.dropBadStart_decId : s.dropBadStart.decId = s.decId := rfl
@[simp] theorem State.dropBadStart_decRes : s.dropBadStart.decRes = s.decRes := rfl
@[simp] theorem State.dropBadStart_fwMajor : s.dropBadStart.fwMajor = s.fwMajor := rfl
@[simp] theorem State.dropBadStart_fwMinor : s.dropBadStart.fwMinor = s.fwMinor := rfl
@[simp] theorem State.dropBadStart_auxX : s.dropBadStart.auxX = s.auxX := rfl
@[simp] theorem State.dropBadStart_auxY : s.dropBadStart.auxY = s.auxY := rfl
@[simp] theorem State.dropBadStart_auxBtn : s.dropBadStart.auxBtn = s.auxBtn := rfl
@[simp] theorem State.dropBadStart_opCur : s.dropBadStart.opCur = s.opCur := rfl
@[simp] theorem State.dropBadStart_latest : s.dropBadStart.latest = s.latest := rfl
@[simp] theorem State.dropBadStart_prev : s.dropBadStart.prev = s.prev := rfl
@[simp] theorem State.dropBadStart_rxbuf : s.dropBadStart.rxbuf = s.rxbuf := rfl
@[simp] theorem State.dropBadStart_txpay : s.dropBadStart.txpay = s.txpay := rfl
@[simp] theorem State.dropBadStart_rxQueue : s.dropBadStart.rxQueue = s.rxQueue := rfl
@[simp] theorem State.dropBadStart_txOut : s.dropBadStart.txOut = s.txOut := rfl
@[simp] theorem State.dropBadStart_now : s.dropBadStart.now = s.now := rfl
@[simp] theorem State.dropBadStart_diagLog : s.dropBadStart.diagLog = s.diagLog := rfl
@[simp] theorem State.dropBadStart_diagPresent : s.dropBadStart.diagPresent = s.diagPresent := rfl
@[simp] theorem State.dropBadStart_sched : s.dropBadStart.sched = s.sched := rfl
@[simp] theorem State.dropBadStart_draws : s.dropBadStart.draws = s.draws := rfl

/-! ### `State.receiverIdle` -/

@[simp] theorem State.receiverIdle_busy : s.receiverIdle.busy = s.busy := rfl
@[simp] theorem State.receiverIdle_rxMode : s.receiverIdle.rxMode = .idle := rfl
@[simp] theorem State.receiverIdle_rxValid : s.receiverIdle.rxValid = s.rxValid := rfl
@[simp] theorem State.receiverIdle_rxErrBadStart : s.receiverIdle.rxErrBadStart = s.rxErrBadStart := rfl
@[simp] theorem State.receiverIdle_rxErrLenOvf : s.receiverIdle.rxErrLenOvf = s.rxErrLenOvf := rfl
@[simp] theorem State.receiverIdle_errBusy : s.receiverIdle.errBusy = s.errBusy := rfl
@[simp] theorem State.receiverIdle_errBounds : s.receiverIdle.errBounds = s.errBounds := rfl
@[simp] theorem State.receiverIdle_errArg : s.receiverIdle.errArg = s.errArg := rfl
@[simp] theorem State.receiverIdle_errOp : s.receiverIdle.errOp = s.errOp := rfl
@[simp] theorem State.receiverIdle_latestValid : s.receiverIdle.latestValid = s.latestValid := rfl
@[simp] theorem State.receiverIdle_prevValid : s.receiverIdle.prevValid = s.prevValid := rfl
@[simp] theorem State.receiverIdle_fwValid : s.receiverIdle.fwValid = s.fwValid := rfl
@[simp] theorem State.receiverIdle_opRes : s.receiverIdle.opRes = s.opRes := rfl
@[simp] theorem State.receiverIdle_cfgTimeout : s.receiverIdle.cfgTimeout = s.cfgTimeout := rfl
@[simp] theorem State.receiverIdle_crcRes : s.receiverIdle.crcRes = s.crcRes := rfl
@[simp] theorem State.receiverIdle_txCur : s.receiverIdle.txCur = s.txCur := rfl
@[simp] theorem State.receiverIdle_txCount : s.receiverIdle.txCount = s.txCount := rfl
@[simp] theorem State.receiverIdle_rxCur : s.receiverIdle.rxCur = s.rxCur := rfl
@[simp] theorem State.receiverIdle_rxLen : s.receiverIdle.rxLen = s.rxLen := rfl
@[simp] theorem State.receiverIdle_getRes : s.receiverIdle.getRes = s.getRes := rfl
@[simp] theorem State.receiverIdle_getScale : s.receiverIdle.getScale = s.getScale := rfl
@[simp] theorem State.receiverIdle_rxCnt : s.receiverIdle.rxCnt = s.rxCnt := rfl
@[simp] theorem State.receiverIdle_rxExp : s.receiverIdle.rxExp = s.rxExp := rfl
@[simp] theorem State.receiverIdle_rxDecl : s.receiverIdle.rxDecl = s.rxDecl := rfl
@[simp] theorem State.receiverIdle_rxT0 : s.receiverIdle.rxT0 = s.rxT0 := rfl
@[simp] theorem State.receiverIdle_rxTmo : s.receiverIdle.rxTmo = s.rxTmo := rfl
@[simp] theorem State.receiverIdle_rxHint : s.receiverIdle.rxHint = s.rxHint := rfl
@[simp] theorem State.receiverIdle_rxResult : s.receiverIdle.rxResult = s.rxResult := rfl
@[simp] theorem State.receiverIdle_reqState : s.receiverIdle.reqState = s.reqState := rfl
@[simp] theorem State.receiverIdle_reqResult : s.receiverIdle.reqResult = s.reqResult := rfl
@[simp] theorem State.receiverIdle_reqCmd : s.receiverIdle.reqCmd = s.reqCmd := rfl
@[simp] theorem State.receiverIdle_decId : s.receiverIdle.decId = s.decId := rfl
@[simp] theorem State.receiverIdle_decRes : s.receiverIdle.decRes = s.decRes := rfl
@[simp] theorem State.receiverIdle_fwMajor : s.receiverIdle.fwMajor = s.fwMajor := rfl
@[simp] theorem State.receiverIdle_fwMinor : s.receiverIdle.fwMinor = s.fwMinor := rfl
@[simp] theorem State.receiverIdle_auxX : s.receiverIdle.auxX = s.auxX := rfl
@[simp] theorem State.receiverIdle_auxY : s.receiverIdle.auxY = s.auxY := rfl
@[simp] theorem State.receiverIdle_auxBtn : s.receiverIdle.auxBtn = s.auxBtn := rfl
@[simp] theorem State.receiverIdle_opCur : s.receiverIdle.opCur = s.opCur := rfl
@[simp] theorem State.receiverIdle_latest : s.receiverIdle.latest = s.latest := rfl
@[simp] theorem State.receiverIdle_prev : s.receiverIdle.prev = s.prev := rfl
@[simp] theorem State.receiverIdle_rxbuf : s.receiverIdle.rxbuf = s.rxbuf := rfl
@[simp] theorem State.receiverIdle_txpay : s.receiverIdle.txpay = s.txpay := rfl
@[simp] theorem State.receiverIdle_rxQueue : s.receiverIdle.rxQueue = s.rxQueue := rfl
@[simp] theorem State.receiverIdle_txOut : s.receiverIdle.txOut = s.txOut := rfl
@[simp] theorem State.receiverIdle_now : s.receiverIdle.now = s.now := rfl
@[simp] theorem State.receiverIdle_diagLog : s.receiverIdle.diagLog = s.diagLog := rfl
@[simp] theorem State.receiverIdle_diagPresent : s.receiverIdle.diagPresent = s.diagPresent := rfl
@[simp] theorem State.receiverIdle_sched : s.receiverIdle.sched = s.sched := rfl
@[simp] theorem State.receiverIdle_draws : s.receiverIdle.draws = s.draws := rfl

/-! ### What `raise` writes (60_exceptions.md R372) -/

@[simp] theorem State.raise_bounds_opRes : (s.raise .bounds).opRes = .bounds := rfl
@[simp] theorem State.raise_arg_opRes : (s.raise .arg).opRes = .badArg := rfl
@[simp] theorem State.raise_op_opRes : (s.raise .op).opRes = .badOp := rfl
@[simp] theorem State.raise_bounds_errBounds : (s.raise .bounds).errBounds = true := rfl
@[simp] theorem State.raise_arg_errArg : (s.raise .arg).errArg = true := rfl
@[simp] theorem State.raise_op_errOp : (s.raise .op).errOp = true := rfl

end Sys2Proof.Machine
end

