-- ==== Sys2Proof/Laws/Ops.lean ====
section
/-! SUPPORT. One lemma for each shared operation that says once everything it can do: the provers cite these
instead of unfolding the operation. -/

namespace Sys2Proof.Machine

/-! ### Sequencing of transitions -/

@[simp] theorem andThen_next (s : State) (f : State → Res) : andThen (.next s) f = f s := rfl
@[simp] theorem andThen_fault (e : Fault) (f : State → Res) : andThen (.fault e) f = .fault e := rfl
@[simp] theorem andThen_refused (e : Refusal) (f : State → Res) : andThen (.refused e) f = .refused e := rfl

theorem andThen_eq_next {r : Res} {f : State → Res} {t : State} :
    andThen r f = .next t ↔ ∃ s, r = .next s ∧ f s = .next t := by
  cases r <;> simp

theorem andThen_assoc (r : Res) (f g : State → Res) :
    andThen (andThen r f) g = andThen r fun s => andThen (f s) g := by
  cases r <;> rfl

/-! ### The busy gate (60_exceptions.md R373) -/

theorem accept_busy {s : State} (h : s.busy = true) (f : State → Res) :
    accept s f = .next { s with errBusy := true } := by
  simp [accept, h]

theorem accept_ready {s : State} (h : s.busy = false) (f : State → Res) : accept s f = f s := by
  simp [accept, h]

/-- Everything the gate can answer. -/
theorem accept_cases (s : State) (f : State → Res) :
    (s.busy = true ∧ accept s f = .next { s with errBusy := true }) ∨
      (s.busy = false ∧ accept s f = f s) := by
  rcases Bool.eq_false_or_eq_true s.busy with h | h
  · exact .inl ⟨h, accept_busy h f⟩
  · exact .inr ⟨h, accept_ready h f⟩

/-! ### Bounds of the buffers -/

theorem within_ok {buf : Buffer} {a n : Nat} {s : State} (h : a + n ≤ Config.bufSize buf) (f : State → Res) :
    within buf a n s f = f s := by
  simp [within, h]

theorem within_eq_next {buf : Buffer} {a n : Nat} {s t : State} {f : State → Res} :
    within buf a n s f = .next t ↔ a + n ≤ Config.bufSize buf ∧ f s = .next t := by
  unfold within; split_ifs with h <;> simp [h]

/-! ### Appends (41_field_codec.md R176 to R179) -/

theorem append_fits {bytes : List Byte} {s : State} (h : s.txCur.toNat + bytes.length ≤ Config.txCap) :
    append bytes s = .next { s with
      txpay := s.txpay.putAll s.txCur.toNat bytes
      txCur := BitVec.ofNat 16 (s.txCur.toNat + bytes.length)
      opRes := .ok } := by
  rw [append, if_neg (by omega)]

theorem append_refused {bytes : List Byte} {s : State} (h : Config.txCap < s.txCur.toNat + bytes.length) :
    append bytes s = .next (s.raise .bounds) := by
  rw [append, if_pos (by omega)]

/-- After an append that fits, the cursor stands behind the bytes it wrote (R163). -/
theorem append_cursor {n : Nat} {c : BitVec 16} (h : c.toNat + n ≤ Config.txCap) :
    (BitVec.ofNat 16 (c.toNat + n)).toNat = c.toNat + n := by
  rw [BitVec.toNat_ofNat, Nat.mod_eq_of_lt (by unfold Config.txCap at h; omega)]

/-! ### Reads of the payload view (R181 to R186) -/

theorem getField_ok {w : Nat} {dec : List Byte → Word32} {scale : Word32} {s : State}
    (hv : s.rxValid = true) (h : s.rxCur.toNat + w ≤ s.rxLen.toNat) (hl : s.rxLen.toNat ≤ 251) :
    getField w dec scale s = .next { s with
      getRes := dec (s.bytesAt .rxbuf (2 + s.rxCur.toNat) w)
      getScale := scale
      rxCur := BitVec.ofNat 8 (s.rxCur.toNat + w)
      opRes := .ok } := by
  rw [getField, if_neg (by simp [hv]; omega), within_ok]
  simp only [Config.bufSize, Config.rxbufSize]; omega

theorem getField_refused {w : Nat} {dec : List Byte → Word32} {scale : Word32} {s : State}
    (h : s.rxValid = false ∨ s.rxLen.toNat < s.rxCur.toNat + w) :
    getField w dec scale s = .next (s.raise .bounds) := by
  rw [getField, if_pos (by omega)]

theorem getScaled_zero (w : Nat) (dec : List Byte → Word32) (s : State) :
    getScaled w dec 0 s = .next (s.raise .arg) := by
  simp [getScaled]

theorem getScaled_nonzero {w : Nat} {dec : List Byte → Word32} {scale : Word32} (s : State) (h : scale ≠ 0) :
    getScaled w dec scale s = getField w dec scale s := by
  rw [getScaled, if_neg h]

/-! ### The decode site (44_command_dispatch.md R330) -/

/-- What a decode can change, as the values it leaves there. -/
structure Decoded where
  decId : Byte
  decRes : ResultCode
  fwMajor : Byte
  fwMinor : Byte
  fwValid : Bool
  latest : Vector (BitVec 32) 18
  prev : Vector (BitVec 32) 18
  latestValid : Bool
  prevValid : Bool
  diagLog : List DiagEvent

/-- `s` with the decoded values. -/
def State.withDecoded (s : State) (d : Decoded) : State :=
  { s with
    decId := d.decId, decRes := d.decRes, fwMajor := d.fwMajor, fwMinor := d.fwMinor, fwValid := d.fwValid
    latest := d.latest, prev := d.prev, latestValid := d.latestValid, prevValid := d.prevValid
    diagLog := d.diagLog }

/-- What the snapshots' valid flags may become: kept, or `LATEST_VALID` set (R332). -/
def Decoded.ValidKept (s : State) (d : Decoded) : Prop :=
  d.prevValid = s.prevValid ∧ d.latestValid = s.latestValid ∨ d.latestValid = true

/-- The decoded values of `s` itself. -/
def State.decoded (s : State) : Decoded :=
  ⟨s.decId, s.decRes, s.fwMajor, s.fwMinor, s.fwValid, s.latest, s.prev, s.latestValid, s.prevValid, s.diagLog⟩

/-- A report of an event is within what a decode can do. -/
theorem diag_decoded (s : State) (ev : DiagEvent) :
    ∃ d, s.diag ev = s.withDecoded d ∧ d.ValidKept s :=
  ⟨{ s.decoded with diagLog := (s.diag ev).diagLog }, rfl, .inl ⟨rfl, rfl⟩⟩

theorem decodeFw_cases (p : List Byte) (s : State) :
    ∃ d, (decodeFw p s).1 = s.withDecoded d ∧ d.ValidKept s := by
  rw [decodeFw]
  by_cases h : p.length < 3
  · rw [if_pos h]; exact diag_decoded s _
  · rw [if_neg h]
    exact ⟨{ s.decoded with fwMajor := p.getD 1 0, fwMinor := p.getD 2 0, fwValid := true }, rfl, .inl ⟨rfl, rfl⟩⟩

theorem applyTelem_cases (p : List Byte) (m : Word32) (sel : Bool) (s : State) :
    ∃ d, (applyTelem p m sel s).1 = s.withDecoded d ∧ d.ValidKept s := by
  by_cases h : p.length < needBytes m sel
  · rw [applyTelem, if_pos h]; exact diag_decoded s _
  · rw [applyTelem, if_neg h]
    exact ⟨{ s.decoded with
      prev := s.latest, prevValid := s.latestValid, latestValid := true
      latest := walkFields m Config.telemTable (p.drop (if sel then 5 else 1)) s.latest }, rfl, .inr rfl⟩

theorem decodeSelective_cases (p : List Byte) (s : State) :
    ∃ d, (decodeSelective p s).1 = s.withDecoded d ∧ d.ValidKept s := by
  by_cases h : p.length < 5
  · rw [decodeSelective, if_pos h]; exact diag_decoded s _
  · rw [decodeSelective, if_neg h]; exact applyTelem_cases _ _ _ _

/-- Everything a decode can do: it writes `DEC_ID`, `DEC_RES`, the version, the snapshots with their flags,
and the event log; its result is `OK` or `DECODE_FAIL`; and a `PREV_VALID` that it changes stands beside a
set `LATEST_VALID` (R330 to R332). -/
theorem decodeSite_cases (p : List Byte) (s : State) :
    ∃ d : Decoded, decodeSite p s = s.withDecoded d ∧ (d.decRes = .ok ∨ d.decRes = .decodeFail) ∧
      d.ValidKept s := by
  have wrap : ∀ (id : Byte) (r : State × Bool),
      (∃ d, r.1 = ({ s with decId := id } : State).withDecoded d ∧ d.ValidKept { s with decId := id }) →
      ∃ d : Decoded, r.1.withDecRes (if r.2 then .ok else .decodeFail) = s.withDecoded d ∧
        (d.decRes = .ok ∨ d.decRes = .decodeFail) ∧ d.ValidKept s := by
    rintro id r ⟨d, e, h⟩
    refine ⟨{ d with decRes := if r.2 then .ok else .decodeFail }, by rw [e]; rfl, ?_, h⟩
    cases r.2
    · exact .inr rfl
    · exact .inl rfl
  cases p with
  | nil =>
    exact ⟨{ s.decoded with
      decId := 0, decRes := .decodeFail, diagLog := (s.diag .unknownCmd).diagLog }, rfl, .inr rfl, .inl ⟨rfl, rfl⟩⟩
  | cons id body =>
    refine wrap id (decodeBody id (id :: body) { s with decId := id }) ?_
    by_cases h1 : id = Config.cmdId .fwVersion
    · rw [decodeBody, if_pos h1]; exact decodeFw_cases _ _
    · by_cases h2 : id = Config.cmdId .getValues
      · rw [decodeBody, if_neg h1, if_pos h2]; exact applyTelem_cases _ _ _ _
      · by_cases h3 : id = Config.cmdId .getValuesSelective
        · rw [decodeBody, if_neg h1, if_neg h2, if_pos h3]; exact decodeSelective_cases _ _
        · rw [decodeBody, if_neg h1, if_neg h2, if_neg h3]; exact diag_decoded _ _

/-! ### The receiver (43_receiver.md R232 to R241) -/

/-- Everything the end of a receive writes besides its completion: the result, the view on `OK`, the event
log (R241, R243). -/
theorem endReceive_eq (rc : ResultCode) (s : State) :
    endReceive rc s = { s with
      rxResult := rc
      rxLen := if rc = .ok then s.rxDecl else s.rxLen
      rxValid := if rc = .ok then true else s.rxValid
      rxCur := if rc = .ok then 0 else s.rxCur
      diagLog := if rc = .ok then (s.diag .frameOk).diagLog
        else if rc = .crcFail then (s.diag .crcFail).diagLog else s.diagLog } := by
  unfold endReceive
  split_ifs <;> rfl

/-- Outside a blocking receive, `finish` only ends the receive (R241). -/
theorem finish_armed {s : State} (h : s.rxMode ≠ .blocking) (rc : ResultCode) :
    finish rc s = .next (endReceive rc s) := by
  rw [finish, if_neg h]

/-- In a blocking receive, `finish` also completes the operation (R241). -/
theorem finish_blocking {s : State} (h : s.rxMode = .blocking) (rc : ResultCode) :
    finish rc s = andThen (completeOp rc (endReceive rc s).receiverIdle) fun s => .next s.ready := by
  rw [finish, if_pos h]

/-- An expired receive ends with `TIMEOUT` and takes no byte (R238, R240). -/
theorem rxStep_expired {s : State} (h : expired s = true) :
    rxStep s = finish .timeout (s.diag .timeout) := by
  simp [rxStep, h]

theorem rxStep_empty {s : State} (h : expired s = false) (hq : s.rxQueue = []) : rxStep s = .next s := by
  simp [rxStep, h, hq]

theorem rxStep_byte {s : State} {b : Byte} {queue : List Byte} (h : expired s = false)
    (hq : s.rxQueue = b :: queue) : rxStep s = rxByte b { s with rxQueue := queue } := by
  simp [rxStep, h, hq]

theorem rxByte_stores {b : Byte} {s : State} (h : s.rxCnt.toNat < Config.rxbufSize) :
    rxByte b s =
      if s.rxCnt + 1 = 2 then rxHeader { s with rxbuf := s.rxbuf.put s.rxCnt.toNat b, rxCnt := s.rxCnt + 1 }
      else rxComplete { s with rxbuf := s.rxbuf.put s.rxCnt.toNat b, rxCnt := s.rxCnt + 1 } := by
  rw [rxByte, within_ok (by simp only [Config.bufSize]; omega)]

theorem rxSteps_zero (s : State) : rxSteps 0 s = .next s := rfl

theorem rxSteps_succ (k : Nat) (s : State) :
    rxSteps (k + 1) s = andThen (rxStep s) fun s => if s.rxResult ≠ .none then .next s else rxSteps k s := rfl

/-- The end of a receive leaves its result in `RX_RESULT`, whatever it completes (R241). -/
theorem completeOp_result {rc : ResultCode} {s t : State} (h : completeOp rc s = .next t) :
    t.rxResult = s.rxResult := by
  have key : ∀ c, completeRequest c rc s = .next t → t.rxResult = s.rxResult := by
    intro c hc
    by_cases hok : rc = .ok
    · simp only [completeRequest, if_pos hok] at hc
      obtain ⟨_, hc⟩ := within_eq_next.1 hc
      obtain ⟨d, hd, _, _⟩ := decodeSite_cases s.view s
      rw [hd] at hc
      rw [← Host.Outcome.next.inj hc]; rfl
    · simp only [completeRequest, if_neg hok] at hc
      rw [← Host.Outcome.next.inj hc]; rfl
  by_cases h0 : s.opCur = 0x30
  · rw [completeOp, if_pos h0] at h; rw [← Host.Outcome.next.inj h]; rfl
  · rw [completeOp, if_neg h0] at h
    split_ifs at h with h1 h2 h3
    · exact key _ h
    · exact key _ h
    · exact key _ h

theorem finish_result {rc : ResultCode} {s t : State} (h : finish rc s = .next t) : t.rxResult = rc := by
  have e : (endReceive rc s).rxResult = rc := by rw [endReceive_eq]
  by_cases hm : s.rxMode = .blocking
  · rw [finish_blocking hm] at h
    obtain ⟨u, hu, hv⟩ := andThen_eq_next.1 h
    rw [← Host.Outcome.next.inj hv, State.ready_rxResult, completeOp_result hu]
    exact e
  · rw [finish_armed hm] at h
    rw [← Host.Outcome.next.inj h]; exact e

/-- The completion rule ends the receive or leaves the state as it is (R237). -/
theorem rxComplete_cases {s t : State} (h : rxComplete s = .next t) : t.rxResult ≠ .none ∨ t = s := by
  unfold rxComplete at h
  split_ifs at h
  · left; rw [finish_result h]; simp
  · left; rw [finish_result h]; simp
  · left; rw [finish_result h]; simp
  · right; exact (Host.Outcome.next.inj h).symm

/-- A receive step that does not end the receive keeps its mode (R238). -/
theorem rxStep_mode {s t : State} (h : rxStep s = .next t) (hr : t.rxResult = .none) : t.rxMode = s.rxMode := by
  by_cases he : expired s = true
  · rw [rxStep_expired he] at h; rw [finish_result h] at hr; cases hr
  · have he : expired s = false := by simpa using he
    cases hq : s.rxQueue with
    | nil => rw [rxStep_empty he hq] at h; rw [Host.Outcome.next.inj h]
    | cons b q =>
      rw [rxStep_byte he hq] at h
      unfold rxByte at h
      obtain ⟨_, h⟩ := within_eq_next.1 h
      simp only [] at h
      split_ifs at h with h2
      · unfold rxHeader at h
        simp only [] at h
        split_ifs at h
        · rw [← Host.Outcome.next.inj h]; rfl
        · rcases rxComplete_cases h with h | h
          · exact absurd hr h
          · rw [h]
        · rw [finish_result h] at hr; cases hr
        · rw [← Host.Outcome.next.inj h]; rfl
      · rcases rxComplete_cases h with h | h
        · exact absurd hr h
        · rw [h]

/-! ### The expected length (43_receiver.md R234) -/

theorem rxExp_valid (d : Byte) : (0x8000 ||| BitVec.ofNat 16 (d.toNat + 5)).getLsbD 15 = true := by
  revert d; decide

theorem rxExp_length {d : Byte} (h : d.toNat ≤ 251) :
    ((0x8000 ||| BitVec.ofNat 16 (d.toNat + 5)).extractLsb' 0 9 : BitVec 9).toNat = d.toNat + 5 := by
  revert h; revert d; decide

theorem rxExp_reserved {d : Byte} (h : d.toNat ≤ 251) :
    ((0x8000 ||| BitVec.ofNat 16 (d.toNat + 5)).extractLsb' 9 6 : BitVec 6) = 0 := by
  revert h; revert d; decide

/-! ### The two bytes of a CRC (20_memory.md R80) -/

theorem extract_hi (a b : Byte) : (a ++ b : BitVec 16).extractLsb' 8 8 = a := by
  ext i hi
  rw [BitVec.getElem_extractLsb']
  refine (BitVec.getLsbD_append (x := a) (y := b) (i := 8 + i)).trans ?_
  simp [BitVec.getLsbD_eq_getElem hi]

theorem extract_lo (a b : Byte) : (a ++ b : BitVec 16).extractLsb' 0 8 = b := by
  ext i hi
  rw [BitVec.getElem_extractLsb']
  refine (BitVec.getLsbD_append (x := a) (y := b) (i := 0 + i)).trans ?_
  simp [hi]

/-! ### Commands (44_command_dispatch.md R291, R300, R340) -/

/-- No command builds more than 13 bytes (42_frame_codec.md R202). -/
theorem addressed_length (c : Command) (can : Byte) : (c.addressed can).length ≤ 13 := by
  have h2 : (if can ≠ 0 then [Config.cmdId CommandName.forwardCan, can] else []).length ≤ 2 := by
    split_ifs <;> simp
  have h3 : c.payload.length ≤ 11 := by
    cases c <;> simp [Command.payload, Command.args, enc32, encBool, Config.auxPad]
  rw [Command.addressed, List.length_append]; omega

theorem length_shortFrame (p : List Byte) : (shortFrame p).length = p.length + 5 := by
  simp [shortFrame, frameTail]

theorem frameEncode_short {p : List Byte} (h : p.length ≤ 255) : frameEncode p = shortFrame p := by
  rw [frameEncode, if_pos h]

/-- Everything `Build` and `Send` write. -/
theorem buildAndSend_eq (c : Command) (can : Byte) (s : State) :
    buildAndSend c can s = { s with
      txpay := s.txpay.putAll 0 (c.addressed can)
      txCur := BitVec.ofNat 16 (c.addressed can).length
      txOut := s.txOut ++ frameEncode (c.addressed can)
      txCount := BitVec.ofNat 17 (frameEncode (c.addressed can)).length
      diagLog := (s.diag .frameSent).diagLog } := rfl

/-- Everything a request without a response does, when it is accepted. -/
theorem requestOnly_ready {s : State} (hb : s.busy = false) (sel : Byte) (c : Command) (can : Byte) :
    requestOnly sel c can s = .next { s with
      txpay := s.txpay.putAll 0 (c.addressed can)
      txCur := BitVec.ofNat 16 (c.addressed can).length
      txOut := s.txOut ++ frameEncode (c.addressed can)
      txCount := BitVec.ofNat 17 (frameEncode (c.addressed can)).length
      diagLog := (s.diag .frameSent).diagLog
      reqCmd := Config.cmdId c.name, reqState := .done, reqResult := .sent, opRes := .sent, opCur := 0 } := by
  rw [requestOnly, accept_ready hb, requestSend, buildAndSend_eq]; rfl

/-- Everything the issue of a request with a response does, when it is accepted. -/
theorem requestAndAwait_ready {s : State} (hb : s.busy = false) (sel : Byte) (c : Command) (can : Byte) :
    requestAndAwait sel c can s = .next (rxStart s.cfgTimeout .blocking { s with
      txpay := s.txpay.putAll 0 (c.addressed can)
      txCur := BitVec.ofNat 16 (c.addressed can).length
      txOut := s.txOut ++ frameEncode (c.addressed can)
      txCount := BitVec.ofNat 17 (frameEncode (c.addressed can)).length
      diagLog := (s.diag .frameSent).diagLog
      reqCmd := Config.cmdId c.name, reqState := .awaiting, reqResult := .none, opCur := sel }) := by
  rw [requestAndAwait, accept_ready hb, requestSend, buildAndSend_eq]; rfl

end Sys2Proof.Machine
end

