-- ==== Sys2Proof/Laws/PerInstr.lean ====
section
/-! SUPPORT. One lemma per instruction: what a well-formed instruction is encoded in fits the port it is
encoded for (30_encoding.md). -/

namespace Sys2Proof.Laws

open Sys2Proof.Machine

/-- An item that its port can carry: an operation word whose selector is not reserved (R110, R114), a payload
that fits its buffer (R105, R106), a frame of the size of one of the two forms (R100, R101), a received frame
that starts with a start marker (R102). -/
def ItemFits : Item → Prop
  | .host w => ¬ reservedSelector (wordSel w)
  | .payloadOut bytes => 0 < bytes.length ∧ bytes.length ≤ 13
  | .payloadIn bytes => 0 < bytes.length ∧ bytes.length ≤ 251
  | .frameOut bytes => 5 ≤ bytes.length ∧ bytes.length ≤ 65541
  | .frameIn bytes => bytes.head? = some Config.startShort ∨ bytes.head? = some Config.startLong

/-- The encoding of a well-formed instruction fits its port. -/
def EncodingFits.Statement (i : Instr) : Prop := i.wf = true → ItemFits (encode i)

theorem host_fits {sel : Byte} (f1 f2 f3 : Byte) (imm : Word32) {p : Prop} (h : ¬ reservedSelector sel) :
    p → ItemFits (.host (hostWord sel f1 f2 f3 imm)) := fun _ => by
  show ¬ reservedSelector (wordSel _)
  rw [wordSel_hostWord]; exact h

theorem payload_size (c : Command) : 0 < c.payload.length ∧ c.payload.length ≤ 11 := by
  cases c <;> simp [Command.payload, Command.args, enc32, encBool, Config.auxPad]

theorem addressed_size (c : Command) (can : Byte) :
    0 < (c.addressed can).length ∧ (c.addressed can).length ≤ 13 := by
  have h := payload_size c
  unfold Command.addressed
  split_ifs <;> simp <;> omega

theorem wire_fits {α : Type} {name : CommandName} {out : α → List Byte} {w : Wire α} {p : Prop}
    (ho : ∀ a, 0 < (out a).length ∧ (out a).length ≤ 13)
    (hi : p → ∀ rest, w = .inbound rest → rest.length ≤ 250) (h : p) : ItemFits (encodeWire name out w) := by
  cases w with
  | outbound a => exact ho a
  | inbound rest =>
    have := hi h rest rfl
    exact ⟨Nat.succ_pos _, Nat.succ_le_succ this⟩

theorem payload_bound (c : Command) : 0 < c.payload.length ∧ c.payload.length ≤ 13 :=
  ⟨(payload_size c).1, (payload_size c).2.trans (by decide)⟩

theorem inbound_short {α : Type} {w : Wire α} (h : w.wfInbound = true) (rest : List Byte)
    (hw : w = .inbound rest) : rest.length ≤ 250 := by
  subst hw; simpa [Wire.wfInbound] using h

theorem EncodingFits.crc16 (buf : Buffer) (off n : BitVec 16) : EncodingFits.Statement (.crc16 buf off n) :=
  host_fits _ _ _ _ (by unfold reservedSelector; decide)

theorem EncodingFits.payReset : EncodingFits.Statement .payReset :=
  host_fits _ _ _ _ (by unfold reservedSelector; decide)

theorem EncodingFits.appendU8 (v : Byte) : EncodingFits.Statement (.appendU8 v) :=
  host_fits _ _ _ _ (by unfold reservedSelector; decide)

theorem EncodingFits.appendBool (b : Bool) : EncodingFits.Statement (.appendBool b) :=
  host_fits _ _ _ _ (by unfold reservedSelector; decide)

theorem EncodingFits.appendInt32 (v : Word32) : EncodingFits.Statement (.appendInt32 v) :=
  host_fits _ _ _ _ (by unfold reservedSelector; decide)

theorem EncodingFits.appendUint32 (v : Word32) : EncodingFits.Statement (.appendUint32 v) :=
  host_fits _ _ _ _ (by unfold reservedSelector; decide)

theorem EncodingFits.rxSeek (p : Byte) : EncodingFits.Statement (.rxSeek p) :=
  host_fits _ _ _ _ (by unfold reservedSelector; decide)

theorem EncodingFits.getU8 : EncodingFits.Statement .getU8 :=
  host_fits _ _ _ _ (by unfold reservedSelector; decide)

theorem EncodingFits.getInt32 : EncodingFits.Statement .getInt32 :=
  host_fits _ _ _ _ (by unfold reservedSelector; decide)

theorem EncodingFits.getUint32 : EncodingFits.Statement .getUint32 :=
  host_fits _ _ _ _ (by unfold reservedSelector; decide)

theorem EncodingFits.getFloat16 (scale : Word32) : EncodingFits.Statement (.getFloat16 scale) :=
  host_fits _ _ _ _ (by unfold reservedSelector; decide)

theorem EncodingFits.getFloat32 (scale : Word32) : EncodingFits.Statement (.getFloat32 scale) :=
  host_fits _ _ _ _ (by unfold reservedSelector; decide)

theorem EncodingFits.frameSend : EncodingFits.Statement .frameSend :=
  host_fits _ _ _ _ (by unfold reservedSelector; decide)

theorem EncodingFits.frameCheck (n : Word32) : EncodingFits.Statement (.frameCheck n) :=
  host_fits _ _ _ _ (by unfold reservedSelector; decide)

theorem EncodingFits.recvBlocking (t : Time) : EncodingFits.Statement (.recvBlocking t) :=
  host_fits _ _ _ _ (by unfold reservedSelector; decide)

theorem EncodingFits.arm (hint : BitVec 16) : EncodingFits.Statement (.arm hint) :=
  host_fits _ _ _ _ (by unfold reservedSelector; decide)

theorem EncodingFits.poll : EncodingFits.Statement .poll :=
  host_fits _ _ _ _ (by unfold reservedSelector; decide)

theorem EncodingFits.decodePayload : EncodingFits.Statement .decodePayload :=
  host_fits _ _ _ _ (by unfold reservedSelector; decide)

theorem EncodingFits.reqFwVersion (can : Byte) : EncodingFits.Statement (.reqFwVersion can) :=
  host_fits _ _ _ _ (by unfold reservedSelector; decide)

theorem EncodingFits.reqValues (can : Byte) : EncodingFits.Statement (.reqValues can) :=
  host_fits _ _ _ _ (by unfold reservedSelector; decide)

theorem EncodingFits.reqValuesSel (can : Byte) (mask : Word32) : EncodingFits.Statement (.reqValuesSel can mask) :=
  host_fits _ _ _ _ (by unfold reservedSelector; decide)

theorem EncodingFits.setCurrent (can : Byte) (v : Word32) : EncodingFits.Statement (.setCurrent can v) :=
  host_fits _ _ _ _ (by unfold reservedSelector; decide)

theorem EncodingFits.setCurrentBrake (can : Byte) (v : Word32) : EncodingFits.Statement (.setCurrentBrake can v) :=
  host_fits _ _ _ _ (by unfold reservedSelector; decide)

theorem EncodingFits.setRpm (can : Byte) (v : Word32) : EncodingFits.Statement (.setRpm can v) :=
  host_fits _ _ _ _ (by unfold reservedSelector; decide)

theorem EncodingFits.setPos (can : Byte) (v : Word32) : EncodingFits.Statement (.setPos can v) :=
  host_fits _ _ _ _ (by unfold reservedSelector; decide)

theorem EncodingFits.setDuty (can : Byte) (v : Word32) : EncodingFits.Statement (.setDuty can v) :=
  host_fits _ _ _ _ (by unfold reservedSelector; decide)

theorem EncodingFits.setAux (can : Byte) : EncodingFits.Statement (.setAux can) :=
  host_fits _ _ _ _ (by unfold reservedSelector; decide)

theorem EncodingFits.sendAlive (can : Byte) : EncodingFits.Statement (.sendAlive can) :=
  host_fits _ _ _ _ (by unfold reservedSelector; decide)

theorem EncodingFits.auxWrite (x y : Byte) (lower upper : Bool) : EncodingFits.Statement (.auxWrite x y lower upper) :=
  host_fits _ _ _ _ (by unfold reservedSelector; decide)

theorem EncodingFits.cfgTimeout (t : Time) : EncodingFits.Statement (.cfgTimeout t) :=
  host_fits _ _ _ _ (by unfold reservedSelector; decide)

theorem EncodingFits.clrErr : EncodingFits.Statement .clrErr :=
  host_fits _ _ _ _ (by unfold reservedSelector; decide)

theorem EncodingFits.commFwVersion (w : Wire Unit) : EncodingFits.Statement (.commFwVersion w) :=
  wire_fits (fun _ => payload_bound _) inbound_short

theorem EncodingFits.commGetValues (w : Wire Unit) : EncodingFits.Statement (.commGetValues w) :=
  wire_fits (fun _ => payload_bound _) inbound_short

theorem EncodingFits.commSetDuty (w : Wire Word32) : EncodingFits.Statement (.commSetDuty w) :=
  wire_fits (fun _ => payload_bound _) inbound_short

theorem EncodingFits.commSetCurrent (w : Wire Word32) : EncodingFits.Statement (.commSetCurrent w) :=
  wire_fits (fun _ => payload_bound _) inbound_short

theorem EncodingFits.commSetCurrentBrake (w : Wire Word32) : EncodingFits.Statement (.commSetCurrentBrake w) :=
  wire_fits (fun _ => payload_bound _) inbound_short

theorem EncodingFits.commSetRpm (w : Wire Word32) : EncodingFits.Statement (.commSetRpm w) :=
  wire_fits (fun _ => payload_bound _) inbound_short

theorem EncodingFits.commSetPos (w : Wire Word32) : EncodingFits.Statement (.commSetPos w) :=
  wire_fits (fun _ => payload_bound _) inbound_short

theorem EncodingFits.commAlive (w : Wire Unit) : EncodingFits.Statement (.commAlive w) :=
  wire_fits (fun _ => payload_bound _) inbound_short

theorem EncodingFits.commForwardCan (w : Wire (Byte × Command)) : EncodingFits.Statement (.commForwardCan w) :=
  wire_fits (fun a => addressed_size a.2 a.1) fun h rest hw => by
    subst hw; exact inbound_short (w := (.inbound rest : Wire (Byte × Command))) h rest rfl

theorem EncodingFits.commSetChuckData (w : Wire (Byte × Byte × Bool × Bool)) : EncodingFits.Statement (.commSetChuckData w) :=
  wire_fits (fun _ => payload_bound _) inbound_short

theorem EncodingFits.commGetValuesSelective (w : Wire Word32) : EncodingFits.Statement (.commGetValuesSelective w) :=
  wire_fits (fun _ => payload_bound _) inbound_short

theorem EncodingFits.frameShort (w : Wire (List Byte)) : EncodingFits.Statement (.frameShort w) := by
  intro h
  cases w with
  | outbound p =>
    have hp : p.length ≤ 255 := by simpa [Instr.wf] using h
    simp only [encode, ItemFits, frameEncode, if_pos hp, shortFrame, frameTail]
    simp; omega
  | inbound rest => exact .inl rfl

theorem EncodingFits.frameLong (w : Wire (List Byte)) : EncodingFits.Statement (.frameLong w) := by
  intro h
  cases w with
  | outbound p =>
    have hp : 256 ≤ p.length ∧ p.length ≤ 65535 := by simpa [Instr.wf] using h
    simp only [encode, ItemFits, frameEncode, if_neg (show ¬ p.length ≤ 255 by omega), longFrame, frameTail]
    simp; omega
  | inbound rest => exact .inr rfl

end Sys2Proof.Laws
end

