-- ==== Sys2Proof/Machine/Assembly.lean ====
section
/-! DEFINITION. The assembly syntax of the host operations (30_encoding.md R130): one operation a line, the
mnemonic of R110, its named operands separated by commas, `;` before a comment. No step of the machine uses
it. -/

namespace Sys2Proof.Machine

/-- A line's text before its comment. -/
def withoutComment (line : List Char) : List Char := line.takeWhile (· ≠ ';')

/-- The characters of a word without the spaces around it. -/
def stripSpaces (cs : List Char) : List Char :=
  ((cs.dropWhile (· = ' ')).reverse.dropWhile (· = ' ')).reverse

/-- The value of a digit, decimal or hexadecimal. -/
def digitValue (c : Char) : Option Nat :=
  if '0' ≤ c ∧ c ≤ '9' then some (c.toNat - '0'.toNat)
  else if 'a' ≤ c ∧ c ≤ 'f' then some (c.toNat - 'a'.toNat + 10)
  else if 'A' ≤ c ∧ c ≤ 'F' then some (c.toNat - 'A'.toNat + 10)
  else none

/-- Digits in a base, the first most significant. -/
def readDigits (base : Nat) : List Char → Option Nat
  | [] => none
  | cs => cs.foldl (fun acc c =>
      match acc, digitValue c with
      | some n, some d => if d < base then some (n * base + d) else none
      | _, _ => none) (some 0)

/-- A number without a sign: `0x` marks hexadecimal, a bare number is decimal (R130). -/
def readNat : List Char → Option Nat
  | '0' :: 'x' :: cs => readDigits 16 cs
  | cs => readDigits 10 cs

/-- An operand's value: a number, or a buffer's name, 0 for `TX` and 1 for `RX` (R130). -/
def readValue : List Char → Option Int
  | ['T', 'X'] => some 0
  | ['R', 'X'] => some 1
  | '-' :: cs => (readNat cs).map fun n => -(n : Int)
  | cs => (readNat cs).map fun n => (n : Int)

/-- An operand: its name, `=`, its value. -/
def readOperand (cs : List Char) : Option (List Char × Int) :=
  match (readValue (stripSpaces ((cs.dropWhile (· ≠ '=')).drop 1))) with
  | some v => some (stripSpaces (cs.takeWhile (· ≠ '=')), v)
  | none => none

/-- The named operands of a line. -/
abbrev NamedOperands := List (List Char × Int)

/-- An operand of the given range; an omitted one is 0 (R130). -/
def NamedOperands.within (ops : NamedOperands) (name : String) (low high : Int) : Option Int :=
  let v := (ops.lookup name.toList).getD 0
  if low ≤ v ∧ v ≤ high then some v else none

/-- A `u8` operand. -/
def NamedOperands.byte (ops : NamedOperands) (name : String) : Option Byte :=
  (ops.within name 0 255).map (BitVec.ofInt 8)

/-- A 16-bit unsigned operand. -/
def NamedOperands.half (ops : NamedOperands) (name : String) : Option (BitVec 16) :=
  (ops.within name 0 65535).map (BitVec.ofInt 16)

/-- A `u32` operand. -/
def NamedOperands.word (ops : NamedOperands) (name : String) : Option Word32 :=
  (ops.within name 0 4294967295).map (BitVec.ofInt 32)

/-- An `s32` operand (R112). -/
def NamedOperands.signed (ops : NamedOperands) (name : String) : Option Word32 :=
  (ops.within name (-2147483648) 2147483647).map (BitVec.ofInt 32)

/-- A one-bit operand. -/
def NamedOperands.bit (ops : NamedOperands) (name : String) : Option Bool :=
  (ops.within name 0 1).map fun v => v == 1

/-- A scale, which a line may not omit (R130). -/
def NamedOperands.scale (ops : NamedOperands) : Option Word32 :=
  if (ops.lookup "s".toList).isSome then ops.word "s" else none

/-- The operands of each mnemonic, in the order of R110's table. -/
def operandNames (mnemonic : String) : List String :=
  match mnemonic with
  | "CRC16" => ["buf", "off", "n"]
  | "APPEND_U8" => ["v"]
  | "APPEND_BOOL" => ["b"]
  | "APPEND_INT32" => ["v"]
  | "APPEND_UINT32" => ["v"]
  | "RX_SEEK" => ["p"]
  | "GET_FLOAT16" => ["s"]
  | "GET_FLOAT32" => ["s"]
  | "FRAME_CHECK" => ["n"]
  | "RECV_BLOCKING" => ["t"]
  | "ARM" => ["h"]
  | "REQ_FW_VERSION" => ["can"]
  | "REQ_VALUES" => ["can"]
  | "REQ_VALUES_SEL" => ["can", "mask"]
  | "SET_CURRENT" => ["can", "v"]
  | "SET_CURRENT_BRAKE" => ["can", "v"]
  | "SET_RPM" => ["can", "v"]
  | "SET_POS" => ["can", "v"]
  | "SET_DUTY" => ["can", "v"]
  | "SET_AUX" => ["can"]
  | "SEND_ALIVE" => ["can"]
  | "AUX_WRITE" => ["x", "y", "lower", "upper"]
  | "CFG_TIMEOUT" => ["t"]
  | _ => []

/-- The instruction of a mnemonic of R110 with its operands. -/
def assembleOperands (mnemonic : String) (ops : NamedOperands) : Option Instr :=
  match mnemonic with
  | "CRC16" => do
    let buf ← ops.bit "buf"
    return .crc16 (if buf then .rxbuf else .txpay) (← ops.half "off") (← ops.half "n")
  | "PAY_RESET" => some .payReset
  | "APPEND_U8" => return .appendU8 (← ops.byte "v")
  | "APPEND_BOOL" => return .appendBool ((← ops.byte "b") != 0)
  | "APPEND_INT32" => return .appendInt32 (← ops.signed "v")
  | "APPEND_UINT32" => return .appendUint32 (← ops.word "v")
  | "RX_SEEK" => return .rxSeek (← ops.byte "p")
  | "GET_U8" => some .getU8
  | "GET_INT32" => some .getInt32
  | "GET_UINT32" => some .getUint32
  | "GET_FLOAT16" => return .getFloat16 (← ops.scale)
  | "GET_FLOAT32" => return .getFloat32 (← ops.scale)
  | "FRAME_SEND" => some .frameSend
  | "FRAME_CHECK" => return .frameCheck (← ops.word "n")
  | "RECV_BLOCKING" => return .recvBlocking (← ops.word "t")
  | "ARM" => return .arm (← ops.half "h")
  | "POLL" => some .poll
  | "DECODE_PAYLOAD" => some .decodePayload
  | "REQ_FW_VERSION" => return .reqFwVersion (← ops.byte "can")
  | "REQ_VALUES" => return .reqValues (← ops.byte "can")
  | "REQ_VALUES_SEL" => return .reqValuesSel (← ops.byte "can") (← ops.word "mask")
  | "SET_CURRENT" => return .setCurrent (← ops.byte "can") (← ops.signed "v")
  | "SET_CURRENT_BRAKE" => return .setCurrentBrake (← ops.byte "can") (← ops.signed "v")
  | "SET_RPM" => return .setRpm (← ops.byte "can") (← ops.signed "v")
  | "SET_POS" => return .setPos (← ops.byte "can") (← ops.signed "v")
  | "SET_DUTY" => return .setDuty (← ops.byte "can") (← ops.signed "v")
  | "SET_AUX" => return .setAux (← ops.byte "can")
  | "SEND_ALIVE" => return .sendAlive (← ops.byte "can")
  | "AUX_WRITE" => return .auxWrite (← ops.byte "x") (← ops.byte "y") (← ops.bit "lower") (← ops.bit "upper")
  | "CFG_TIMEOUT" => return .cfgTimeout (← ops.word "t")
  | "CLR_ERR" => some .clrErr
  | _ => none

/-- The instruction of one line of assembly; none for a line that is not in R130's syntax (log entry 23). -/
def assembleLine (line : String) : Option Instr :=
  let text := stripSpaces (withoutComment line.toList)
  let mnemonic := String.ofList (text.takeWhile (· ≠ ' '))
  let rest := stripSpaces (text.dropWhile (· ≠ ' '))
  match (if rest = [] then some [] else (rest.splitOn ',').mapM readOperand) with
  | none => none
  | some ops =>
    if (ops.map Prod.fst).isSublist ((operandNames mnemonic).map String.toList) then
      assembleOperands mnemonic ops
    else none

end Sys2Proof.Machine
end

