-- ==== Sys2Proof/Tests/Slice0.lean ====
section
/-! SUPPORT. Tests of the model. The expected results of the decode and step tests are those of
95_test_vectors.md (the vector is named) and of the worked examples of the rules; the witness theorems show,
for each obligation that has hypotheses, a concrete state and operands that meet them. -/

namespace Sys2Proof.Tests

open Sys2Proof.Machine

-- One kernel check at a time, so that the file builds with any thread stack size.
set_option Elab.async false

/-! ### Helpers -/

/-- What `f` reads in the next state, if there is one. -/
def after {α : Type} (r : Res) (f : State → α) : Option α :=
  match r with
  | .next t => some (f t)
  | .fault _ => none
  | .refused _ => none

/-- Does the item decode to `i`? -/
def reads (item : Item) (i : Instr) : Bool :=
  match decode item with
  | .ok j => decide (j = i)
  | .error _ => false

/-- After reset, with bytes at the start of `TXPAY` and the cursor behind them. -/
def assembled (p : List Byte) : State :=
  { State.reset with txpay := Memory.putAll [] 0 p, txCur := BitVec.ofNat 16 p.length }

/-- After reset, with the payload view `p`. -/
def viewing (p : List Byte) : State :=
  { State.reset with rxbuf := Memory.putAll [] 2 p, rxLen := BitVec.ofNat 8 p.length, rxValid := true }

/-- A fresh armed receive at time 0 with bytes waiting. -/
def armed (queue : List Byte) : State := { rxStart 100 .armed State.reset with rxQueue := queue }

/-- A fresh blocking receive of the operation `sel` at time 0 with bytes waiting. -/
def blocking (sel : Byte) (queue : List Byte) : State :=
  { rxStart 100 .blocking { State.reset with opCur := sel } with rxQueue := queue }

/-- The operation word `w` runs on `s`. -/
def present (w : OpWord) (s : State) : Res := step { s with sched := [.op w] }

/-- The frame that the spec calls good. -/
def good : List Byte := [0x02, 0x05, 0x06, 0x00, 0x00, 0x13, 0x88, 0x8B, 0x25, 0x03]

/-- The full telemetry payload of V-DEC-7. -/
def fullPayload : List Byte :=
  [0x04, 0x00, 0xFD, 0x01, 0x2C, 0x00, 0x00, 0x04, 0xD2, 0x00, 0x00, 0x02, 0x37, 0x00, 0x00, 0x00, 0x00,
    0xFF, 0xFF, 0xFF, 0x6A, 0x01, 0xF4, 0x00, 0x00, 0x2E, 0xE0, 0x01, 0x6C, 0x00, 0x00, 0x30, 0x39]
    ++ [0x00, 0x00, 0x00, 0x64, 0x00, 0x06, 0xC6, 0x60, 0x00, 0x00, 0x00, 0x00, 0x00, 0x01, 0xE2, 0x40,
      0x00, 0x01, 0xE2, 0x40, 0x00, 0x05, 0x64, 0xEB, 0xA0, 0x01]

/-! ### WellFormed refuses each ill-formed term -/

theorem test_wf_refuses_forward_to_peer_zero :
    (Instr.commForwardCan (.outbound (0, .alive))).wf = false := by decide

theorem test_wf_refuses_short_frame_too_long :
    (Instr.frameShort (.outbound (List.replicate 256 0))).wf = false := by
  simp only [Instr.wf, List.length_replicate]; decide

theorem test_wf_refuses_long_frame_too_short :
    (Instr.frameLong (.outbound (List.replicate 255 0))).wf = false := by
  simp only [Instr.wf, List.length_replicate]; decide

theorem test_wf_refuses_long_frame_too_long :
    (Instr.frameLong (.outbound (List.replicate 65536 0))).wf = false := by
  simp only [Instr.wf, List.length_replicate]; decide

theorem test_wf_refuses_undeliverable_payload :
    (Instr.commFwVersion (.inbound (List.replicate 251 0))).wf = false
      ∧ (Instr.commGetValues (.inbound (List.replicate 251 0))).wf = false
      ∧ (Instr.commSetDuty (.inbound (List.replicate 251 0))).wf = false
      ∧ (Instr.commSetCurrent (.inbound (List.replicate 251 0))).wf = false
      ∧ (Instr.commSetCurrentBrake (.inbound (List.replicate 251 0))).wf = false
      ∧ (Instr.commSetRpm (.inbound (List.replicate 251 0))).wf = false
      ∧ (Instr.commSetPos (.inbound (List.replicate 251 0))).wf = false
      ∧ (Instr.commAlive (.inbound (List.replicate 251 0))).wf = false
      ∧ (Instr.commForwardCan (.inbound (List.replicate 251 0))).wf = false
      ∧ (Instr.commSetChuckData (.inbound (List.replicate 251 0))).wf = false
      ∧ (Instr.commGetValuesSelective (.inbound (List.replicate 251 0))).wf = false := by
  simp only [Instr.wf, Wire.wfInbound, List.length_replicate]; decide

/-! ### Decode: words written out from the tables of 30_encoding.md (R110, R111, R121, R100, R101) -/

theorem test_decode_crc_words :
    reads (.host 0x01FE000300000001) (.crc16 .txpay 510 3) = true
      ∧ reads (.host 0x00FA000700000101) (.crc16 .rxbuf 250 7) = true := by decide

theorem test_decode_append_words :
    reads (.host 0x0000000000000010) .payReset = true
      ∧ reads (.host 0x000000000000A511) (.appendU8 0xA5) = true
      ∧ reads (.host 0x0000000000000012) (.appendBool false) = true
      ∧ reads (.host 0x000000000000FF12) (.appendBool true) = true
      ∧ reads (.host 0x8000000000000013) (.appendInt32 0x80000000) = true
      ∧ reads (.host 0xDEADBEEF00000014) (.appendUint32 0xDEADBEEF) = true := by decide

theorem test_decode_read_words :
    reads (.host 0x0000000000000118) (.rxSeek 1) = true
      ∧ reads (.host 0x0000000000000019) .getU8 = true
      ∧ reads (.host 0x000000000000001A) .getInt32 = true
      ∧ reads (.host 0x000000000000001B) .getUint32 = true
      ∧ reads (.host 0x0000000A0000001C) (.getFloat16 10) = true
      ∧ reads (.host 0x000F42400000001D) (.getFloat32 1000000) = true := by decide

theorem test_decode_frame_words :
    reads (.host 0x0000000000000020) .frameSend = true
      ∧ reads (.host 0x0000010100000021) (.frameCheck 257) = true := by decide

theorem test_decode_receive_words :
    reads (.host 0x0000006400000030) (.recvBlocking 100) = true
      ∧ reads (.host 0x0000000800000031) (.arm 8) = true
      ∧ reads (.host 0x0000000000000032) .poll = true
      ∧ reads (.host 0x0000000000000040) .decodePayload = true := by decide

theorem test_decode_request_words :
    reads (.host 0x0000000000000050) (.reqFwVersion 0) = true
      ∧ reads (.host 0x0000000000000951) (.reqValues 9) = true
      ∧ reads (.host 0x0000008000000352) (.reqValuesSel 3 0x80) = true
      ∧ reads (.host 0xFFFFF63C00000753) (.setCurrent 7 0xFFFFF63C) = true
      ∧ reads (.host 0x000007D000000054) (.setCurrentBrake 0 2000) = true
      ∧ reads (.host 0x00000BB800000055) (.setRpm 0 3000) = true
      ∧ reads (.host 0x000000B400000056) (.setPos 0 180) = true
      ∧ reads (.host 0x0000C35000000057) (.setDuty 0 50000) = true
      ∧ reads (.host 0x0000000000000558) (.setAux 5) = true
      ∧ reads (.host 0x0000000000000959) (.sendAlive 9) = true := by decide

theorem test_decode_configuration_words :
    reads (.host 0x000000000232C860) (.auxWrite 200 50 false true) = true
      ∧ reads (.host 0x000000FA00000070) (.cfgTimeout 250) = true
      ∧ reads (.host 0x0000000000000071) .clrErr = true := by decide

theorem test_decode_reserved_selectors :
    decodeTableWord 64 0x0000000000000002 = none ∧ decodeTableWord 64 0x00000789563412FF = none := by decide

theorem test_decode_outbound_payloads :
    reads (.payloadOut [0x00]) (.commFwVersion (.outbound ())) = true
      ∧ reads (.payloadOut [0x04]) (.commGetValues (.outbound ())) = true
      ∧ reads (.payloadOut [0x05, 0x00, 0x00, 0xC3, 0x50]) (.commSetDuty (.outbound 50000)) = true
      ∧ reads (.payloadOut [0x06, 0xFF, 0xFF, 0xF6, 0x3C]) (.commSetCurrent (.outbound 0xFFFFF63C)) = true
      ∧ reads (.payloadOut [0x07, 0x00, 0x00, 0x07, 0xD0]) (.commSetCurrentBrake (.outbound 2000)) = true
      ∧ reads (.payloadOut [0x08, 0x00, 0x00, 0x0B, 0xB8]) (.commSetRpm (.outbound 3000)) = true
      ∧ reads (.payloadOut [0x09, 0x00, 0x00, 0x00, 0xB4]) (.commSetPos (.outbound 180)) = true
      ∧ reads (.payloadOut [0x1E]) (.commAlive (.outbound ())) = true
      ∧ reads (.payloadOut [0x22, 0x07, 0x06, 0x00, 0x00, 0x13, 0x88])
          (.commForwardCan (.outbound (7, .setCurrent 5000))) = true
      ∧ reads (.payloadOut [0x23, 0xC8, 0x32, 0x01, 0, 0, 0, 0, 0, 0, 0])
          (.commSetChuckData (.outbound (200, 50, true, false))) = true
      ∧ reads (.payloadOut [0x32, 0x00, 0x00, 0x00, 0x80]) (.commGetValuesSelective (.outbound 0x80)) = true := by
  decide

theorem test_decode_inbound_payloads :
    reads (.payloadIn [0x00, 0x03, 0x3E]) (.commFwVersion (.inbound [0x03, 0x3E])) = true
      ∧ reads (.payloadIn [0x04]) (.commGetValues (.inbound [])) = true
      ∧ reads (.payloadIn [0x05, 1]) (.commSetDuty (.inbound [1])) = true
      ∧ reads (.payloadIn [0x06, 1]) (.commSetCurrent (.inbound [1])) = true
      ∧ reads (.payloadIn [0x07, 1]) (.commSetCurrentBrake (.inbound [1])) = true
      ∧ reads (.payloadIn [0x08, 1]) (.commSetRpm (.inbound [1])) = true
      ∧ reads (.payloadIn [0x09, 1]) (.commSetPos (.inbound [1])) = true
      ∧ reads (.payloadIn [0x1E]) (.commAlive (.inbound [])) = true
      ∧ reads (.payloadIn [0x22, 7]) (.commForwardCan (.inbound [7])) = true
      ∧ reads (.payloadIn [0x23, 1]) (.commSetChuckData (.inbound [1])) = true
      ∧ reads (.payloadIn [0x32, 0, 0, 0, 0x80]) (.commGetValuesSelective (.inbound [0, 0, 0, 0x80])) = true := by
  decide

theorem test_decode_frames :
    reads (.frameOut good) (.frameShort (.outbound [0x06, 0x00, 0x00, 0x13, 0x88])) = true
      ∧ reads (.frameIn [0x02, 0x00, 0x00, 0x00, 0x03]) (.frameShort (.inbound [0x00, 0x00, 0x00, 0x03])) = true
      ∧ reads (.frameIn [0x03, 0x01, 0x00]) (.frameLong (.inbound [0x01, 0x00])) = true := by decide +kernel

set_option maxRecDepth 8000 in
/-- A long frame of 256 zero bytes: all-zero payloads have CRC 0 (40_crc.md R144). -/
theorem test_decode_long_frame :
    reads (.frameOut ([0x03, 0x01, 0x00] ++ List.replicate 256 0 ++ [0x00, 0x00, 0x03]))
      (.frameLong (.outbound (List.replicate 256 0))) = true := by decide +kernel

theorem test_decode_malformed_items :
    decode (.payloadOut []) matches .error .emptyPayload
      ∧ decode (.payloadOut [0x01]) matches .error (.unknownCommand _)
      ∧ decode (.payloadOut [0x22, 0x00, 0x1E]) matches .error (.malformedPayload _)
      ∧ decode (.frameOut [0x02, 0x01, 0x1E, 0xF3, 0xFE, 0x03]) matches .error (.malformedFrame _)
      ∧ decode (.frameIn [0x55]) matches .error (.badStart _) := by
  exact ⟨by decide, by decide, by decide, by decide +kernel, by decide⟩

/-! ### CRC Engine and Binary Field Codec -/

/-- V-CRC-30. -/
theorem test_crc16_of_payload :
    after (present 0x0000000500000001 (assembled [0x06, 0x00, 0x00, 0x13, 0x88]))
      (fun t => (t.crcRes, t.opRes, t.sched)) = some (0x8B25, .ok, []) := by decide +kernel

/-- V-CRC-32. -/
theorem test_crc16_refuses_past_the_buffer :
    after (exec (.crc16 .txpay 510 3) State.reset) (fun t => (t.opRes, statusWord t)) = some (.bounds, 0x80) := by
  decide

/-- V-FC-7. -/
theorem test_pay_reset_moves_the_cursor_only :
    after (exec .payReset (assembled [7, 8])) (fun t => (t.txCur, t.txpay)) = some (0, [(0, 7), (1, 8)]) := by decide

/-- V-FC-11. -/
theorem test_append_u8_refused_at_capacity :
    after (exec (.appendU8 1) { State.reset with txCur := 512 }) (fun t => (t.txCur, t.txpay, statusWord t))
      = some (512, [], 0x80) := by decide

/-- V-FC-5. -/
theorem test_append_bool_writes_one :
    after (present 0x000000000000FF12 { State.reset with txCur := 13 }) (fun t => (t.txCur, t.txpay))
      = some (14, [(13, 1)]) := by decide

/-- V-FC-10. -/
theorem test_append_int32_fills_the_buffer :
    after (exec (.appendInt32 0xFFFFFF01) { State.reset with txCur := 508 }) (fun t => (t.txCur, t.txpay))
      = some (512, [(508, 0xFF), (509, 0xFF), (510, 0xFF), (511, 0x01)]) := by decide

/-- V-FC-12. -/
theorem test_append_uint32_refused_whole :
    after (exec (.appendUint32 5) { State.reset with txCur := 509 }) (fun t => (t.txCur, t.txpay, t.opRes))
      = some (509, [], .bounds) := by decide

/-- V-FC-37, V-FC-36. -/
theorem test_rx_seek_to_the_end_of_the_view :
    after (exec (.rxSeek 3) (viewing [0x00, 0x03, 0x3E])) (fun t => (t.rxCur, t.opRes)) = some (3, .ok)
      ∧ after (exec (.rxSeek 4) (viewing [0x00, 0x03, 0x3E])) (fun t => (t.rxCur, t.opRes)) = some (0, .bounds) := by
  decide

/-- V-FC-31. -/
theorem test_get_u8 :
    after (exec .getU8 { viewing [0x00, 0x03, 0x3E] with rxCur := 1 }) (fun t => (t.getRes, t.rxCur))
      = some (3, 2) := by decide

/-- V-FC-22. -/
theorem test_get_int32 :
    after (exec .getInt32 { viewing [0x04, 0xFF, 0xE7, 0xFF, 0xFF, 0xFF, 0x6A] with rxCur := 3 })
      (fun t => (t.getRes, t.getScale, t.rxCur)) = some (0xFFFFFF6A, 1, 7) := by decide

/-- V-FC-24. -/
theorem test_get_uint32 :
    after (exec .getUint32 (viewing [0x80, 0x00, 0x00, 0x00])) (fun t => (t.getRes, t.rxCur))
      = some (0x80000000, 4) := by decide

/-- V-FC-21. -/
theorem test_get_float16_sign_extends :
    after (exec (.getFloat16 10) { viewing [0x04, 0xFF, 0xE7] with rxCur := 1 })
      (fun t => (t.getRes, t.getScale, t.rxCur)) = some (0xFFFFFFE7, 10, 3) := by decide

/-- V-ERR-8. -/
theorem test_get_float16_checks_the_scale_first :
    after (exec (.getFloat16 0) { viewing [0x00, 0x03, 0x3E] with rxCur := 2 }) (fun t => (t.opRes, statusWord t))
      = some (.badArg, 0x108) := by decide

/-- V-FC-23. -/
theorem test_get_float32 :
    after (exec (.getFloat32 1000000) (viewing [0x05, 0x64, 0xEB, 0xA0])) (fun t => (t.getRes, t.getScale))
      = some (90500000, 1000000) := by decide

/-! ### Frame Codec -/

/-- V-FR-3. -/
theorem test_frame_send :
    after (exec .frameSend (assembled [0x06, 0x00, 0x00, 0x13, 0x88])) (fun t => (t.txOut, t.txCount, t.txCur))
      = some (good, 10, 5) := by decide +kernel

/-- V-FR-10, V-FR-11. -/
theorem test_frame_check_verdicts :
    after (exec (.frameCheck 10) { State.reset with rxbuf := Memory.putAll [] 0 good, rxCnt := 10 }) State.opRes
        = some .ok
      ∧ after (exec (.frameCheck 9) { State.reset with rxbuf := Memory.putAll [] 0 good, rxCnt := 10 }) State.opRes
        = some .format := by decide +kernel

/-- V-FR-14. -/
theorem test_frame_check_wrong_crc :
    after (exec (.frameCheck 10) { State.reset with
      rxCnt := 10
      rxbuf := Memory.putAll [] 0 [0x02, 0x05, 0x06, 0x00, 0x00, 0x13, 0x88, 0x8B, 0x24, 0x03] }) State.opRes
      = some .crcFail := by decide +kernel

/-! ### Receiver -/

/-- V-RX-17. -/
theorem test_recv_blocking_waits :
    after (present 0x0000006400000030 { State.reset with now := 1000 })
      (fun t => (statusWord t, t.opCur, t.rxT0, t.rxTmo)) = some (3, 0x30, 1000, 100) := by decide

/-- V-RX-18: the deadline is inclusive. -/
theorem test_blocking_receive_times_out :
    after (engineTurn { blocking 0x30 [] with now := 100 }) (fun t => (t.opRes, statusWord t, t.opCur))
      = some (.timeout, 0, 0) := by decide

/-- V-RX-21. -/
theorem test_arm :
    after (present 0x0000000800000031 { State.reset with now := 5000 })
      (fun t => (statusWord t, t.opRes, t.rxT0, t.rxTmo, t.rxHint)) = some (4, .ok, 5000, 100, 8) := by decide

/-- V-RX-24 (the whole frame queued, and one byte of the next). -/
theorem test_poll_delivers_and_decodes :
    after (exec .poll (armed [0x02, 0x03, 0x00, 0x03, 0x3E, 0x82, 0xCE, 0x03, 0x02]))
      (fun t => (t.opRes, t.fwMajor, t.fwMinor, t.rxQueue, statusWord t)) = some (.ok, 3, 62, [0x02], 0x100C) := by
  decide +kernel

/-- V-RX-29. -/
theorem test_poll_reports_a_failed_crc :
    after (exec .poll (armed [0x02, 0x01, 0x04, 0x40, 0x85, 0x03])) (fun t => (t.opRes, t.rxValid, t.diagLog))
      = some (.crcFail, false, [.crcFail]) := by decide +kernel

/-! ### Command Dispatcher -/

/-- V-DEC-11. -/
theorem test_decode_payload_selective :
    after (exec .decodePayload
        (viewing [0x32, 0x00, 0x00, 0x80, 0x81, 0xFF, 0xE7, 0x00, 0x00, 0x0B, 0xB8, 0x07]))
      (fun t => (t.opRes, t.latest[0], t.latest[7], t.latest[15], t.latest[8]))
      = some (.ok, 0xFFFFFFE7, 3000, 7, 0) := by decide

/-- V-DEC-17. -/
theorem test_decode_payload_without_a_view :
    after (exec .decodePayload State.reset) (fun t => (t.opRes, statusWord t)) = some (.bounds, 0x80) := by decide

/-- V-CMD-14 and V-REQ-1. -/
theorem test_req_fw_version :
    after (present 0x0000000000000050 State.reset) (fun t => (t.txOut, t.reqState, t.busy))
      = some ([0x02, 0x01, 0x00, 0x00, 0x00, 0x03], .awaiting, true)
      ∧ after (rxSteps 8 (blocking 0x50 [0x02, 0x03, 0x00, 0x03, 0x3E, 0x82, 0xCE, 0x03]))
        (fun t => (t.reqResult, t.fwMajor, t.fwMinor, statusWord t)) = some (.ok, 3, 62, 0x1008) := by
  decide +kernel

/-- V-CMD-15 and V-REQ-8. -/
theorem test_req_values :
    after (present 0x0000000000000051 State.reset) (fun t => (t.txOut, t.reqCmd))
      = some ([0x02, 0x01, 0x04, 0x40, 0x84, 0x03], 0x04)
      ∧ after (rxSteps 3 (blocking 0x51 [0x03, 0x01, 0x00])) (fun t => (t.reqResult, t.rxQueue, statusWord t))
        = some (.rxLong, [0x00], 0) := by decide +kernel

/-- V-CMD-17. -/
theorem test_req_values_sel_forwarded :
    after (present 0x0000008000000352 State.reset) (fun t => (t.txOut, t.reqCmd, t.opCur))
      = some ([0x02, 0x07, 0x22, 0x03, 0x32, 0x00, 0x00, 0x00, 0x80, 0x19, 0x10, 0x03], 0x32, 0x52) := by decide +kernel

/-- V-CMD-1, V-CMD-2. -/
theorem test_set_current :
    after (present 0x0000138800000053 State.reset) (fun t => (t.txOut, t.opRes, t.txCur)) = some (good, .sent, 5)
      ∧ after (present 0x0000138800000753 State.reset) (fun t => (t.txOut, t.reqCmd))
        = some ([0x02, 0x07, 0x22, 0x07, 0x06, 0x00, 0x00, 0x13, 0x88, 0x4D, 0x71, 0x03], 0x06) := by decide +kernel

/-- V-CMD-4. -/
theorem test_set_current_brake :
    after (present 0x000007D000000054 State.reset) State.txOut
      = some [0x02, 0x05, 0x07, 0x00, 0x00, 0x07, 0xD0, 0x35, 0x3E, 0x03] := by decide +kernel

/-- V-CMD-6. -/
theorem test_set_rpm :
    after (present 0xFFFFFFFF00000055 State.reset) State.txOut
      = some [0x02, 0x05, 0x08, 0xFF, 0xFF, 0xFF, 0xFF, 0x9B, 0xE2, 0x03] := by decide +kernel

/-- V-CMD-7. -/
theorem test_set_pos :
    after (present 0x000000B400000056 State.reset) State.txOut
      = some [0x02, 0x05, 0x09, 0x00, 0x00, 0x00, 0xB4, 0x4F, 0x23, 0x03] := by decide +kernel

/-- V-CMD-8. -/
theorem test_set_duty :
    after (present 0x0000C35000000057 State.reset) State.txOut
      = some [0x02, 0x05, 0x05, 0x00, 0x00, 0xC3, 0x50, 0x3A, 0xA5, 0x03] := by decide +kernel

/-- V-CMD-9, and V-CMD-11's second word. -/
theorem test_set_aux :
    after (present 0x0000000000000058 State.reset) State.txOut
      = some [0x02, 0x0B, 0x23, 0x7F, 0x7F, 0, 0, 0, 0, 0, 0, 0, 0, 0x68, 0x3F, 0x03]
      ∧ after (present 0x0000000000000558 { State.reset with auxX := 200, auxY := 50, auxBtn := 1 }) State.txOut
        = some [0x02, 0x0D, 0x22, 0x05, 0x23, 0xC8, 0x32, 0x01, 0, 0, 0, 0, 0, 0, 0, 0xD2, 0x5C, 0x03] := by
  decide +kernel

/-- V-CMD-13. -/
theorem test_send_alive_forwarded :
    after (present 0x0000000000000959 State.reset) State.txOut
      = some [0x02, 0x03, 0x22, 0x09, 0x1E, 0xA1, 0xC1, 0x03] := by decide +kernel

/-- P1, operation 13. -/
theorem test_aux_write :
    after (present 0x000000000232C860 State.reset) (fun t => (t.auxX, t.auxY, t.auxBtn)) = some (200, 50, 2) := by
  decide

/-- P1, operation 1. -/
theorem test_cfg_timeout :
    after (present 0x000000FA00000070 State.reset) (fun t => (t.cfgTimeout, t.rxTmo)) = some (250, 0) := by decide

/-- V-FC-39. -/
theorem test_clr_err_keeps_the_receive_flags :
    after (exec .clrErr { State.reset with errBounds := true, errArg := true, rxErrBadStart := true }) statusWord
      = some 0x10 := by decide

/-! ### Wire rows -/

/-- The outbound rows put the frames of V-CMD-8, -1, -4, -5, -7 and -12 on the wire. -/
theorem test_outbound_rows :
    after (exec (.commSetDuty (.outbound 50000)) State.reset) State.txOut
      = some [0x02, 0x05, 0x05, 0x00, 0x00, 0xC3, 0x50, 0x3A, 0xA5, 0x03]
      ∧ after (exec (.commSetCurrent (.outbound 5000)) State.reset) State.txOut = some good
      ∧ after (exec (.commSetCurrentBrake (.outbound 2000)) State.reset) State.txOut
        = some [0x02, 0x05, 0x07, 0x00, 0x00, 0x07, 0xD0, 0x35, 0x3E, 0x03]
      ∧ after (exec (.commSetRpm (.outbound 3000)) State.reset) State.txOut
        = some [0x02, 0x05, 0x08, 0x00, 0x00, 0x0B, 0xB8, 0xF8, 0x04, 0x03]
      ∧ after (exec (.commSetPos (.outbound 180)) State.reset) State.txOut
        = some [0x02, 0x05, 0x09, 0x00, 0x00, 0x00, 0xB4, 0x4F, 0x23, 0x03]
      ∧ after (exec (.commAlive (.outbound ())) State.reset) State.txOut
        = some [0x02, 0x01, 0x1E, 0xF3, 0xFF, 0x03] := by decide +kernel

/-- The rest of them: V-CMD-14, -15, -2, -9 and -16. -/
theorem test_outbound_query_rows :
    after (exec (.commFwVersion (.outbound ())) State.reset) State.txOut
      = some [0x02, 0x01, 0x00, 0x00, 0x00, 0x03]
      ∧ after (exec (.commGetValues (.outbound ())) State.reset) State.txOut
        = some [0x02, 0x01, 0x04, 0x40, 0x84, 0x03]
      ∧ after (exec (.commForwardCan (.outbound (7, .setCurrent 5000))) State.reset) State.txOut
        = some [0x02, 0x07, 0x22, 0x07, 0x06, 0x00, 0x00, 0x13, 0x88, 0x4D, 0x71, 0x03]
      ∧ after (exec (.commSetChuckData (.outbound (127, 127, false, false))) State.reset) State.txOut
        = some [0x02, 0x0B, 0x23, 0x7F, 0x7F, 0, 0, 0, 0, 0, 0, 0, 0, 0x68, 0x3F, 0x03]
      ∧ after (exec (.commGetValuesSelective (.outbound 0x80)) State.reset) State.txOut
        = some [0x02, 0x05, 0x32, 0x00, 0x00, 0x00, 0x80, 0xD9, 0xE5, 0x03] := by decide +kernel

/-- V-DEC-1, V-DEC-3. -/
theorem test_fw_version_response :
    after (exec (.commFwVersion (.inbound [0x03, 0x3E, 0x48, 0x55])) State.reset)
      (fun t => (t.decRes, t.fwMajor, t.fwMinor, t.fwValid)) = some (.ok, 3, 62, true)
      ∧ after (exec (.commFwVersion (.inbound [0x03])) State.reset) (fun t => (t.decRes, t.fwMajor, t.diagLog))
        = some (.decodeFail, 0, [.decodeShort]) := by decide

/-- V-DEC-7, through the single decode site. -/
theorem test_full_response :
    (decodeSite fullPayload State.reset).latest.toList.map BitVec.toInt
      = [253, 300, 1234, 567, 0, -150, 500, 12000, 364, 12345, 100, 444000, 0, 123456, 123456, 0, 90500000, 1] := by
  decide +kernel

/-- V-DEC-14. -/
theorem test_selective_response_skips_reserved_bits :
    after (exec (.commGetValuesSelective (.inbound [0xFF, 0xFC, 0x00, 0x80, 0x00, 0x00, 0x30, 0x39])) State.reset)
      (fun t => (t.decRes, t.latest[7], t.latestValid, t.prevValid)) = some (.ok, 12345, true, false) := by decide

/-- V-DEC-5, V-DEC-6. -/
theorem test_unknown_responses :
    after (exec (.commSetCurrent (.inbound [0x00, 0x00, 0x13, 0x88])) State.reset)
      (fun t => (t.decId, t.decRes, t.diagLog)) = some (0x06, .decodeFail, [.unknownCmd])
      ∧ after (exec (.commForwardCan (.inbound [0x07, 0x06])) State.reset) (fun t => (t.decId, t.decRes))
        = some (0x22, .decodeFail) := by decide

/-- V-FR-3, and V-RX-1 by the armed receiver (V-RX-30). -/
theorem test_frame_short_row :
    after (exec (.frameShort (.outbound [0x06, 0x00, 0x00, 0x13, 0x88])) State.reset) State.txOut = some good
      ∧ after (exec (.frameShort (.inbound good.tail)) (armed []))
        (fun t => (t.rxResult, t.rxCnt, t.rxExp, t.rxLen, t.opRes)) = some (.ok, 10, 0x800A, 5, .decodeFail) := by
  decide +kernel

/-- V-RX-7. -/
theorem test_frame_long_row :
    after (exec (.frameLong (.inbound [0x01, 0x00, 0x00])) (armed []))
      (fun t => (t.rxResult, t.rxCnt, t.rxQueue, t.diagLog)) = some (.rxLong, 2, [0x00, 0x00], [.longUnsupported]) := by
  decide

/-! ### Agents, reset, the host's side -/

/-- V-ERR-4. -/
theorem test_busy_refuses :
    after (present 0x0000000000000071 (blocking 0x30 [])) (fun t => (statusWord t, t.opRes)) = some (0x43, .none) := by
  decide

/-- V-ERR-2. -/
theorem test_reserved_selector :
    after (present 0x00000789563412FF State.reset) (fun t => (statusWord t, t.opRes)) = some (0x200, .badOp) := by
  decide

/-- V-RX-16: the clock wraps. -/
theorem test_elapsed_time_wraps :
    expired { State.reset with now := 0x54, rxT0 := 0xFFFFFFF0, rxTmo := 100 } = true
      ∧ expired { State.reset with now := 0x53, rxT0 := 0xFFFFFFF0, rxTmo := 100 } = false := by decide

/-- V-RST-1: the registers after reset. -/
theorem test_reset_registers :
    (List.range 0x1C).map (readReg State.reset)
      = [0, 0, 100, 0, 0, 0, 0, 0, 0, 1, 0, 0, 0, 0, 0, 0, 0, 0, 0, 0, 0, 0, 0, 0, 127, 127, 0, 0] := by decide

theorem test_reset_memory_is_canonical : State.reset.rxbuf.wf ∧ State.reset.txpay.wf := by decide

/-- 70_reset_and_hazards.md R411: a reset ends a blocking receive; queued bytes and the clock stay. -/
theorem test_reset_event :
    after (step { blocking 0x30 [0x05] with sched := [.reset], now := 7 }) (fun t => (t.busy, t.rxQueue, t.now, t.opCur))
      = some (false, [0x05], 7, 0) := by decide

/-- The probe words of the wire rows run the instruction they decode to. -/
theorem test_fetched_words_run :
    after (step (State.reset.withFetchWord 64 0x0000138800000053)) State.txOut = some good
      ∧ after (step (State.reset.withFetchWord 8 0x00)) (fun t => (t.decId, t.decRes, t.fwValid))
        = some (0x00, .ok, true)
      ∧ after (step (State.reset.withFetchWord 8 0x02)) (fun t => (t.rxResult, t.rxCnt)) = some (.none, 63) := by
  decide +kernel

/-- By the table of 44_command_dispatch.md R297: the source's 5 A and duty 0.5 (V-CMD-1, V-CMD-8), truncation
toward zero, a value outside the range. -/
theorem test_setpoint_conversion :
    setCurrentAmps 0 5 = some (.setCurrent 0 5000)
      ∧ setDutyFraction 0 (1 / 2) = some (.setDuty 0 50000)
      ∧ setpoint 1000 (-1 / 3000) = some 0
      ∧ setpoint 1000 3000000 = none := by
  decide +kernel

/-- The other three commands of R297's table, truncated toward zero. -/
theorem test_setpoint_conversion_unscaled :
    setCurrentBrakeAmps 7 (-5 / 2) = some (.setCurrentBrake 7 (-2500))
      ∧ setRpmReal 0 (7 / 2) = some (.setRpm 0 3)
      ∧ setPosReal 0 (-7 / 2) = some (.setPos 0 (-3)) := by
  decide +kernel

/-- 95_test_vectors.md P3, rows 2 to 4 from the state after row 1: the bytes arrive between the `POLL`s. -/
theorem test_wait_frame :
    after (waitFrame [[.tick 5], .tick 5 :: [0x02, 0x03, 0x00, 0x03, 0x3E].map .rx,
        .tick 10 :: [0x82, 0xCE, 0x03].map .rx] { armed [] with now := 5000, rxT0 := 5000 })
      (fun t => (t.opRes, t.now, t.rxLen, t.fwMajor, t.fwMinor)) = some (.ok, 5020, 3, 3, 62)
      ∧ after (waitFrame [[.tick 99], [.tick 1], []] (armed [])) (fun t => (t.opRes, t.now)) = some (.timeout, 100) := by
  decide +kernel

/-- P1's operations 3, 11 and 13 in the syntax of 30_encoding.md R130, and its rules on omitted operands. -/
theorem test_assembly :
    assembleLine "SET_CURRENT can=7, v=-2500" = some (.setCurrent 7 0xFFFFF63C)
      ∧ assembleLine "CRC16 buf=TX, off=1, n=9 ; the payload behind its identifier" = some (.crc16 .txpay 1 9)
      ∧ assembleLine "AUX_WRITE x=200, y=50, lower=0, upper=1" = some (.auxWrite 200 50 false true)
      ∧ assembleLine "REQ_VALUES_SEL mask=0x80" = some (.reqValuesSel 0 0x80)
      ∧ assembleLine "GET_FLOAT16" = none := by decide +kernel

/-- 43_receiver.md R246, on V-RX-1's view and on a timeout. -/
theorem test_blocking_return :
    ({ viewing [0x06, 0x00, 0x00, 0x13, 0x88] with opRes := .ok } : State).blockingReturn
      = some (5, [0x06, 0x00, 0x00, 0x13, 0x88])
      ∧ ({ State.reset with opRes := .timeout } : State).blockingReturn = none := by decide

/-! ### Witnesses: the hypotheses of the obligations can be met

Each theorem is named after its obligation; where an obligation has several clauses, the values stand at the
edges of their ranges. -/

/-- Terms at the bounds of well-formedness. -/
theorem witness_DecodeUndoesEncode :
    (Instr.commForwardCan (.outbound (1, .alive))).wf = true
      ∧ (Instr.frameShort (.outbound [])).wf = true
      ∧ (Instr.frameShort (.outbound (List.replicate 255 0))).wf = true
      ∧ (Instr.frameLong (.outbound (List.replicate 256 0))).wf = true
      ∧ (Instr.frameLong (.outbound (List.replicate 65535 0))).wf = true
      ∧ (Instr.commAlive (.inbound (List.replicate 250 0))).wf = true := by
  simp only [Instr.wf, Wire.wfInbound, List.length_replicate]; decide

theorem witness_UnnamedFieldsIgnored :
    (0xFFFFFFFFFFFFFF10 : OpWord) &&& namedBits (wordSel 0xFFFFFFFFFFFFFF10)
        = (0x10 : OpWord) &&& namedBits (wordSel 0xFFFFFFFFFFFFFF10)
      ∧ (0xABCD0008FFFFFF31 : OpWord) &&& namedBits (wordSel 0xABCD0008FFFFFF31)
        = (0x0000000800000031 : OpWord) &&& namedBits (wordSel 0xABCD0008FFFFFF31) := by decide

/-- The ends of every reserved range of 30_encoding.md R110, and of every range of defined selectors. -/
theorem witness_ReservedSelectorRaises :
    (∀ sel ∈ ([0x00, 0x02, 0x0F, 0x15, 0x17, 0x1E, 0x1F, 0x22, 0x2F, 0x33, 0x3F, 0x41, 0x4F, 0x5A, 0x5F, 0x61,
        0x6F, 0x72, 0xFF] : List Byte), reservedSelector (wordSel (hostWord sel 1 2 3 4)))
      ∧ State.reset.busy = false
      ∧ ∀ sel ∈ ([0x01, 0x10, 0x14, 0x18, 0x1D, 0x20, 0x21, 0x30, 0x32, 0x40, 0x50, 0x59, 0x60, 0x70, 0x71]
        : List Byte), ¬ reservedSelector (wordSel (hostWord sel 1 2 3 4)) := by
  unfold reservedSelector; exact ⟨by decide, by decide, by decide⟩

theorem witness_BusyRefusesEveryWord : (blocking 0x30 []).busy = true := by decide

theorem witness_StepRunsDecodedWord :
    State.reset.sched = []
      ∧ ({ State.reset with sched := [.op 0x0000138800000053, .engine] } : State).sched
        = .op 0x0000138800000053 :: [.engine]
      ∧ reads (.host 0x0000138800000053) (.setCurrent 0 5000) = true := by decide

theorem witness_CrcDetectsSingleBit :
    Config.crc.poly.getLsbD 0 = true ∧ Config.crc.refIn = false ∧ Config.crc.refOut = false := by decide

/-- One byte past the end of each buffer, and the last byte of each. -/
theorem witness_Crc16Range :
    State.reset.busy = false
      ∧ (512#16).toNat + (1#16).toNat > (if Buffer.txpay = .txpay then 512 else 256)
      ∧ (256#16).toNat + (1#16).toNat > (if Buffer.rxbuf = .txpay then 512 else 256)
      ∧ (511#16).toNat + (1#16).toNat ≤ (if Buffer.txpay = .txpay then 512 else 256)
      ∧ (255#16).toNat + (1#16).toNat ≤ (if Buffer.rxbuf = .txpay then 512 else 256)
      ∧ ∀ i (h : i < [(7 : Byte)].length),
          (({ State.reset with txpay := [(511, 7)] } : State).mem .txpay).get (511 + i) = some [(7 : Byte)][i] := by
  decide

/-- For every obligation whose only hypothesis is a ready engine: PayResetMovesCursor, RecvBlockingStarts,
ArmStarts, SetpointsSend, AuxAndAliveSend, AuxWriteSets, CfgTimeoutSets, ClrErrClears. -/
theorem witness_ready_engine : State.reset.busy = false ∧ (viewing [1, 2, 3]).busy = false := by decide

theorem witness_AppendByteStores :
    ∀ s ∈ [({ State.reset with txCur := 512 } : State), { State.reset with txCur := 511 }], s.busy = false
      ∧ (if s.txCur = 512 then s.txCur.toNat + 1 > 512 else s.txCur.toNat + 1 ≤ 512) := by decide

theorem witness_AppendWordStores :
    ∀ s ∈ [({ State.reset with txCur := 509 } : State), { State.reset with txCur := 508 }], s.busy = false
      ∧ (if s.txCur = 509 then s.txCur.toNat + 4 > 512 else s.txCur.toNat + 4 ≤ 512) := by decide

theorem witness_RxSeekSetsCursor :
    State.reset.busy = false ∧ State.reset.rxValid = false
      ∧ (viewing [1, 2, 3]).busy = false ∧ (viewing [1, 2, 3]).rxValid = true
      ∧ (4 : Byte).toNat > (viewing [1, 2, 3]).rxLen.toNat ∧ (3 : Byte).toNat ≤ (viewing [1, 2, 3]).rxLen.toNat := by
  decide

/-- The longest view, with the cursor at the last position each read can start at and one behind it. -/
def atCursor (c : Byte) : State := { State.reset with rxValid := true, rxLen := 251, rxCur := c }

theorem witness_IntegerReads :
    (∀ c, (atCursor c).busy = false ∧ (atCursor c).rxValid = true ∧ (atCursor c).rxLen.toNat ≤ 251)
      ∧ (atCursor 250).rxCur.toNat + 1 ≤ (atCursor 250).rxLen.toNat
      ∧ (atCursor 251).rxCur.toNat + 1 > (atCursor 251).rxLen.toNat
      ∧ (atCursor 247).rxCur.toNat + 4 ≤ (atCursor 247).rxLen.toNat
      ∧ (atCursor 248).rxCur.toNat + 4 > (atCursor 248).rxLen.toNat
      ∧ State.reset.busy = false ∧ State.reset.rxValid = false ∧ State.reset.rxLen.toNat ≤ 251 :=
  ⟨fun _ => ⟨rfl, rfl, (by decide : (251 : Byte).toNat ≤ 251)⟩, by decide⟩

theorem witness_GetFloat16Reads :
    (1 : Word32) ≠ 0
      ∧ (∀ c, (atCursor c).busy = false ∧ (atCursor c).rxValid = true ∧ (atCursor c).rxLen.toNat ≤ 251)
      ∧ (atCursor 249).rxCur.toNat + 2 ≤ (atCursor 249).rxLen.toNat
      ∧ (atCursor 250).rxCur.toNat + 2 > (atCursor 250).rxLen.toNat :=
  ⟨by decide, fun _ => ⟨rfl, rfl, (by decide : (251 : Byte).toNat ≤ 251)⟩, by decide⟩

theorem witness_GetFloat32Reads :
    (0xFFFFFFFF : Word32) ≠ 0
      ∧ (∀ c, (atCursor c).busy = false ∧ (atCursor c).rxValid = true ∧ (atCursor c).rxLen.toNat ≤ 251)
      ∧ (atCursor 247).rxCur.toNat + 4 ≤ (atCursor 247).rxLen.toNat
      ∧ (atCursor 248).rxCur.toNat + 4 > (atCursor 248).rxLen.toNat :=
  ⟨by decide, fun _ => ⟨rfl, rfl, (by decide : (251 : Byte).toNat ≤ 251)⟩, by decide⟩

theorem witness_FrameEncodeForms :
    (List.replicate 255 (0 : Byte)).length ≤ 255 ∧ 256 ≤ (List.replicate 256 (0 : Byte)).length
      ∧ (List.replicate 65535 (0 : Byte)).length ≤ 65535 := by
  simp only [List.length_replicate]; decide

theorem witness_FrameRoundTrip : ([] : List Byte).length ≤ 255 ∧ (List.replicate 255 (0 : Byte)).length ≤ 255 := by
  simp only [List.length_replicate]; decide

/-- The first and the last position of each clause, in the shortest frame and in the longest. -/
theorem witness_FrameDetectsFlippedBit :
    ∀ p ∈ [([] : List Byte), List.replicate 255 1], p.length ≤ 255
      ∧ (∀ j ∈ [0, 2, p.length + 3, p.length + 4], j < p.length + 5 ∧ j ≠ 1)
      ∧ (2 ≤ 2 ∧ 2 < p.length + 4) ∧ (2 ≤ p.length + 3 ∧ p.length + 3 < p.length + 4) := by
  intro p hp
  have : p.length ≤ 255 := by
    rcases List.mem_pair.1 hp with rfl | rfl <;> simp only [List.length_replicate, List.length_nil] <;> decide
  refine ⟨this, fun j hj => ?_, by omega, by omega⟩
  simp only [List.mem_cons, List.not_mem_nil, or_false] at hj
  omega

/-- Any payload that fits can stand in `TXPAY`: the empty one, and one of 512 bytes. -/
theorem witness_FrameSendEmits :
    ∀ p ∈ [([] : List Byte), List.replicate 512 1], (assembled p).busy = false ∧ (assembled p).txCur.toNat ≤ 512
      ∧ p.length = (assembled p).txCur.toNat
      ∧ ∀ i (h : i < p.length), (assembled p).txpay.get i = some p[i] := by
  intro p hp
  have hl : p.length ≤ 512 := by
    rcases List.mem_pair.1 hp with rfl | rfl <;> simp only [List.length_replicate, List.length_nil] <;> decide
  have hc : (assembled p).txCur.toNat = p.length := by
    show (BitVec.ofNat 16 p.length).toNat = p.length
    rw [BitVec.toNat_ofNat]; omega
  refine ⟨rfl, by omega, hc.symm, fun i h => ?_⟩
  show (Memory.putAll [] 0 p).get i = some p[i]
  rw [Memory.get_putAll, if_pos ⟨by omega, by omega⟩]
  simp [h]

/-- A receive that has stored `n` bytes of a frame with declared length `d`. -/
def declaring (n : Nat) (d : Byte) : State :=
  { State.reset with rxbuf := [(0, 2), (1, d)], rxCnt := BitVec.ofNat 9 n }

/-- The lengths at the edges, with the declared length that fits them and one that does not. -/
theorem witness_FrameCheckVerdict :
    (declaring 5 0).busy = false ∧ (4 : Word32).toNat < 5 ∧ (257 : Word32).toNat > 256
      ∧ 2 ≤ (declaring 2 1).rxCnt.toNat ∧ ((declaring 2 1).byteAt .rxbuf 1).toNat + 5 ≠ (5 : Word32).toNat
      ∧ ((declaring 2 1).byteAt .rxbuf 1).toNat + 5 ≠ (256 : Word32).toNat
      ∧ (5 : Word32).toNat ≤ (declaring 5 0).rxCnt.toNat
      ∧ ((declaring 5 0).byteAt .rxbuf 1).toNat + 5 = (5 : Word32).toNat
      ∧ (256 : Word32).toNat ≤ (declaring 256 251).rxCnt.toNat
      ∧ ((declaring 256 251).byteAt .rxbuf 1).toNat + 5 = (256 : Word32).toNat := by decide

/-- Exactly at the deadline. -/
theorem witness_DeadlineFirst :
    ∀ s ∈ [{ armed good with now := 100 }, { blocking 0x30 good with now := 100 }, { blocking 0x50 [] with now := 100 },
        { blocking 0x51 [] with now := 100 }, { blocking 0x52 [] with now := 100 }],
      (s.now - s.rxT0).toNat ≥ s.rxTmo.toNat ∧ s.rxResult = .none
        ∧ ((s.busy = false ∧ s.rxMode = .armed)
          ∨ (s.busy = true ∧ s.rxMode = .blocking
            ∧ (s.opCur = 0x30 ∨ s.opCur = 0x50 ∨ s.opCur = 0x51 ∨ s.opCur = 0x52))) := by decide

/-- A receive of `s` that has stored the first byte `m` and has `b` waiting. -/
def secondByte (s : State) (m b : Byte) : State := { s with rxQueue := [b, 0xAA], rxCnt := 1, rxbuf := [(0, m)] }

/-- Armed, and blocking under any operation; the longest length that fits and the shortest that does not; each
marker. -/
theorem witness_HeaderJudged :
    (∀ m b, (secondByte (armed []) m b).rxResult = .none ∧ expired (secondByte (armed []) m b) = false
      ∧ (secondByte (armed []) m b).rxMode = .armed ∧ (secondByte (armed []) m b).rxCnt = 1
      ∧ (secondByte (armed []) m b).rxbuf.get 0 = some m ∧ (secondByte (armed []) m b).rxQueue = b :: [0xAA])
      ∧ (∀ sel m b, (secondByte (blocking sel []) m b).rxResult = .none
        ∧ expired (secondByte (blocking sel []) m b) = false
        ∧ (secondByte (blocking sel []) m b).rxMode = .blocking ∧ (secondByte (blocking sel []) m b).opCur = sel
        ∧ (secondByte (blocking sel []) m b).rxCnt = 1 ∧ (secondByte (blocking sel []) m b).rxbuf.get 0 = some m
        ∧ (secondByte (blocking sel []) m b).rxQueue = b :: [0xAA])
      ∧ (251 : Byte).toNat + 5 ≤ 256 ∧ (252 : Byte).toNat + 5 > 256
      ∧ (0x01 : Byte) ≠ 0x02 ∧ (0x01 : Byte) ≠ 0x03 ∧ (0x04 : Byte) ≠ 0x02 ∧ (0x04 : Byte) ≠ 0x03 :=
  ⟨fun _ _ => ⟨rfl, (by decide : expired (armed []) = false), rfl, rfl, rfl, rfl⟩,
    fun _ _ _ => ⟨rfl, (by decide : expired (armed []) = false), rfl, rfl, rfl, rfl, rfl⟩, by decide⟩

/-- The receive of `s` once it has stored `n` bytes of a frame of declared length `d` and has `b` waiting. -/
def lastByteOf (s : State) (n : Nat) (d b : Byte) : State :=
  { s with
    rxQueue := [b], rxCnt := BitVec.ofNat 9 n, rxDecl := d, rxExp := 0x8000 ||| BitVec.ofNat 16 (d.toNat + 5)
    rxbuf := [(0, 0x02), (1, d), (2, 0), (3, 0)] }

/-- The same of an armed receive. -/
def lastByte (n : Nat) (d b : Byte) : State := lastByteOf (armed []) n d b

/-- A stored byte, a CRC that fails and a CRC that holds, each under every strategy and operation. -/
theorem witness_ByteCompletesOrExhausts_operations :
    (∀ s ∈ [armed [], blocking 0x30 [], blocking 0x50 [], blocking 0x51 [], blocking 0x52 []],
      (s.rxMode = .armed ∨ (s.rxMode = .blocking
        ∧ (s.opCur = 0x30 ∨ s.opCur = 0x50 ∨ s.opCur = 0x51 ∨ s.opCur = 0x52)))
        ∧ s.rxResult = .none ∧ expired s = false
        ∧ (lastByteOf s 4 0 0x03).rxDecl = 0
        ∧ after (rxStep (lastByteOf s 4 0 0x03)) State.rxResult = some .ok
        ∧ after (rxStep { lastByteOf s 4 0 0x03 with rxbuf := [(0, 0x02), (1, 0), (2, 1), (3, 0)] }) State.rxResult
          = some .crcFail
        ∧ after (rxStep (lastByteOf s 255 251 0xAA)) State.rxResult = some .rxOverflow)
      ∧ queryExpects (blocking 0x50 []).opCur 0x00 ∧ queryExpects (blocking 0x51 []).opCur 0x04
      ∧ queryExpects (blocking 0x52 []).opCur 0x32 := by
  unfold queryExpects; decide +kernel

/-- The shortest and the longest frame complete; the last byte of `RXBUF` exhausts it when it is no end
marker; a first byte and one below the end are only stored. -/
theorem witness_ByteCompletesOrExhausts :
    (∀ s ∈ [lastByte 4 0 0x03, lastByte 255 251 0x03, lastByte 255 251 0xAA, lastByte 254 251 0x03, armed [0x02]],
      s.rxMode = .armed ∧ s.rxResult = .none ∧ expired s = false ∧ s.rxCnt.toNat < 256 ∧ s.rxCnt ≠ 1)
      ∧ (∀ x ∈ [(lastByte 4 0 0x03, (0 : Byte)), (lastByte 255 251 0x03, 251)],
        x.1.rxExp.getLsbD 15 = true ∧ (x.1.rxExp.extractLsb' 0 9).toNat = x.1.rxCnt.toNat + 1
          ∧ x.1.rxQueue = 0x03 :: [] ∧ x.1.rxbuf.get 1 = some x.2 ∧ x.2.toNat + 5 = x.1.rxCnt.toNat + 1)
      ∧ ((lastByte 255 251 0xAA).rxQueue = 0xAA :: [] ∧ (0xAA : Byte) ≠ 0x03
        ∧ (lastByte 255 251 0xAA).rxCnt.toNat = 255)
      ∧ ((lastByte 254 251 0x03).rxExp.extractLsb' 0 9).toNat ≠ (lastByte 254 251 0x03).rxCnt.toNat + 1
      ∧ (armed [0x02]).rxExp.getLsbD 15 = false := by decide

/-- An armed receive that has ended, and a move that starts none. -/
theorem witness_PollSticky :
    ({ armed [] with rxResult := .timeout } : State).busy = false
      ∧ ({ armed [] with rxResult := .timeout } : State).rxMode = .armed
      ∧ ({ armed [] with rxResult := .timeout } : State).rxResult ≠ .none
      ∧ Event.op 0x53 ≠ .reset
      ∧ (∀ sel ∈ ([0x30, 0x31, 0x50, 0x51, 0x52] : List Byte), wordSel 0x53 ≠ sel)
      ∧ after (agentMove (.op 0x53) { armed [] with rxResult := .timeout }) State.opRes = some .sent
      ∧ State.reset.busy = false ∧ State.reset.rxMode ≠ .armed := by decide +kernel

/-- The last instant before the deadline, and the deadline. -/
theorem witness_PollWithoutBytes :
    (∀ t, ({ armed [] with now := t } : State).busy = false ∧ ({ armed [] with now := t } : State).rxMode = .armed
      ∧ ({ armed [] with now := t } : State).rxResult = .none ∧ ({ armed [] with now := t } : State).rxQueue = [])
      ∧ expired { armed [] with now := 99 } = false ∧ expired { armed [] with now := 100 } = true :=
  ⟨fun _ => ⟨rfl, rfl, rfl, rfl⟩, by decide⟩

/-- The empty payload and the longest one, with a byte behind the frame. -/
theorem witness_PollDeliversFrame :
    ∀ p ∈ [([] : List Byte), List.replicate 251 1], p.length ≤ 251
      ∧ (armed (frameEncode p ++ [0x02])).busy = false ∧ (armed (frameEncode p ++ [0x02])).rxMode = .armed
      ∧ freshReceive (armed (frameEncode p ++ [0x02])) ∧ expired (armed (frameEncode p ++ [0x02])) = false
      ∧ (armed (frameEncode p ++ [0x02])).rxQueue = frameEncode p ++ [0x02] := by
  intro p hp
  refine ⟨?_, rfl, rfl, ⟨(by decide : RxMode.armed ≠ .idle), rfl, rfl, rfl⟩,
    (by decide : expired (armed []) = false), rfl⟩
  rcases List.mem_pair.1 hp with rfl | rfl <;> simp only [List.length_replicate, List.length_nil] <;> decide

/-- Also for QueryCompletes, with the three query selectors. -/
theorem witness_BlockingReceiveDelivers :
    ∀ p ∈ [([] : List Byte), List.replicate 251 1], ∀ sel ∈ ([0x30, 0x50, 0x51, 0x52] : List Byte), p.length ≤ 251
      ∧ (blocking sel (frameEncode p ++ [0x02])).sched = [] ∧ (blocking sel (frameEncode p ++ [0x02])).busy = true
      ∧ (blocking sel (frameEncode p ++ [0x02])).rxMode = .blocking
      ∧ (blocking sel (frameEncode p ++ [0x02])).opCur = sel
      ∧ freshReceive (blocking sel (frameEncode p ++ [0x02]))
      ∧ expired (blocking sel (frameEncode p ++ [0x02])) = false
      ∧ (blocking sel (frameEncode p ++ [0x02])).rxQueue = frameEncode p ++ [0x02] := by
  intro p hp sel _
  refine ⟨?_, rfl, rfl, rfl, rfl, ⟨(by decide : RxMode.blocking ≠ .idle), rfl, rfl, rfl⟩,
    (by decide : expired (armed []) = false), rfl⟩
  rcases List.mem_pair.1 hp with rfl | rfl <;> simp only [List.length_replicate, List.length_nil] <;> decide

/-- A step that stores a byte, and one that completes a frame. -/
theorem witness_StrategiesAgree :
    (armed [0x02]).rxMode = .armed ∧ (armed [0x02]).rxResult = .none
      ∧ after (rxStep (armed [0x02])) State.rxCnt = some 1
      ∧ (lastByte 4 0 0x03).rxMode = .armed ∧ (lastByte 4 0 0x03).rxResult = .none
      ∧ after (rxStep (lastByte 4 0 0x03)) State.rxResult = some .ok := by decide

theorem witness_DecodePayloadRuns :
    State.reset.busy = false ∧ State.reset.rxLen.toNat ≤ 251 ∧ State.reset.rxValid = false
      ∧ (atCursor 0).busy = false ∧ (atCursor 0).rxLen.toNat ≤ 251 ∧ (atCursor 0).rxValid = true := by decide

theorem witness_FwVersionDecodes :
    ([3, 62, 7] : List Byte) = 3 :: 62 :: [7] ∧ ([3] : List Byte).length < 2 ∧ ([] : List Byte).length < 2 := by
  decide

/-- A mask cut short; one field with one byte too few, and with exactly its bytes; no field at all. -/
theorem witness_SelectiveResponseDecodes :
    ([0, 0, 0] : List Byte).length < 4
      ∧ ([0, 0, 0, 0x80, 1, 2, 3] : List Byte) = enc32 0x80 ++ [1, 2, 3]
      ∧ ([1, 2, 3] : List Byte).length < fieldOffset 0x80 18
      ∧ ([0, 0, 0, 0x80, 1, 2, 3, 4] : List Byte) = enc32 0x80 ++ [1, 2, 3, 4]
      ∧ fieldOffset 0x80 18 ≤ ([1, 2, 3, 4] : List Byte).length
      ∧ ([0xFF, 0xFC, 0, 0] : List Byte) = enc32 0xFFFC0000 ++ []
      ∧ fieldOffset 0xFFFC0000 18 ≤ ([] : List Byte).length := by decide

theorem witness_FullResponseDecodes :
    (List.replicate 57 (0 : Byte)).length + 1 < 59 ∧ 59 ≤ (List.replicate 58 (0 : Byte)).length + 1 := by decide

theorem witness_UnknownIdentifiersFail :
    ∀ id ∈ ([0x01, 0x03, 0x05, 0x31, 0x33, 0xFF] : List Byte), id ≠ 0x00 ∧ id ≠ 0x04 ∧ id ≠ 0x32 := by decide

theorem witness_QueriesAwait :
    State.reset.busy = false
      ∧ Instr.reqValuesSel 3 0x80 = .reqValuesSel 3 0x80 ∧ ([0, 0, 0, 0x80] : List Byte)
        = [(0x80 : Word32).extractLsb' 24 8, (0x80 : Word32).extractLsb' 16 8, (0x80 : Word32).extractLsb' 8 8,
          (0x80 : Word32).extractLsb' 0 8] := by decide

theorem witness_QueryCompletes :
    (blocking 0x50 []).opCur = 0x50 ∧ (blocking 0x51 []).opCur = 0x51 ∧ (blocking 0x52 []).opCur = 0x52 := by decide

/-- The values nearest the ends of the range. -/
theorem witness_SetpointRoundsTowardZero :
    setpoint 1 (-4294967297 / 2) = some 0x80000000 ∧ setpoint 1 (4294967295 / 2) = some 0x7FFFFFFF
      ∧ setpoint 1 (-2147483649) = none ∧ setpoint 1 2147483648 = none
      ∧ setPosReal 9 (-4294967297 / 2) = some (.setPos 9 0x80000000) := by decide +kernel

theorem witness_CommandRowsEmit : (1 : Byte) ≠ 0 ∧ (255 : Byte) ≠ 0 := by decide

theorem witness_FrameRowsEmit :
    (List.replicate 255 (0 : Byte)).length ≤ 255 ∧ (List.replicate 256 (0 : Byte)).length > 255
      ∧ 256 ≤ (List.replicate 256 (0 : Byte)).length ∧ (List.replicate 65535 (0 : Byte)).length ≤ 65535
      ∧ (List.replicate 255 (0 : Byte)).length < 256 ∧ (List.replicate 65536 (0 : Byte)).length > 65535 := by
  simp only [List.length_replicate]; decide

theorem witness_FrameRowsReceive :
    State.reset.rxMode = .idle ∧ ({ armed [] with rxResult := .timeout } : State).rxResult ≠ .none
      ∧ (∀ s ∈ [armed [], blocking 0x30 []], freshReceive s ∧ expired s = false ∧ s.rxQueue = [])
      ∧ (armed []).rxMode = .armed ∧ (blocking 0x30 []).rxMode = .blocking ∧ (blocking 0x30 []).opCur = 0x30
      ∧ (∀ s ∈ [blocking 0x50 [], blocking 0x51 [], blocking 0x52 []],
        s.rxMode = .blocking ∧ freshReceive s ∧ expired s = false ∧ s.rxQueue = [])
      ∧ queryExpects (blocking 0x50 []).opCur 0x00 ∧ queryExpects (blocking 0x51 []).opCur 0x04
      ∧ queryExpects (blocking 0x52 []).opCur 0x32
      ∧ ((lastByte 4 0 0x03).rxMode = .armed ∧ (lastByte 4 0 0x03).busy = false
        ∧ (lastByte 4 0 0x03).rxResult = .none ∧ (lastByte 4 0 0x03).rxQueue ≠ [])
      ∧ (∀ sel ∈ ([0x30, 0x50] : List Byte), (blocking sel [0x55]).rxMode = .blocking
        ∧ (blocking sel [0x55]).busy = true ∧ (blocking sel [0x55]).rxResult = .none
        ∧ (blocking sel [0x55]).sched = [])
      ∧ ([] : List Byte).length ≤ 251 ∧ 0x02 :: [0x00, 0x00, 0x00, 0x03] = frameEncode []
      ∧ ([0x01, 0x00] : List Byte) = 0x01 :: [0x00] := by
  unfold freshReceive queryExpects; decide

/-- A word, and a tick while nothing is received. -/
theorem witness_RxbufOnlyByReceiver :
    ∀ ev ∈ [Event.op 0x0000138800000053, .tick 5, .engine],
      receiving { State.reset with sched := [ev] } = false ∧ [ev].head? ≠ some .reset
        ∧ (after (step { State.reset with sched := [ev] }) State.rxbuf).isSome := by decide +kernel

theorem witness_AuxOnlyByAuxWrite :
    [Event.op 0x58].head? ≠ some .reset ∧ (∀ w, [Event.op 0x58].head? = some (.op w) → wordSel w ≠ 0x60)
      ∧ (after (step { State.reset with sched := [.op 0x58] }) State.auxX).isSome := by
  refine ⟨by decide, fun w h => ?_, by decide +kernel⟩
  have hw : w = 0x58 := by simpa using h.symm
  subst hw; decide

/-- For TxpayOnlyByAppendAndBuild: selectors just outside the ranges of those that may write. -/
theorem witness_TxpayOnlyByAppendAndBuild :
    [Event.op 0x10].head? ≠ some .reset
      ∧ (∀ sel ∈ ([0x10, 0x15, 0x20, 0x4F, 0x5A] : List Byte),
        sel ∉ ([0x11, 0x12, 0x13, 0x14, 0x50, 0x51, 0x52, 0x53, 0x54, 0x55, 0x56, 0x57, 0x58, 0x59] : List Byte))
      ∧ wordSel 0x10 = 0x10
      ∧ after (step { State.reset with sched := [.op 0x10] }) State.txpay = some [] := by decide

/-- For PortsAndClockMove: a step that takes bytes, one that brings one, and a tick at which the clock wraps. -/
theorem witness_PortsAndClockMove :
    after (step { State.reset with now := 0xFFFFFFFF, sched := [.tick 2] }) State.now = some 1 ∧
    after (step { armed good with sched := [.op 0x32] }) State.rxQueue = some []
      ∧ after (step { armed good with sched := [.rx 7] }) State.rxQueue = some (good ++ [7]) := by decide +kernel

/-- An armed receive in progress with a byte waiting and a `POLL` presented. -/
def polling : State := { armed [0x02] with sched := [.op 0x32] }

/-- It meets the invariant, and its next step is a next state: for StepKeepsInvariant, StepNeverStops and
DiagDoesNotInterfere. -/
theorem witness_StepKeepsInvariant : polling.Inv ∧ after (step polling) State.rxCnt = some 1 where
  left :=
    { ranges := ⟨Memory.Sound.nil _, Memory.Sound.nil _, by decide, by decide, by decide, by decide, by decide,
        by decide, by decide, by decide, by decide⟩
      results := ⟨by decide, by decide, by decide, by decide, by decide⟩
      sequencing := ⟨by decide, by decide, by decide, by decide⟩
      assembly := ⟨by decide, by decide, by decide, by decide⟩
      view := ⟨fun h => absurd h (by decide), by decide⟩ }
  right := by decide +kernel

/-- The last byte of each buffer, written and not, the first offset behind it, and the ends of each gap. -/
theorem witness_ReadPortValues :
    (∀ n ∈ [0x1C, 0x1F, 0x32, 0x3F, 0x52, 255], (0x1C ≤ n ∧ n ≤ 0x1F) ∨ (0x32 ≤ n ∧ n ≤ 0x3F) ∨ 0x52 ≤ n)
      ∧ 255 < 256 ∧ ({ State.reset with rxbuf := [(255, 7)] } : State).rxbuf.get 255 = some 7
      ∧ 511 < 512 ∧ ({ State.reset with txpay := [(511, 9)] } : State).txpay.get 511 = some 9 := by decide

end Sys2Proof.Tests
end

section
/-! SUPPORT. Every next state that a transition can answer, as a predicate on the transition, with one rule
for each way transitions are put together; then what each family of operations can do to the byte ports and
the clock (20_memory.md R93, R94; 60_exceptions.md R383). -/

namespace Sys2Proof.Machine

/-! ### The next states a transition can answer -/

/-- Every next state that `r` answers has `P`; a stop answers none. -/
def Answers (r : Res) (P : State → Prop) : Prop := ∀ t, r = .next t → P t

theorem Answers.next {s : State} {P : State → Prop} (h : P s) : Answers (.next s) P := by
  rintro t ⟨⟩; exact h

theorem Answers.fault (e : Fault) (P : State → Prop) : Answers (.fault e) P := by
  simp [Answers]

theorem Answers.mono {r : Res} {P Q : State → Prop} (h : Answers r P) (hPQ : ∀ t, P t → Q t) : Answers r Q :=
  fun t ht => hPQ t (h t ht)

theorem Answers.andThen {r : Res} {f : State → Res} {P Q : State → Prop} (hr : Answers r P)
    (hf : ∀ u, P u → Answers (f u) Q) : Answers (andThen r f) Q := by
  intro t ht
  obtain ⟨u, hu, hfu⟩ := andThen_eq_next.1 ht
  exact hf u (hr u hu) t hfu

theorem Answers.ite {c : Prop} [Decidable c] {r r' : Res} {P : State → Prop} (hr : Answers r P)
    (hr' : Answers r' P) : Answers (if c then r else r') P := by
  split_ifs
  · exact hr
  · exact hr'

theorem Answers.accept {s : State} {f : State → Res} {P : State → Prop} (hbusy : P { s with errBusy := true })
    (hf : Answers (f s) P) : Answers (accept s f) P :=
  .ite (.next hbusy) hf

theorem Answers.within {buf : Buffer} {a n : Nat} {s : State} {f : State → Res} {P : State → Prop}
    (hf : Answers (f s) P) : Answers (within buf a n s f) P :=
  .ite hf (.fault _ _)

/-! ### The ports and the clock as an operation may leave them -/

/-- From `s` to `t`, bytes left the RX queue at its front only, bytes went to the TX output at its end only,
and the clock stands still. -/
structure PortsFifo (s t : State) : Prop where
  rxQueue : ∃ taken, t.rxQueue = s.rxQueue.drop taken
  txOut : ∃ sent, t.txOut = s.txOut ++ sent
  now : t.now = s.now

/-- An update that sends `sent` and touches neither the RX queue nor the clock. -/
theorem PortsFifo.of_sent {s t : State} (sent : List Byte) (hrx : t.rxQueue = s.rxQueue)
    (htx : t.txOut = s.txOut ++ sent) (hnow : t.now = s.now) : PortsFifo s t :=
  ⟨⟨0, hrx⟩, ⟨sent, htx⟩, hnow⟩

/-- An update that touches neither a port nor the clock. -/
theorem PortsFifo.of_same {s t : State} (hrx : t.rxQueue = s.rxQueue) (htx : t.txOut = s.txOut)
    (hnow : t.now = s.now) : PortsFifo s t :=
  .of_sent [] hrx (by rw [htx, List.append_nil]) hnow

theorem PortsFifo.trans {s t u : State} (hst : PortsFifo s t) (htu : PortsFifo t u) : PortsFifo s u := by
  obtain ⟨⟨m, hm⟩, ⟨xs, hxs⟩, hnow⟩ := hst
  obtain ⟨⟨n, hn⟩, ⟨ys, hys⟩, hnow'⟩ := htu
  exact ⟨⟨m + n, by rw [hn, hm, List.drop_drop]⟩, ⟨xs ++ ys, by rw [hys, hxs, List.append_assoc]⟩,
    hnow'.trans hnow⟩

/-- Answering an update that touches neither a port nor the clock. -/
theorem next_fifo {s t : State} (hrx : t.rxQueue = s.rxQueue) (htx : t.txOut = s.txOut)
    (hnow : t.now = s.now) : Answers (.next t) (PortsFifo s) :=
  .next (.of_same hrx htx hnow)

/-- A transition may start behind an update that the ports and the clock allow. -/
theorem Answers.fifo_after {s t : State} {r : Res} (h : Answers r (PortsFifo t)) (hst : PortsFifo s t) :
    Answers r (PortsFifo s) :=
  h.mono fun _ => hst.trans

theorem Answers.fifo_andThen {s : State} {r : Res} {f : State → Res} (hr : Answers r (PortsFifo s))
    (hf : ∀ u, Answers (f u) (PortsFifo u)) : Answers (Machine.andThen r f) (PortsFifo s) :=
  hr.andThen fun u hu => (hf u).fifo_after hu

/-- The busy gate: a refused word only sets `ERR_BUSY` (60_exceptions.md R373). -/
theorem accept_fifo {s : State} {f : State → Res} (h : Answers (f s) (PortsFifo s)) :
    Answers (accept s f) (PortsFifo s) :=
  .accept (.of_same rfl rfl rfl) h

theorem raise_fifo (s : State) (e : ErrFlag) : Answers (.next (s.raise e)) (PortsFifo s) := by
  cases e <;> exact next_fifo rfl rfl rfl

/-! ### Codec, CRC and frame operations -/

theorem append_fifo (bytes : List Byte) (s : State) : Answers (append bytes s) (PortsFifo s) :=
  .ite (raise_fifo s _) (next_fifo rfl rfl rfl)

theorem getField_fifo (w : Nat) (dec : List Byte → Word32) (scale : Word32) (s : State) :
    Answers (getField w dec scale s) (PortsFifo s) :=
  .ite (raise_fifo s _) (.within (next_fifo rfl rfl rfl))

theorem getScaled_fifo (w : Nat) (dec : List Byte → Word32) (scale : Word32) (s : State) :
    Answers (getScaled w dec scale s) (PortsFifo s) :=
  .ite (raise_fifo s _) (getField_fifo w dec scale s)

theorem execPayReset_fifo (s : State) : Answers (execPayReset s) (PortsFifo s) :=
  accept_fifo (next_fifo rfl rfl rfl)

theorem execRxSeek_fifo (p : Byte) (s : State) : Answers (execRxSeek p s) (PortsFifo s) :=
  accept_fifo (.ite (raise_fifo s _) (next_fifo rfl rfl rfl))

theorem execCrc16_fifo (buf : Buffer) (off n : BitVec 16) (s : State) :
    Answers (execCrc16 buf off n s) (PortsFifo s) :=
  accept_fifo (.ite (raise_fifo s _) (next_fifo rfl rfl rfl))

/-- `FRAME_SEND` adds its frame behind the bytes already sent (42_frame_codec.md R201). -/
theorem execFrameSend_fifo (s : State) : Answers (execFrameSend s) (PortsFifo s) :=
  accept_fifo (.within (.next (.of_sent (frameEncode s.txPayload) rfl rfl rfl)))

theorem execFrameCheck_fifo (n : Word32) (s : State) : Answers (execFrameCheck n s) (PortsFifo s) :=
  accept_fifo (.ite (next_fifo rfl rfl rfl) (.ite (next_fifo rfl rfl rfl) (next_fifo rfl rfl rfl)))

/-! ### The decode site, the requests and the configuration -/

theorem decodeSite_fifo (p : List Byte) (s : State) : PortsFifo s (decodeSite p s) := by
  obtain ⟨d, hd, -, -⟩ := decodeSite_cases p s
  rw [hd]
  exact .of_same rfl rfl rfl

theorem decodeView_fifo (s : State) : Answers (decodeView s) (PortsFifo s) :=
  .within (.next ((decodeSite_fifo s.view s).trans (.of_same rfl rfl rfl)))

theorem execDecodePayload_fifo (s : State) : Answers (execDecodePayload s) (PortsFifo s) :=
  accept_fifo (.ite (raise_fifo s _) (decodeView_fifo s))

/-- A request adds its frame behind the bytes already sent (44_command_dispatch.md R300, R340). -/
theorem requestSend_fifo (sel : Byte) (c : Command) (can : Byte) (s : State) :
    PortsFifo s (requestSend sel c can s) := by
  rw [requestSend, buildAndSend_eq]
  exact .of_sent (frameEncode (c.addressed can)) rfl rfl rfl

theorem requestOnly_fifo (sel : Byte) (c : Command) (can : Byte) (s : State) :
    Answers (requestOnly sel c can s) (PortsFifo s) :=
  accept_fifo (.next ((requestSend_fifo sel c can s).trans (.of_same rfl rfl rfl)))

theorem requestAndAwait_fifo (sel : Byte) (c : Command) (can : Byte) (s : State) :
    Answers (requestAndAwait sel c can s) (PortsFifo s) :=
  accept_fifo (.next ((requestSend_fifo sel c can s).trans (.of_same rfl rfl rfl)))

theorem execAuxWrite_fifo (x y : Byte) (lower upper : Bool) (s : State) :
    Answers (execAuxWrite x y lower upper s) (PortsFifo s) :=
  accept_fifo (next_fifo rfl rfl rfl)

theorem execCfgTimeout_fifo (t : Time) (s : State) : Answers (execCfgTimeout t s) (PortsFifo s) :=
  accept_fifo (next_fifo rfl rfl rfl)

theorem execClrErr_fifo (s : State) : Answers (execClrErr s) (PortsFifo s) :=
  accept_fifo (next_fifo rfl rfl rfl)

/-! ### The receiver -/

theorem completeRequest_fifo (expected : CommandName) (rc : ResultCode) (s : State) :
    Answers (completeRequest expected rc s) (PortsFifo s) :=
  .ite (.within (.next ((decodeSite_fifo s.view s).trans (.of_same rfl rfl rfl)))) (next_fifo rfl rfl rfl)

theorem completeOp_fifo (rc : ResultCode) (s : State) : Answers (completeOp rc s) (PortsFifo s) :=
  .ite (next_fifo rfl rfl rfl) <|
    .ite (completeRequest_fifo .fwVersion rc s) <|
      .ite (completeRequest_fifo .getValues rc s) <|
        .ite (completeRequest_fifo .getValuesSelective rc s) (.fault _ _)

theorem endReceive_fifo (rc : ResultCode) (s : State) : PortsFifo s (endReceive rc s) := by
  rw [endReceive_eq]
  exact .of_same rfl rfl rfl

theorem finish_fifo (rc : ResultCode) (s : State) : Answers (finish rc s) (PortsFifo s) := by
  have hidle : PortsFifo s (endReceive rc s).receiverIdle :=
    (endReceive_fifo rc s).trans (.of_same rfl rfl rfl)
  exact .ite (((completeOp_fifo rc _).fifo_after hidle).fifo_andThen fun _ => next_fifo rfl rfl rfl)
    (.next (endReceive_fifo rc s))

theorem rxComplete_fifo (s : State) : Answers (rxComplete s) (PortsFifo s) :=
  .ite
    (.ite (.ite (finish_fifo .ok s) (finish_fifo .crcFail s)) (.fault _ _))
    (.ite ((finish_fifo .rxOverflow _).fifo_after (.of_same rfl rfl rfl)) (next_fifo rfl rfl rfl))

theorem rxHeader_fifo (s : State) : Answers (rxHeader s) (PortsFifo s) :=
  .ite
    (.ite (next_fifo rfl rfl rfl) ((rxComplete_fifo _).fifo_after (.of_same rfl rfl rfl)))
    (.ite ((finish_fifo .rxLong _).fifo_after (.of_same rfl rfl rfl)) (next_fifo rfl rfl rfl))

theorem rxByte_fifo (b : Byte) (s : State) : Answers (rxByte b s) (PortsFifo s) :=
  .within <| .ite ((rxHeader_fifo _).fifo_after (.of_same rfl rfl rfl))
    ((rxComplete_fifo _).fifo_after (.of_same rfl rfl rfl))

/-- A receive step takes at most the first byte of the queue (43_receiver.md R238). -/
theorem rxStep_fifo (s : State) : Answers (rxStep s) (PortsFifo s) := by
  cases he : expired s with
  | true =>
    rw [rxStep_expired he]
    exact (finish_fifo .timeout _).fifo_after (.of_same rfl rfl rfl)
  | false =>
    cases hq : s.rxQueue with
    | nil => rw [rxStep_empty he hq]; exact next_fifo rfl rfl rfl
    | cons b queue =>
      have hpop : PortsFifo s { s with rxQueue := queue } :=
        ⟨⟨1, by rw [hq, List.drop_one, List.tail_cons]⟩, ⟨[], (List.append_nil _).symm⟩, rfl⟩
      rw [rxStep_byte he hq]
      exact (rxByte_fifo b _).fifo_after hpop

theorem rxSteps_fifo (k : Nat) (s : State) : Answers (rxSteps k s) (PortsFifo s) := by
  induction k generalizing s with
  | zero => exact next_fifo rfl rfl rfl
  | succ k ih => exact (rxStep_fifo s).fifo_andThen fun u => .ite (next_fifo rfl rfl rfl) (ih u)

theorem engineTurn_fifo (s : State) : Answers (engineTurn s) (PortsFifo s) :=
  .ite (rxStep_fifo s) (next_fifo rfl rfl rfl)

theorem pollDrive_fifo (s : State) : Answers (pollDrive s) (PortsFifo s) :=
  (rxSteps_fifo _ s).fifo_andThen fun u => .ite (decodeView_fifo u) (next_fifo rfl rfl rfl)

theorem execRecvBlocking_fifo (t : Time) (s : State) : Answers (execRecvBlocking t s) (PortsFifo s) :=
  accept_fifo (next_fifo rfl rfl rfl)

theorem execArm_fifo (hint : BitVec 16) (s : State) : Answers (execArm hint s) (PortsFifo s) :=
  accept_fifo (next_fifo rfl rfl rfl)

theorem execPoll_fifo (s : State) : Answers (execPoll s) (PortsFifo s) :=
  accept_fifo <| .ite (next_fifo rfl rfl rfl) <| .ite (next_fifo rfl rfl rfl) (pollDrive_fifo s)

/-! ### Host operations -/

/-- The decoder reads only host operations from operation words (30_encoding.md R110): each is one whose
encoding is an operation word. -/
theorem encode_of_decodeWord {w : OpWord} {i : Instr} (h : decodeWord w = .ok i) : ∃ v, encode i = .host v := by
  unfold decodeWord at h
  split at h <;> cases h <;> exact ⟨_, rfl⟩

/-- A wire command is encoded in a payload, never in an operation word (30_encoding.md R105, R106). -/
theorem encodeWire_ne_host {α : Type} (name : CommandName) (out : α → List Byte) (w : Wire α) (v : OpWord) :
    encodeWire name out w ≠ .host v := by
  cases w <;> exact Item.noConfusion

/-- A host operation takes bytes from the front of the RX queue only, adds to the end of the TX output only,
and leaves the clock alone. -/
theorem exec_fifo {i : Instr} {v : OpWord} (h : encode i = .host v) (s : State) :
    Answers (exec i s) (PortsFifo s) := by
  cases i with
  | crc16 buf off n => exact execCrc16_fifo buf off n s
  | payReset => exact execPayReset_fifo s
  | appendU8 | appendBool | appendInt32 | appendUint32 => exact accept_fifo (append_fifo _ s)
  | rxSeek p => exact execRxSeek_fifo p s
  | getU8 | getInt32 | getUint32 => exact accept_fifo (getField_fifo _ _ _ s)
  | getFloat16 | getFloat32 => exact accept_fifo (getScaled_fifo _ _ _ s)
  | frameSend => exact execFrameSend_fifo s
  | frameCheck n => exact execFrameCheck_fifo n s
  | recvBlocking t => exact execRecvBlocking_fifo t s
  | arm hint => exact execArm_fifo hint s
  | poll => exact execPoll_fifo s
  | decodePayload => exact execDecodePayload_fifo s
  | reqFwVersion | reqValues | reqValuesSel => exact requestAndAwait_fifo _ _ _ s
  | setCurrent | setCurrentBrake | setRpm | setPos | setDuty | setAux | sendAlive =>
    exact requestOnly_fifo _ _ _ s
  | auxWrite x y lower upper => exact execAuxWrite_fifo x y lower upper s
  | cfgTimeout t => exact execCfgTimeout_fifo t s
  | clrErr => exact execClrErr_fifo s
  | commFwVersion | commGetValues | commSetDuty | commSetCurrent | commSetCurrentBrake | commSetRpm | commSetPos
  | commAlive | commForwardCan | commSetChuckData | commGetValuesSelective =>
    exact absurd h (encodeWire_ne_host _ _ _ v)
  | frameShort w | frameLong w => cases w <;> cases h

theorem issueWord_fifo (w : OpWord) (s : State) : Answers (issueWord w s) (PortsFifo s) := by
  cases hd : decode (.host w) with
  | ok i =>
    obtain ⟨v, hv⟩ := encode_of_decodeWord hd
    rw [issueWord, hd]
    exact exec_fifo hv s
  | error e =>
    rw [issueWord, hd]
    exact accept_fifo (raise_fifo s _)

/-! ### The agents' moves (00_scope.md R18) -/

/-- With no event pending a step is the engine's turn. -/
theorem step_idle {s : State} (h : s.sched = []) : step s = engineTurn s := by
  rw [step, nextMove, h]

/-- With an event pending a step is that event's move. -/
theorem step_event {s : State} {ev : Event} {rest : List Event} (h : s.sched = ev :: rest) :
    step s = agentMove ev { s with sched := rest } := by
  rw [step, nextMove, h]

/-- Reset keeps the ports and the clock (70_reset_and_hazards.md R411, R412). -/
theorem resetEngine_fifo (s : State) : PortsFifo s (resetEngine s) := .of_same rfl rfl rfl

/-- The three laws of the ports and the clock, in a move that brings no byte and is no tick. -/
theorem PortsFifo.quiet_move {s t : State} (h : PortsFifo s t) :
    (∃ taken, t.rxQueue = s.rxQueue.drop taken ++ []) ∧ (∃ sent, t.txOut = s.txOut ++ sent)
      ∧ t.now = s.now + 0#32 := by
  obtain ⟨⟨taken, hrx⟩, htx, hnow⟩ := h
  exact ⟨⟨taken, by rw [hrx, List.append_nil]⟩, htx, by rw [hnow, BitVec.add_zero]⟩

/-- The sum of two clock values, as the sum of their numbers modulo 2^32 (60_exceptions.md R383). -/
theorem time_add_eq_ofNat (now ms : Time) : now + ms = BitVec.ofNat 32 (now.toNat + ms.toNat) := by
  rw [BitVec.ofNat_add, BitVec.ofNat_toNat, BitVec.ofNat_toNat, BitVec.setWidth_eq, BitVec.setWidth_eq]

/-- Settles O55: every operation, engine turn and reset keeps the ports first in, first out and the clock
still; the RX source and the clock make the two other moves. -/
theorem portsAndClockMove : Obligations.PortsAndClockMove := by
  intro s t h
  cases hs : s.sched with
  | nil =>
    rw [step_idle hs] at h
    obtain ⟨hrx, htx, hnow⟩ := (engineTurn_fifo s t h).quiet_move
    exact ⟨hrx, htx, hnow, nofun⟩
  | cons ev rest =>
    rw [step_event hs] at h
    cases ev with
    | op w =>
      obtain ⟨hrx, htx, hnow⟩ := (issueWord_fifo w _ t h).quiet_move
      exact ⟨hrx, htx, hnow, nofun⟩
    | engine =>
      obtain ⟨hrx, htx, hnow⟩ := (engineTurn_fifo _ t h).quiet_move
      exact ⟨hrx, htx, hnow, nofun⟩
    | reset =>
      obtain ⟨hrx, htx, hnow⟩ := (Answers.next (resetEngine_fifo _) t h).quiet_move
      exact ⟨hrx, htx, hnow, nofun⟩
    | rx b =>
      obtain rfl := Host.Outcome.next.inj h
      exact ⟨⟨0, rfl⟩, ⟨[], (List.append_nil _).symm⟩, (BitVec.add_zero _).symm, nofun⟩
    | tick ms =>
      obtain rfl := Host.Outcome.next.inj h
      refine ⟨⟨0, (List.append_nil _).symm⟩, ⟨[], (List.append_nil _).symm⟩, rfl, ?_⟩
      rintro _ _ ⟨⟩
      rw [time_add_eq_ofNat]

end Sys2Proof.Machine
end

section
/-! SUPPORT. The invariant of Safety.lean under the moves of the machine (10_state.md R31 to R35, 43_receiver.md
R231 to R244). A receive passes through states that break one part of it: a byte is stored before the rules of
its place are applied (R232), and a receive ends before its operation completes (R241). Each of these states
has its own predicate, and each rule of the receiver leads from one to the next. -/

namespace Sys2Proof.Machine

/-! ### Branches that use their condition -/

theorem Answers.ite_of {c : Prop} [Decidable c] {r r' : Res} {P : State → Prop} (hr : c → Answers r P)
    (hr' : ¬ c → Answers r' P) : Answers (if c then r else r') P := by
  split_ifs with hc
  · exact hr hc
  · exact hr' hc

theorem Answers.accept_of {s : State} {f : State → Res} {P : State → Prop} (hbusy : P { s with errBusy := true })
    (hf : s.busy = false → Answers (f s) P) : Answers (Machine.accept s f) P :=
  .ite_of (fun _ => .next hbusy) fun hb => hf (by simpa using hb)

/-! ### Updates that the invariant does not see -/

/-- The registers that the invariant does not speak of may hold anything, and so may the environment. -/
theorem State.Inv.of_unseen {s t : State} (h : s.Inv)
    (e : t = { s with
      rxErrBadStart := t.rxErrBadStart, rxErrLenOvf := t.rxErrLenOvf, errBusy := t.errBusy
      errBounds := t.errBounds, errArg := t.errArg, errOp := t.errOp, fwValid := t.fwValid, opRes := t.opRes
      cfgTimeout := t.cfgTimeout, crcRes := t.crcRes, txCount := t.txCount, getRes := t.getRes
      rxT0 := t.rxT0, rxTmo := t.rxTmo, rxHint := t.rxHint, reqCmd := t.reqCmd, decId := t.decId
      fwMajor := t.fwMajor, fwMinor := t.fwMinor, auxX := t.auxX, auxY := t.auxY
      latest := t.latest, prev := t.prev, rxQueue := t.rxQueue, txOut := t.txOut, now := t.now
      diagLog := t.diagLog, diagPresent := t.diagPresent, sched := t.sched, draws := t.draws }) : t.Inv := by
  rw [e]
  exact ⟨{ h.ranges with }, { h.results with }, { h.sequencing with }, { h.assembly with }, { h.view with }⟩

theorem State.Inv.raise {s : State} (h : s.Inv) (e : ErrFlag) : (s.raise e).Inv := by
  cases e <;> exact h.of_unseen rfl

theorem State.Inv.withRes {s : State} (h : s.Inv) (rc : ResultCode) : (s.withRes rc).Inv :=
  h.of_unseen rfl

/-- The busy gate keeps the invariant if the accepted operation does. -/
theorem accept_inv {s : State} {f : State → Res} (h : s.Inv) (hf : s.busy = false → Answers (f s) State.Inv) :
    Answers (accept s f) State.Inv :=
  .accept_of (h.of_unseen rfl) hf

/-! ### A decode (44_command_dispatch.md R330) -/

theorem Decoded.snapshots_of_validKept {s : State} {d : Decoded} (h : s.prevValid = true → s.latestValid = true)
    (hd : d.ValidKept s) : d.prevValid = true → d.latestValid = true := by
  rcases hd with ⟨hp, hl⟩ | hl
  · rw [hp, hl]; exact h
  · exact fun _ => hl

theorem State.RangesOk.decodeSite {s : State} (h : s.RangesOk) (p : List Byte) : (decodeSite p s).RangesOk := by
  obtain ⟨d, hd, -, hvalid⟩ := decodeSite_cases p s
  rw [hd]
  exact { h with snapshots := Decoded.snapshots_of_validKept h.snapshots hvalid }

theorem State.ViewOk.decodeSite {s : State} (h : s.ViewOk) (p : List Byte) : (decodeSite p s).ViewOk := by
  obtain ⟨d, hd, -, -⟩ := decodeSite_cases p s
  rw [hd]
  exact { h with }

theorem decodeSite_decRes (p : List Byte) (s : State) : (decodeSite p s).decRes ∈ [.none, .ok, .decodeFail] := by
  obtain ⟨d, hd, hres, -⟩ := decodeSite_cases p s
  rw [hd]
  exact List.mem_cons_of_mem _ (List.mem_pair.2 hres)

theorem State.Inv.decodeSite {s : State} (h : s.Inv) (p : List Byte) : (decodeSite p s).Inv := by
  have hdec := decodeSite_decRes p s
  have hranges := h.ranges.decodeSite p
  obtain ⟨d, hd, -, -⟩ := decodeSite_cases p s
  rw [hd] at hdec hranges ⊢
  exact ⟨hranges, { h.results with decRes := hdec }, { h.sequencing with }, { h.assembly with },
    { h.view with }⟩

theorem decodeView_inv {s : State} (h : s.Inv) : Answers (decodeView s) State.Inv :=
  .within (.next ((h.decodeSite s.view).withRes _))

/-! ### The end of a receive (43_receiver.md R241, R243) -/

/-- No receive is in progress behind a result, or without a mode (R231). -/
theorem receiving_iff {s : State} : receiving s = true ↔ s.rxMode ≠ .idle ∧ s.rxResult = .none := by
  simp [receiving]

/-- Outside a receive in progress nothing is assembled. -/
theorem State.AssemblyOk.of_not_receiving {s : State} (h : receiving s ≠ true) : s.AssemblyOk :=
  ⟨fun hr => absurd hr h, fun hr => absurd hr h, fun hr => absurd hr h, fun hr => absurd hr h⟩

/-- A receive in progress, apart from the frame it assembles: it has no view yet (R239, R243). -/
structure State.InReceive (s : State) : Prop where
  ranges : s.RangesOk
  results : s.ResultsOk
  sequencing : s.SequencingOk
  receiving : receiving s = true
  invalid : s.rxValid = false
  noView : s.rxLen = 0 ∧ s.rxCur = 0

theorem State.Inv.not_rxValid {s : State} (h : s.Inv) (hr : receiving s = true) : s.rxValid = false := by
  rw [← Bool.not_eq_true]
  intro hv
  have hok := (h.view.valid hv).1
  rw [(receiving_iff.1 hr).2] at hok
  cases hok

theorem State.Inv.inReceive {s : State} (h : s.Inv) (hr : receiving s = true) : s.InReceive where
  ranges := h.ranges
  results := h.results
  sequencing := h.sequencing
  receiving := hr
  invalid := h.not_rxValid hr
  noView := h.view.noView (h.not_rxValid hr)

/-- `RXBUF` starts with the short frame of a payload of `RX_DECL` bytes, a length that the buffer can hold
(R234). -/
def State.HoldsFrame (s : State) : Prop :=
  s.rxDecl.toNat ≤ 251 ∧ ∃ p : List Byte, p.length = s.rxDecl.toNat
    ∧ ∀ i < p.length + 5, s.rxbuf.get i = (shortFrame p)[i]?

/-- A receive that has its result and has not completed its operation yet. -/
structure State.Ended (s : State) : Prop where
  ranges : s.RangesOk
  results : s.ResultsOk
  view : s.ViewOk
  ended : s.rxResult ≠ .none

/-- While the engine is `READY` there is no operation to complete (R33). -/
theorem State.Ended.inv {s : State} (h : s.Ended) (hb : s.busy = false) (hm : s.rxMode ≠ .blocking)
    (hop : s.opCur = 0) : s.Inv where
  ranges := h.ranges
  results := h.results
  sequencing := ⟨by simp [hb, hm], by simp [hb], by simp [hb], fun _ => hop⟩
  assembly := .of_not_receiving fun hr => h.ended (receiving_iff.1 hr).2
  view := h.view

theorem endReceive_failed {rc : ResultCode} (hrc : rc ≠ .ok) (s : State) :
    endReceive rc s = { s with rxResult := rc, diagLog := (endReceive rc s).diagLog } := by
  rw [endReceive_eq]; simp [hrc]

/-- A receive ends with one of the results of R231; with `OK` only behind a frame that `RXBUF` holds. -/
theorem State.InReceive.endReceive {s : State} (h : s.InReceive) {rc : ResultCode}
    (hrc : rc ∈ [.ok, .crcFail, .timeout, .rxOverflow, .rxLong]) (hframe : rc = .ok → s.HoldsFrame) :
    (endReceive rc s).Ended := by
  have hne : rc ≠ .none := by rintro rfl; simp at hrc
  by_cases hok : rc = .ok
  · subst hok
    obtain ⟨hlen, p, hp, hget⟩ := hframe rfl
    exact
      { ranges := { h.ranges with rxLen := hlen, rxCur := Nat.zero_le _ }
        results := { h.results with rxResult := List.mem_cons_of_mem _ hrc }
        view := ⟨fun _ => ⟨rfl, p, hp, hget⟩, nofun⟩
        ended := hne }
  · rw [endReceive_failed hok]
    exact
      { ranges := { h.ranges with }
        results := { h.results with rxResult := List.mem_cons_of_mem _ hrc }
        view := ⟨fun hv => absurd hv (by simp [h.invalid]), fun _ => h.noView⟩
        ended := hne }

/-- A blocking operation that has reported its result and has not given the engine free yet (R241). -/
structure State.Completed (s : State) : Prop where
  ranges : s.RangesOk
  view : s.ViewOk
  idle : s.rxMode = .idle
  rxResult : s.rxResult ∈ [.none, .ok, .crcFail, .timeout, .rxOverflow, .rxLong]
  decRes : s.decRes ∈ [.none, .ok, .decodeFail]
  reqResult : s.reqResult ∈
    [.none, .ok, .respMismatch, .decodeFail, .timeout, .crcFail, .rxOverflow, .rxLong, .sent]
  reqState : s.reqState = .idle ∨ s.reqState = .done

theorem State.Completed.ready {s : State} (h : s.Completed) : s.ready.Inv where
  ranges := { h.ranges with }
  results :=
    { rxResult := h.rxResult
      decRes := h.decRes
      reqResult := h.reqResult
      reqNeverSeen := by rcases h.reqState with e | e <;> simp [e]
      awaiting := by rcases h.reqState with e | e <;> simp [e] }
  sequencing := ⟨by simp [h.idle], nofun, nofun, fun _ => rfl⟩
  assembly := .of_not_receiving fun hr => (receiving_iff.1 hr).1 h.idle
  view := { h.view with }

/-- A request takes over any result of its receive, and reports its decode on `OK` (44_command_dispatch.md
R340). -/
theorem State.Ended.completeRequest {s : State} (h : s.Ended) (hidle : s.rxMode = .idle)
    (expected : CommandName) : Answers (completeRequest expected s.rxResult s) State.Completed := by
  refine .ite_of (fun _ => .within (.next ?_)) fun _ => .next ?_
  · have hrest : (decodeSite s.view s).rxMode = s.rxMode ∧ (decodeSite s.view s).rxResult = s.rxResult := by
      obtain ⟨d, hd, -, -⟩ := decodeSite_cases s.view s
      rw [hd]
      exact ⟨rfl, rfl⟩
    obtain ⟨hmode, hresult⟩ := hrest
    exact
      { ranges := { h.ranges.decodeSite s.view with }
        view := { h.view.decodeSite s.view with }
        idle := hmode.trans hidle
        rxResult := by rw [State.requestDone_rxResult, hresult]; exact h.results.rxResult
        decRes := decodeSite_decRes s.view s
        reqResult := by
          rw [State.requestDone_reqResult]
          split_ifs <;> simp
        reqState := .inr rfl }
  · exact
      { ranges := { h.ranges with }
        view := { h.view with }
        idle := hidle
        rxResult := h.results.rxResult
        decRes := h.results.decRes
        reqResult := by
          have hrc := h.results.rxResult
          rw [State.requestDone_reqResult]
          generalize s.rxResult = rc at hrc
          cases rc <;> simp at hrc ⊢
        reqState := .inr rfl }

/-- `RECV_BLOCKING` awaits no response (10_state.md R34). -/
theorem State.ResultsOk.idle_or_done {s : State} (h : s.ResultsOk) (hop : s.opCur = 0x30) :
    s.reqState = .idle ∨ s.reqState = .done := by
  cases hs : s.reqState with
  | idle => exact .inl rfl
  | done => exact .inr rfl
  | encodedSent => exact absurd hs h.reqNeverSeen
  | awaiting => exact absurd hop (h.awaiting.1 hs).2

theorem State.Ended.completeOp {s : State} (h : s.Ended) (hidle : s.rxMode = .idle) :
    Answers (completeOp s.rxResult s) State.Completed := by
  refine .ite_of (fun hop => .next ?_) fun _ =>
    .ite (h.completeRequest hidle _) <| .ite (h.completeRequest hidle _) <|
      .ite (h.completeRequest hidle _) (.fault _ _)
  exact
    { ranges := { h.ranges with }
      view := { h.view with }
      idle := hidle
      rxResult := h.results.rxResult
      decRes := h.results.decRes
      reqResult := h.results.reqResult
      reqState := h.results.idle_or_done hop }

/-- The end of a receive keeps the invariant: an armed one only ends, a blocking one also completes its
operation (R241). -/
theorem State.InReceive.finish {s : State} (h : s.InReceive) {rc : ResultCode}
    (hrc : rc ∈ [.ok, .crcFail, .timeout, .rxOverflow, .rxLong]) (hframe : rc = .ok → s.HoldsFrame) :
    Answers (finish rc s) State.Inv := by
  have hend := h.endReceive hrc hframe
  have hsame : (Machine.endReceive rc s).busy = s.busy ∧ (Machine.endReceive rc s).rxMode = s.rxMode
      ∧ (Machine.endReceive rc s).opCur = s.opCur ∧ (Machine.endReceive rc s).rxResult = rc := by
    rw [endReceive_eq]
    exact ⟨rfl, rfl, rfl, rfl⟩
  obtain ⟨hbusy, hmode, hop, hres⟩ := hsame
  refine .ite_of (fun _ => ?_) fun hm => .next ?_
  · have hidle : (Machine.endReceive rc s).receiverIdle.Ended :=
      ⟨{ hend.ranges with }, { hend.results with }, { hend.view with }, hend.ended⟩
    have hdone := hidle.completeOp rfl
    rw [State.receiverIdle_rxResult, hres] at hdone
    exact hdone.andThen fun _ hu => .next hu.ready
  · have hready : s.busy = false := by
      rw [← Bool.not_eq_true]
      exact fun hb => hm (h.sequencing.busy.1 hb)
    exact hend.inv (hbusy.trans hready) (hmode ▸ hm) (hop.trans (h.sequencing.opReady hready))

end Sys2Proof.Machine
end

section
/-! SUPPORT. The byte rule keeps the invariant (43_receiver.md R232 to R237, R242), and with it every operation
and every move of an agent. -/

namespace Sys2Proof.Machine

/-! ### Ranges of bytes -/

theorem readRange_append (get : Nat → Byte) (a m n : Nat) :
    readRange get a (m + n) = readRange get a m ++ readRange get (a + m) n := by
  simp [readRange, List.range_add, Nat.add_assoc]

theorem getElem?_readRange {get : Nat → Byte} {a n i : Nat} (h : i < n) :
    (readRange get a n)[i]? = some (get (a + i)) := by
  simp [readRange, h]

/-- A written byte reads as itself. -/
theorem State.get_eq_byteAt {s : State} {buf : Buffer} {a : Nat} (h : ((s.mem buf).get a).isSome) :
    (s.mem buf).get a = some (s.byteAt buf a) := by
  obtain ⟨b, hb⟩ := Option.isSome_iff_exists.1 h
  rw [State.byteAt_of_get hb, hb]

/-- Bytes with a start marker, a length, a matching CRC and an end mark are the short frame of the payload
region (30_encoding.md R100, 42_frame_codec.md R204). -/
theorem readRange_eq_shortFrame {get : Nat → Byte} {d : Byte} (hstart : get 0 = Config.startShort)
    (hlen : get 1 = d) (hend : get (d.toNat + 4) = Config.endMark)
    (hcrc : (frameDecode get (d.toNat + 5)).1 = true) :
    readRange get 0 (d.toNat + 5) = shortFrame (readRange get 2 d.toNat) := by
  have hcrc : get (d.toNat + 2) ++ get (d.toNat + 3) = crc16 (readRange get 2 d.toNat) := by
    simpa [frameDecode, hlen] using hcrc
  have hsplit : readRange get 0 (d.toNat + 5)
      = readRange get 0 2 ++ readRange get 2 d.toNat ++ readRange get (d.toNat + 2) 3 := by
    rw [show d.toNat + 5 = 2 + d.toNat + 3 by omega, readRange_append, readRange_append, Nat.zero_add,
      Nat.zero_add, Nat.add_comm 2]
  have hhead : readRange get 0 2 = [Config.startShort, d] := by
    simp [readRange, List.range_succ, hstart, hlen]
  have htail : readRange get (d.toNat + 2) 3 = frameTail (readRange get 2 d.toNat) := by
    rw [frameTail, ← hcrc, extract_hi, extract_lo, ← hend]
    simp [readRange, List.range_succ]
  rw [hsplit, hhead, htail, shortFrame, length_readRange, BitVec.ofNat_toNat, BitVec.setWidth_eq]

/-! ### The byte rule -/

theorem State.InReceive.diag {s : State} (h : s.InReceive) (ev : DiagEvent) : (s.diag ev).InReceive :=
  ⟨{ h.ranges with }, { h.results with }, { h.sequencing with }, h.receiving, h.invalid, h.noView⟩

/-- Before the second byte of a frame no length is known; after it the frame is a short one whose length
`RXBUF` can hold (R231, R234). -/
structure State.HeaderOk (s : State) : Prop where
  unknown : s.rxExp.getLsbD 15 = false → s.rxCnt.toNat ≤ 1
  known : s.rxExp.getLsbD 15 = true →
    2 ≤ s.rxCnt.toNat ∧ s.rxDecl.toNat ≤ 251
      ∧ s.rxExp = 0x8000 ||| BitVec.ofNat 16 (s.rxDecl.toNat + 5)
      ∧ s.rxbuf.get 0 = some Config.startShort ∧ s.rxbuf.get 1 = some s.rxDecl

/-- The bytes of the current frame lie in `RXBUF` below `RX_CNT` (R233). -/
def State.BytesStored (s : State) : Prop := ∀ a < s.rxCnt.toNat, (s.rxbuf.get a).isSome

/-- A receive in progress whose buffer is not full meets the invariant. -/
theorem State.InReceive.inv {s : State} (h : s.InReceive) (hstored : s.BytesStored) (hheader : s.HeaderOk)
    (hcount : s.rxCnt ≠ 256) : s.Inv where
  ranges := h.ranges
  results := h.results
  sequencing := h.sequencing
  assembly :=
    { count := fun _ => by
        have hle := h.ranges.rxCnt
        have hne : s.rxCnt.toNat ≠ 256 := fun e => hcount (BitVec.eq_of_toNat_eq e)
        unfold Config.rxbufSize at hle ⊢
        omega
      stored := fun _ => hstored
      noHeader := fun _ => hheader.unknown
      header := fun _ => hheader.known }
  view := ⟨fun hv => absurd hv (by simp [h.invalid]), fun _ => h.noView⟩

/-- A complete frame whose CRC matches is the frame of the payload it declares (R237, R242). -/
theorem holdsFrame_of_complete {s : State} (hstored : s.BytesStored) (hheader : s.HeaderOk)
    (hknown : s.rxExp.getLsbD 15 = true) (hcount : s.rxCnt = s.rxExp.extractLsb' 0 9)
    (hend : s.byteAt .rxbuf (s.rxCnt.toNat - 1) = Config.endMark)
    (hcrc : (frameDecode (s.byteAt .rxbuf) s.rxCnt.toNat).1 = true) : s.HoldsFrame := by
  obtain ⟨-, hdecl, hexp, hstart, hlen⟩ := hheader.known hknown
  have hcnt : s.rxCnt.toNat = s.rxDecl.toNat + 5 := by rw [hcount, hexp, rxExp_length hdecl]
  rw [hcnt] at hend hcrc
  have hframe := readRange_eq_shortFrame (State.byteAt_of_get (buf := .rxbuf) hstart)
    (State.byteAt_of_get (buf := .rxbuf) hlen) hend hcrc
  refine ⟨hdecl, readRange (s.byteAt .rxbuf) 2 s.rxDecl.toNat, length_readRange _ _ _, fun i hi => ?_⟩
  rw [length_readRange] at hi
  rw [← hframe, getElem?_readRange hi, Nat.zero_add]
  exact State.get_eq_byteAt (buf := .rxbuf) (hstored i (by omega))

theorem State.InReceive.rxComplete {s : State} (h : s.InReceive) (hstored : s.BytesStored)
    (hheader : s.HeaderOk) : Answers (rxComplete s) State.Inv := by
  refine .ite_of (fun hcomplete => ?_) fun _ => ?_
  · obtain ⟨hknown, hcount, hend⟩ := hcomplete
    refine .ite (.ite_of (fun hcrc => ?_) fun _ => ?_) (.fault _ _)
    · exact h.finish (by simp) fun _ => holdsFrame_of_complete hstored hheader hknown hcount hend hcrc
    · exact h.finish (by simp) nofun
  · refine .ite_of (fun _ => ?_) fun hcount => ?_
    · exact (h.diag _).finish (by simp) nofun
    · exact .next (h.inv hstored hheader hcount)

theorem State.InReceive.declare {s : State} (h : s.InReceive) (d : Byte) :
    ({ s with rxDecl := d } : State).InReceive :=
  ⟨{ h.ranges with }, { h.results with }, { h.sequencing with }, h.receiving, h.invalid, h.noView⟩

/-- Two stored bytes that are dropped leave a receive that has taken none (R234, R235). -/
theorem State.InReceive.inv_of_dropped {s : State} (h : s.InReceive) (hunknown : s.rxExp.getLsbD 15 = false) :
    ({ s with rxCnt := 0 } : State).Inv := by
  have hdropped : ({ s with rxCnt := 0 } : State).InReceive :=
    ⟨{ h.ranges with rxCnt := Nat.zero_le _ }, { h.results with }, { h.sequencing with }, h.receiving,
      h.invalid, h.noView⟩
  refine hdropped.inv (fun a ha => absurd ha (Nat.not_lt_zero a)) ⟨fun _ => Nat.zero_le _, fun hknown => ?_⟩
    (by simp)
  exact absurd (hunknown.symm.trans hknown) Bool.false_ne_true

/-- The checks at the second byte (R234 to R236). -/
theorem State.InReceive.rxHeader {s : State} (h : s.InReceive) (hstored : s.BytesStored) (hcnt : s.rxCnt = 2)
    (hunknown : s.rxExp.getLsbD 15 = false) : Answers (rxHeader s) State.Inv := by
  have hbyte : ∀ a < 2, s.rxbuf.get a = some (s.byteAt .rxbuf a) := fun a ha =>
    State.get_eq_byteAt (buf := .rxbuf) (hstored a (by simpa [hcnt] using ha))
  refine .ite_of (fun hmarker => .ite_of (fun _ => .next ?overflow) fun hfits => ?short) fun _ =>
    .ite ?long (.next ?badStart)
  case overflow =>
    have hdropped := (h.declare (s.byteAt .rxbuf 1)).inv_of_dropped hunknown
    exact hdropped.of_unseen rfl
  case short =>
    have hdecl : (s.byteAt .rxbuf 1).toNat ≤ 251 := by unfold Config.rxbufSize at hfits; omega
    refine State.InReceive.rxComplete ?_ hstored ⟨?_, fun _ => ⟨?_, hdecl, rfl, ?_, hbyte 1 (by decide)⟩⟩
    · exact ⟨{ h.ranges with rxExpReserved := rxExp_reserved hdecl }, { h.results with },
        { h.sequencing with }, h.receiving, h.invalid, h.noView⟩
    · simp only [rxExp_valid]
      exact nofun
    · simp [hcnt]
    · rw [← hmarker]
      exact hbyte 0 (by decide)
  case long => exact (h.diag _).finish (by simp) nofun
  case badStart => exact (h.inv_of_dropped hunknown).of_unseen rfl

/-- A byte stored behind those of the current frame (R233). -/
def State.store (s : State) (b : Byte) : State :=
  { s with rxbuf := s.rxbuf.put s.rxCnt.toNat b, rxCnt := s.rxCnt + 1 }

theorem rxByte_eq_store {s : State} (h : s.rxCnt.toNat < Config.rxbufSize) (b : Byte) :
    rxByte b s = if (s.store b).rxCnt = 2 then rxHeader (s.store b) else rxComplete (s.store b) :=
  rxByte_stores h

theorem State.store_rxCnt {s : State} (h : s.rxCnt.toNat < Config.rxbufSize) (b : Byte) :
    (s.store b).rxCnt.toNat = s.rxCnt.toNat + 1 := by
  have h : s.rxCnt.toNat < 256 := h
  refine BitVec.toNat_add_of_lt ?_
  show s.rxCnt.toNat + 1 < 512
  omega

/-- The bytes already stored stay as they are. -/
theorem State.store_get {s : State} (b : Byte) {a : Nat} (ha : a < s.rxCnt.toNat) :
    (s.store b).rxbuf.get a = s.rxbuf.get a :=
  Memory.get_put_other _ b (by omega)

theorem State.BytesStored.store {s : State} (h : s.BytesStored) (hcount : s.rxCnt.toNat < Config.rxbufSize)
    (b : Byte) : (s.store b).BytesStored := by
  intro a ha
  rw [State.store_rxCnt hcount] at ha
  rcases Nat.lt_succ_iff_lt_or_eq.1 ha with hlt | rfl
  · rw [State.store_get b hlt]
    exact h a hlt
  · exact Option.isSome_iff_exists.2 ⟨b, Memory.get_put_same _ _ b⟩

theorem State.Inv.store_inReceive {s : State} (h : s.Inv) (hr : receiving s = true) (b : Byte) :
    (s.store b).InReceive where
  ranges :=
    { h.ranges with
      rxbuf := h.ranges.rxbuf.put (h.assembly.count hr) b
      rxCnt := by
        rw [State.store_rxCnt (h.assembly.count hr)]
        exact h.assembly.count hr }
  results := { h.results with }
  sequencing := { h.sequencing with }
  receiving := hr
  invalid := h.not_rxValid hr
  noView := h.view.noView (h.not_rxValid hr)

/-- Behind a byte that is not the second one, what is known of the frame stays known. -/
theorem State.Inv.store_headerOk {s : State} (h : s.Inv) (hr : receiving s = true) (b : Byte)
    (hother : (s.store b).rxCnt ≠ 2) : (s.store b).HeaderOk := by
  have hnext := State.store_rxCnt (h.assembly.count hr) b
  have hne : (s.store b).rxCnt.toNat ≠ 2 := fun e => hother (BitVec.eq_of_toNat_eq e)
  refine ⟨fun hunknown => ?_, fun hknown => ?_⟩
  · have hone := h.assembly.noHeader hr hunknown
    omega
  · obtain ⟨htwo, hdecl, hexp, hstart, hlen⟩ := h.assembly.header hr hknown
    exact ⟨by omega, hdecl, hexp, (State.store_get b (by omega)).trans hstart,
      (State.store_get b (by omega)).trans hlen⟩

/-- One byte of a receive in progress (R232). -/
theorem rxByte_inv {s : State} (h : s.Inv) (hr : receiving s = true) (b : Byte) :
    Answers (rxByte b s) State.Inv := by
  have hcount := h.assembly.count hr
  have hin := h.store_inReceive hr b
  have hstored : (s.store b).BytesStored := State.BytesStored.store (h.assembly.stored hr) hcount b
  rw [rxByte_eq_store hcount]
  refine .ite_of (fun hsecond => hin.rxHeader hstored hsecond ?_) fun hother =>
    hin.rxComplete hstored (h.store_headerOk hr b hother)
  rw [← Bool.not_eq_true]
  intro hknown
  have htwo := (h.assembly.header hr hknown).1
  have hnext := State.store_rxCnt hcount b
  rw [hsecond, show (2 : BitVec 9).toNat = 2 from rfl] at hnext
  omega

/-! ### Receive steps -/

theorem rxStep_inv {s : State} (h : s.Inv) (hr : receiving s = true) : Answers (rxStep s) State.Inv := by
  cases he : expired s with
  | true =>
    rw [rxStep_expired he]
    exact ((h.inReceive hr).diag _).finish (by simp) nofun
  | false =>
    cases hq : s.rxQueue with
    | nil => rw [rxStep_empty he hq]; exact .next h
    | cons b queue =>
      have hpop : ({ s with rxQueue := queue } : State).Inv := h.of_unseen rfl
      rw [rxStep_byte he hq]
      exact rxByte_inv hpop hr b

theorem rxSteps_inv (k : Nat) {s : State} (h : s.Inv) (hr : receiving s = true) :
    Answers (rxSteps k s) State.Inv := by
  induction k generalizing s with
  | zero => exact .next h
  | succ k ih =>
    intro t ht
    obtain ⟨u, hu, hrest⟩ := andThen_eq_next.1 ht
    have hinv : u.Inv := rxStep_inv h hr u hu
    refine Answers.ite_of (fun _ => .next hinv) (fun hnone => ih hinv ?_) t hrest
    have hnone : u.rxResult = .none := not_not.1 hnone
    exact receiving_iff.2 ⟨rxStep_mode hu hnone ▸ (receiving_iff.1 hr).1, hnone⟩

theorem engineTurn_inv {s : State} (h : s.Inv) : Answers (engineTurn s) State.Inv :=
  .ite_of (fun hc => rxStep_inv h hc.2.1) fun _ => .next h

theorem pollDrive_inv {s : State} (h : s.Inv) (hr : receiving s = true) : Answers (pollDrive s) State.Inv :=
  (rxSteps_inv _ h hr).andThen fun _ hu => .ite (decodeView_inv hu) (.next (hu.withRes _))

/-- `RxStart` leaves a receive that has taken no byte and has no view (R239). -/
theorem rxStart_inv {s : State} {mode : RxMode} (tmo : Time) (hranges : s.RangesOk)
    (hresults : (rxStart tmo mode s).ResultsOk) (hseq : (rxStart tmo mode s).SequencingOk) :
    (rxStart tmo mode s).Inv where
  ranges :=
    { hranges with
      rxLen := Nat.zero_le _
      rxCur := Nat.zero_le _
      rxCnt := Nat.zero_le _
      rxExpReserved := by simp [rxStart] }
  results := hresults
  sequencing := hseq
  assembly := ⟨fun _ => by simp [rxStart, Config.rxbufSize], fun _ => by simp [rxStart],
    fun _ _ => Nat.zero_le _, fun _ => by simp [rxStart]⟩
  view := ⟨nofun, fun _ => ⟨rfl, rfl⟩⟩

/-- The blocking receive of an operation that `OP_CUR` names (R33). -/
theorem rxStart_blocking_sequencing {s : State} (tmo : Time)
    (hop : s.opCur = 0x30 ∨ s.opCur = 0x50 ∨ s.opCur = 0x51 ∨ s.opCur = 0x52) :
    (rxStart tmo .blocking s).SequencingOk :=
  ⟨⟨fun _ => rfl, fun _ => rfl⟩, fun _ => rfl, fun _ => hop, nofun⟩

/-- While the engine is `READY` no response is awaited (R34). -/
theorem State.Inv.not_awaiting {s : State} (h : s.Inv) (hb : s.busy = false) : s.reqState ≠ .awaiting := by
  intro ha
  have hbusy := (h.results.awaiting.1 ha).1
  rw [hb] at hbusy
  cases hbusy

theorem execRecvBlocking_inv (t : Time) {s : State} (h : s.Inv) :
    Answers (execRecvBlocking t s) State.Inv := by
  refine accept_inv h fun hb => .next (rxStart_inv t { h.ranges with } ?_ ?_)
  · exact { h.results with
      rxResult := List.mem_cons_self
      awaiting := ⟨fun ha => absurd ha (h.not_awaiting hb), fun ⟨_, hop⟩ => absurd rfl hop⟩ }
  · exact rxStart_blocking_sequencing t (.inl rfl)

theorem execArm_inv (hint : BitVec 16) {s : State} (h : s.Inv) : Answers (execArm hint s) State.Inv := by
  have hhint : ({ s with rxHint := hint } : State).Inv := h.of_unseen rfl
  refine accept_inv h fun hb => .next (State.Inv.withRes (rxStart_inv _ hhint.ranges ?_ ?_) _)
  · exact { h.results with rxResult := List.mem_cons_self }
  · have hnot : ¬ s.busy = true := by simp [hb]
    exact ⟨⟨fun hbusy => absurd hbusy hnot, nofun⟩, fun _ => rfl, fun hbusy => absurd hbusy hnot,
      h.sequencing.opReady⟩

theorem execPoll_inv {s : State} (h : s.Inv) : Answers (execPoll s) State.Inv := by
  refine accept_inv h fun _ => .ite_of (fun _ => .next (h.withRes _)) fun harmed =>
    .ite_of (fun _ => .next (h.withRes _)) fun hnone => pollDrive_inv h ?_
  exact receiving_iff.2 ⟨by rw [not_not.1 harmed]; exact nofun, not_not.1 hnone⟩

end Sys2Proof.Machine
end

section
/-! SUPPORT. The operations outside the receiver keep the invariant, and so does every move of an agent. -/

namespace Sys2Proof.Machine

/-! ### Payload assembly (41_field_codec.md R175 to R179, 44_command_dispatch.md R300) -/

/-- Bytes written without a gap behind, or over, the payload under assembly, with the cursor behind them. -/
theorem State.RangesOk.put_txpay {s : State} (h : s.RangesOk) {a : Nat} {bytes : List Byte}
    (ha : a ≤ s.txCur.toNat) (hfit : a + bytes.length ≤ Config.txCap) :
    ({ s with txpay := s.txpay.putAll a bytes, txCur := BitVec.ofNat 16 (a + bytes.length) } : State).RangesOk := by
  have hcur : (BitVec.ofNat 16 (a + bytes.length)).toNat = a + bytes.length := by
    rw [BitVec.toNat_ofNat, Nat.mod_eq_of_lt (by unfold Config.txCap at hfit; omega)]
  refine { h with txpay := h.txpay.putAll hfit, txCur := hcur.le.trans hfit, txWritten := fun i hi => ?_ }
  have hi : i < a + bytes.length := hcur ▸ hi
  show ((s.txpay.putAll a bytes).get i).isSome
  rw [Memory.get_putAll]
  split_ifs with hin
  · rw [List.getElem?_eq_getElem (by omega)]
    rfl
  · exact h.txWritten i (by omega)

theorem append_inv (bytes : List Byte) {s : State} (h : s.Inv) : Answers (append bytes s) State.Inv := by
  refine .ite_of (fun _ => .next (h.raise _)) fun hfit => .next ?_
  exact ⟨{ h.ranges.put_txpay le_rfl (not_lt.1 hfit) with }, { h.results with }, { h.sequencing with },
    { h.assembly with }, { h.view with }⟩

theorem execPayReset_inv {s : State} (h : s.Inv) : Answers (execPayReset s) State.Inv := by
  refine accept_inv h fun _ => .next ?_
  exact ⟨{ h.ranges with txCur := Nat.zero_le _, txWritten := fun _ ha => absurd ha (Nat.not_lt_zero _) },
    { h.results with }, { h.sequencing with }, { h.assembly with }, { h.view with }⟩

/-! ### Reads of the view (41_field_codec.md R180 to R186) -/

/-- The read cursor may move inside a view, and a read may record a scale that is not zero. -/
theorem State.Inv.moveCursor {s : State} (h : s.Inv) (hv : s.rxValid = true) {c : Byte}
    (hc : c.toNat ≤ s.rxLen.toNat) {scale : Word32} (hs : scale ≠ 0) :
    ({ s with rxCur := c, getScale := scale } : State).Inv :=
  ⟨{ h.ranges with rxCur := hc, getScale := hs }, { h.results with }, { h.sequencing with },
    { h.assembly with }, { h.view with noView := fun hn => absurd (hn.symm.trans hv) Bool.false_ne_true }⟩

theorem execRxSeek_inv (p : Byte) {s : State} (h : s.Inv) : Answers (execRxSeek p s) State.Inv := by
  refine accept_inv h fun _ => .ite_of (fun _ => .next (h.raise _)) fun hc => .next ?_
  obtain ⟨hv, hp⟩ := not_or.1 hc
  have hmoved := h.moveCursor (by simpa using hv) (not_lt.1 hp) h.ranges.getScale
  exact hmoved.of_unseen rfl

theorem getField_inv (w : Nat) (dec : List Byte → Word32) {scale : Word32} (hs : scale ≠ 0) {s : State}
    (h : s.Inv) : Answers (getField w dec scale s) State.Inv := by
  refine .ite_of (fun _ => .next (h.raise _)) fun hc => .within (.next ?_)
  obtain ⟨hv, hfit⟩ := not_or.1 hc
  have hcur : (BitVec.ofNat 8 (s.rxCur.toNat + w)).toNat ≤ s.rxLen.toNat := by
    rw [BitVec.toNat_ofNat]
    exact (Nat.mod_le _ _).trans (not_lt.1 hfit)
  have hmoved := h.moveCursor (by simpa using hv) hcur hs
  exact hmoved.of_unseen rfl

theorem getScaled_inv (w : Nat) (dec : List Byte → Word32) (scale : Word32) {s : State} (h : s.Inv) :
    Answers (getScaled w dec scale s) State.Inv :=
  .ite_of (fun _ => .next (h.raise _)) fun hs => getField_inv w dec hs h

/-! ### CRC, frames and configuration -/

theorem execCrc16_inv (buf : Buffer) (off n : BitVec 16) {s : State} (h : s.Inv) :
    Answers (execCrc16 buf off n s) State.Inv :=
  accept_inv h fun _ => .ite (.next (h.raise _)) (.next (h.of_unseen rfl))

theorem execFrameSend_inv {s : State} (h : s.Inv) : Answers (execFrameSend s) State.Inv :=
  accept_inv h fun _ => .within (.next (h.of_unseen rfl))

theorem execFrameCheck_inv (n : Word32) {s : State} (h : s.Inv) : Answers (execFrameCheck n s) State.Inv :=
  accept_inv h fun _ =>
    .ite (.next (h.withRes _)) (.ite (.next (h.of_unseen rfl)) (.next (h.of_unseen rfl)))

theorem execDecodePayload_inv {s : State} (h : s.Inv) : Answers (execDecodePayload s) State.Inv :=
  accept_inv h fun _ => .ite (.next (h.raise _)) (decodeView_inv h)

theorem buttonBits_lt (lower upper : Bool) : (buttonBits lower upper).toNat < 4 := by
  cases lower <;> cases upper <;> decide

theorem execAuxWrite_inv (x y : Byte) (lower upper : Bool) {s : State} (h : s.Inv) :
    Answers (execAuxWrite x y lower upper s) State.Inv :=
  accept_inv h fun _ => .next
    ⟨{ h.ranges with auxBtn := buttonBits_lt lower upper }, { h.results with }, { h.sequencing with },
      { h.assembly with }, { h.view with }⟩

theorem execCfgTimeout_inv (t : Time) {s : State} (h : s.Inv) : Answers (execCfgTimeout t s) State.Inv :=
  accept_inv h fun _ => .next (h.of_unseen rfl)

theorem execClrErr_inv {s : State} (h : s.Inv) : Answers (execClrErr s) State.Inv :=
  accept_inv h fun _ => .next (h.of_unseen rfl)

/-! ### Requests (44_command_dispatch.md R340) -/

theorem State.RangesOk.build {s : State} (h : s.RangesOk) (c : Command) (can : Byte) :
    (build c can s).RangesOk := by
  have hfit : 0 + (c.addressed can).length ≤ Config.txCap := by
    have hlen := addressed_length c can
    unfold Config.txCap
    omega
  have hput := h.put_txpay (Nat.zero_le _) hfit
  rw [Nat.zero_add] at hput
  exact hput

/-- A request without a response ends at once (R341). -/
theorem requestOnly_inv (sel : Byte) (c : Command) (can : Byte) {s : State} (h : s.Inv) :
    Answers (requestOnly sel c can s) State.Inv := by
  cases hb : s.busy with
  | true =>
    rw [requestOnly, accept_busy hb]
    exact .next (h.of_unseen rfl)
  | false =>
    rw [requestOnly_ready hb]
    have hnot : ¬ s.busy = true := by simp [hb]
    exact .next
      ⟨{ h.ranges.build c can with },
        { h.results with
          reqResult := by simp
          reqNeverSeen := nofun
          awaiting := ⟨nofun, fun hbusy => absurd hbusy.1 hnot⟩ },
        { h.sequencing with opBusy := fun hbusy => absurd hbusy hnot, opReady := fun _ => rfl },
        { h.assembly with }, { h.view with }⟩

/-- The selector of a query is one of R301 to R303. -/
theorem requestAndAwait_inv {sel : Byte} (hsel : sel = 0x50 ∨ sel = 0x51 ∨ sel = 0x52) (c : Command)
    (can : Byte) {s : State} (h : s.Inv) : Answers (requestAndAwait sel c can s) State.Inv := by
  cases hb : s.busy with
  | true =>
    rw [requestAndAwait, accept_busy hb]
    exact .next (h.of_unseen rfl)
  | false =>
    rw [requestAndAwait_ready hb]
    have hquery : sel ≠ 0x30 := by rcases hsel with rfl | rfl | rfl <;> decide
    refine .next (rxStart_inv _ ?_ ?_ (rxStart_blocking_sequencing _ (.inr hsel)))
    · exact { h.ranges.build c can with }
    · exact { h.results with
        rxResult := List.mem_cons_self
        reqResult := List.mem_cons_self
        reqNeverSeen := nofun
        awaiting := ⟨fun _ => ⟨rfl, hquery⟩, fun _ => rfl⟩ }

/-! ### Host operations and moves -/

/-- Every host operation keeps the invariant. -/
theorem exec_inv {i : Instr} {v : OpWord} (hi : encode i = .host v) {s : State} (h : s.Inv) :
    Answers (exec i s) State.Inv := by
  cases i with
  | crc16 buf off n => exact execCrc16_inv buf off n h
  | payReset => exact execPayReset_inv h
  | appendU8 | appendBool | appendInt32 | appendUint32 => exact accept_inv h fun _ => append_inv _ h
  | rxSeek p => exact execRxSeek_inv p h
  | getU8 | getInt32 | getUint32 => exact accept_inv h fun _ => getField_inv _ _ (by decide) h
  | getFloat16 scale | getFloat32 scale => exact accept_inv h fun _ => getScaled_inv _ _ scale h
  | frameSend => exact execFrameSend_inv h
  | frameCheck n => exact execFrameCheck_inv n h
  | recvBlocking t => exact execRecvBlocking_inv t h
  | arm hint => exact execArm_inv hint h
  | poll => exact execPoll_inv h
  | decodePayload => exact execDecodePayload_inv h
  | reqFwVersion | reqValues | reqValuesSel => exact requestAndAwait_inv (by decide) _ _ h
  | setCurrent | setCurrentBrake | setRpm | setPos | setDuty | setAux | sendAlive =>
    exact requestOnly_inv _ _ _ h
  | auxWrite x y lower upper => exact execAuxWrite_inv x y lower upper h
  | cfgTimeout t => exact execCfgTimeout_inv t h
  | clrErr => exact execClrErr_inv h
  | commFwVersion | commGetValues | commSetDuty | commSetCurrent | commSetCurrentBrake | commSetRpm | commSetPos
  | commAlive | commForwardCan | commSetChuckData | commGetValuesSelective =>
    exact absurd hi (encodeWire_ne_host _ _ _ v)
  | frameShort w | frameLong w => cases w <;> cases hi

theorem issueWord_inv (w : OpWord) {s : State} (h : s.Inv) : Answers (issueWord w s) State.Inv := by
  cases hd : decode (.host w) with
  | ok i =>
    obtain ⟨v, hv⟩ := encode_of_decodeWord hd
    rw [issueWord, hd]
    exact exec_inv hv h
  | error e =>
    rw [issueWord, hd]
    exact accept_inv h fun _ => .next (h.raise _)

/-- The state after reset meets the invariant (70_reset_and_hazards.md R410). -/
theorem reset_inv : State.reset.Inv where
  ranges := ⟨Memory.Sound.nil _, Memory.Sound.nil _, by decide, nofun, by decide, by decide, by decide,
    by decide, by decide, by decide, nofun⟩
  results := ⟨by decide, by decide, by decide, nofun, by decide⟩
  sequencing := ⟨by decide, nofun, nofun, fun _ => rfl⟩
  assembly := .of_not_receiving (by decide)
  view := ⟨nofun, fun _ => ⟨rfl, rfl⟩⟩

/-- Every agent's move keeps the invariant (00_scope.md R18). -/
theorem agentMove_inv (ev : Event) {s : State} (h : s.Inv) : Answers (agentMove ev s) State.Inv := by
  cases ev with
  | op w => exact issueWord_inv w h
  | rx b => exact .next (h.of_unseen rfl)
  | tick ms => exact .next (h.of_unseen rfl)
  | engine => exact engineTurn_inv h
  | reset => exact .next (reset_inv.of_unseen rfl)

/-- Settles O57: a step is the engine's turn or the move of the first pending event. -/
theorem stepKeepsInvariant : Obligations.StepKeepsInvariant := by
  intro s t h hstep
  cases hs : s.sched with
  | nil =>
    rw [step_idle hs] at hstep
    exact engineTurn_inv h t hstep
  | cons ev rest =>
    rw [step_event hs] at hstep
    have hpopped : ({ s with sched := rest } : State).Inv := h.of_unseen rfl
    exact agentMove_inv ev hpopped t hstep

end Sys2Proof.Machine
end

section
/-! SUPPORT. No move but `AUX_WRITE` and reset writes the auxiliary input state (10_state.md R38): each operation
leaves the three registers as it finds them. -/

namespace Sys2Proof.Machine

/-- The auxiliary input state (R38). -/
def State.aux (s : State) : Byte × Byte × Byte := (s.auxX, s.auxY, s.auxBtn)

/-- The auxiliary input state holds `a`. -/
def HoldsAux (a : Byte × Byte × Byte) (s : State) : Prop := s.aux = a

section

variable {a : Byte × Byte × Byte} {s : State}

theorem HoldsAux.raise (h : HoldsAux a s) (e : ErrFlag) : HoldsAux a (s.raise e) := by
  cases e <;> exact h

theorem accept_aux {f : State → Res} (h : HoldsAux a s) (hf : Answers (f s) (HoldsAux a)) :
    Answers (accept s f) (HoldsAux a) :=
  .accept h hf

theorem append_aux (bytes : List Byte) (h : HoldsAux a s) : Answers (append bytes s) (HoldsAux a) :=
  .ite (.next (h.raise _)) (.next h)

theorem getField_aux (w : Nat) (dec : List Byte → Word32) (scale : Word32) (h : HoldsAux a s) :
    Answers (getField w dec scale s) (HoldsAux a) :=
  .ite (.next (h.raise _)) (.within (.next h))

theorem getScaled_aux (w : Nat) (dec : List Byte → Word32) (scale : Word32) (h : HoldsAux a s) :
    Answers (getScaled w dec scale s) (HoldsAux a) :=
  .ite (.next (h.raise _)) (getField_aux w dec scale h)

theorem decodeSite_aux (p : List Byte) (h : HoldsAux a s) : HoldsAux a (decodeSite p s) := by
  obtain ⟨d, hd, -, -⟩ := decodeSite_cases p s
  rw [hd]
  exact h

theorem decodeView_aux (h : HoldsAux a s) : Answers (decodeView s) (HoldsAux a) :=
  .within (.next (decodeSite_aux s.view h))

/-! ### The receiver (43_receiver.md R232 to R251) -/

theorem completeRequest_aux (expected : CommandName) (rc : ResultCode) (h : HoldsAux a s) :
    Answers (completeRequest expected rc s) (HoldsAux a) :=
  .ite (.within (.next (decodeSite_aux s.view h))) (.next h)

theorem completeOp_aux (rc : ResultCode) (h : HoldsAux a s) : Answers (completeOp rc s) (HoldsAux a) :=
  .ite (.next h) <| .ite (completeRequest_aux _ rc h) <| .ite (completeRequest_aux _ rc h) <|
    .ite (completeRequest_aux _ rc h) (.fault _ _)

theorem finish_aux (rc : ResultCode) (h : HoldsAux a s) : Answers (finish rc s) (HoldsAux a) := by
  have hend : HoldsAux a (endReceive rc s) := by
    rw [endReceive_eq]
    exact h
  have hidle : HoldsAux a (endReceive rc s).receiverIdle := hend
  exact .ite ((completeOp_aux rc hidle).andThen fun _ hu => .next hu) (.next hend)

theorem rxComplete_aux (h : HoldsAux a s) : Answers (rxComplete s) (HoldsAux a) :=
  .ite (.ite (.ite (finish_aux _ h) (finish_aux _ h)) (.fault _ _)) (.ite (finish_aux _ h) (.next h))

theorem rxHeader_aux (h : HoldsAux a s) : Answers (rxHeader s) (HoldsAux a) :=
  .ite (.ite (.next h) (rxComplete_aux h)) (.ite (finish_aux _ h) (.next h))

theorem rxByte_aux (b : Byte) (h : HoldsAux a s) : Answers (rxByte b s) (HoldsAux a) :=
  .within (.ite (rxHeader_aux h) (rxComplete_aux h))

theorem rxStep_aux (h : HoldsAux a s) : Answers (rxStep s) (HoldsAux a) := by
  cases he : expired s with
  | true => rw [rxStep_expired he]; exact finish_aux _ h
  | false =>
    cases hq : s.rxQueue with
    | nil => rw [rxStep_empty he hq]; exact .next h
    | cons b queue => rw [rxStep_byte he hq]; exact rxByte_aux b h

theorem rxSteps_aux (k : Nat) (h : HoldsAux a s) : Answers (rxSteps k s) (HoldsAux a) := by
  induction k generalizing s with
  | zero => exact .next h
  | succ k ih => exact (rxStep_aux h).andThen fun _ hu => .ite (.next hu) (ih hu)

theorem engineTurn_aux (h : HoldsAux a s) : Answers (engineTurn s) (HoldsAux a) :=
  .ite (rxStep_aux h) (.next h)

theorem pollDrive_aux (h : HoldsAux a s) : Answers (pollDrive s) (HoldsAux a) :=
  (rxSteps_aux _ h).andThen fun _ hu => .ite (decodeView_aux hu) (.next hu)

/-! ### Host operations -/

theorem execCrc16_aux (buf : Buffer) (off n : BitVec 16) (h : HoldsAux a s) :
    Answers (execCrc16 buf off n s) (HoldsAux a) :=
  accept_aux h (.ite (.next (h.raise _)) (.next h))

theorem execPayReset_aux (h : HoldsAux a s) : Answers (execPayReset s) (HoldsAux a) :=
  accept_aux h (.next h)

theorem execRxSeek_aux (p : Byte) (h : HoldsAux a s) : Answers (execRxSeek p s) (HoldsAux a) :=
  accept_aux h (.ite (.next (h.raise _)) (.next h))

theorem execFrameSend_aux (h : HoldsAux a s) : Answers (execFrameSend s) (HoldsAux a) :=
  accept_aux h (.within (.next h))

theorem execFrameCheck_aux (n : Word32) (h : HoldsAux a s) : Answers (execFrameCheck n s) (HoldsAux a) :=
  accept_aux h (.ite (.next h) (.ite (.next h) (.next h)))

theorem execRecvBlocking_aux (t : Time) (h : HoldsAux a s) : Answers (execRecvBlocking t s) (HoldsAux a) :=
  accept_aux h (.next h)

theorem execArm_aux (hint : BitVec 16) (h : HoldsAux a s) : Answers (execArm hint s) (HoldsAux a) :=
  accept_aux h (.next h)

theorem execPoll_aux (h : HoldsAux a s) : Answers (execPoll s) (HoldsAux a) :=
  accept_aux h (.ite (.next h) (.ite (.next h) (pollDrive_aux h)))

theorem execDecodePayload_aux (h : HoldsAux a s) : Answers (execDecodePayload s) (HoldsAux a) :=
  accept_aux h (.ite (.next (h.raise _)) (decodeView_aux h))

theorem requestSend_aux (sel : Byte) (c : Command) (can : Byte) (h : HoldsAux a s) :
    HoldsAux a (requestSend sel c can s) := by
  rw [requestSend, buildAndSend_eq]
  exact h

theorem requestOnly_aux (sel : Byte) (c : Command) (can : Byte) (h : HoldsAux a s) :
    Answers (requestOnly sel c can s) (HoldsAux a) := by
  have hsent := requestSend_aux sel c can h
  exact accept_aux h (.next hsent)

theorem requestAndAwait_aux (sel : Byte) (c : Command) (can : Byte) (h : HoldsAux a s) :
    Answers (requestAndAwait sel c can s) (HoldsAux a) := by
  have hsent := requestSend_aux sel c can h
  exact accept_aux h (.next hsent)

theorem execCfgTimeout_aux (t : Time) (h : HoldsAux a s) : Answers (execCfgTimeout t s) (HoldsAux a) :=
  accept_aux h (.next h)

theorem execClrErr_aux (h : HoldsAux a s) : Answers (execClrErr s) (HoldsAux a) :=
  accept_aux h (.next h)

/-- Every host operation but `AUX_WRITE` leaves the auxiliary input state as it is. -/
theorem exec_aux {i : Instr} {v : OpWord} (hi : encode i = .host v)
    (haux : ∀ x y lower upper, i ≠ .auxWrite x y lower upper) (h : HoldsAux a s) :
    Answers (exec i s) (HoldsAux a) := by
  cases i with
  | crc16 buf off n => exact execCrc16_aux buf off n h
  | payReset => exact execPayReset_aux h
  | appendU8 | appendBool | appendInt32 | appendUint32 => exact accept_aux h (append_aux _ h)
  | rxSeek p => exact execRxSeek_aux p h
  | getU8 | getInt32 | getUint32 => exact accept_aux h (getField_aux _ _ _ h)
  | getFloat16 | getFloat32 => exact accept_aux h (getScaled_aux _ _ _ h)
  | frameSend => exact execFrameSend_aux h
  | frameCheck n => exact execFrameCheck_aux n h
  | recvBlocking t => exact execRecvBlocking_aux t h
  | arm hint => exact execArm_aux hint h
  | poll => exact execPoll_aux h
  | decodePayload => exact execDecodePayload_aux h
  | reqFwVersion | reqValues | reqValuesSel => exact requestAndAwait_aux _ _ _ h
  | setCurrent | setCurrentBrake | setRpm | setPos | setDuty | setAux | sendAlive =>
    exact requestOnly_aux _ _ _ h
  | cfgTimeout t => exact execCfgTimeout_aux t h
  | clrErr => exact execClrErr_aux h
  | auxWrite x y lower upper => exact absurd rfl (haux x y lower upper)
  | commFwVersion | commGetValues | commSetDuty | commSetCurrent | commSetCurrentBrake | commSetRpm | commSetPos
  | commAlive | commForwardCan | commSetChuckData | commGetValuesSelective =>
    exact absurd hi (encodeWire_ne_host _ _ _ v)
  | frameShort w | frameLong w => cases w <;> cases hi

/-- Only the selector 0x60 is read as `AUX_WRITE` (30_encoding.md R110). -/
theorem wordSel_of_decodeWord_auxWrite {w : OpWord} {x y : Byte} {lower upper : Bool}
    (h : decodeWord w = .ok (.auxWrite x y lower upper)) : wordSel w = 0x60 := by
  unfold decodeWord at h
  split at h <;> cases h
  exact BitVec.eq_of_toNat_eq ‹_›

theorem issueWord_aux {w : OpWord} (hw : wordSel w ≠ 0x60) (h : HoldsAux a s) :
    Answers (issueWord w s) (HoldsAux a) := by
  cases hd : decode (.host w) with
  | ok i =>
    obtain ⟨v, hv⟩ := encode_of_decodeWord hd
    rw [issueWord, hd]
    refine exec_aux hv ?_ h
    rintro x y lower upper rfl
    exact hw (wordSel_of_decodeWord_auxWrite hd)
  | error e =>
    rw [issueWord, hd]
    exact accept_aux h (.next (h.raise _))

/-- A move that is neither reset nor an `AUX_WRITE` word leaves the auxiliary input state as it is. -/
theorem agentMove_aux {ev : Event} (hreset : ev ≠ .reset) (hop : ∀ w, ev = .op w → wordSel w ≠ 0x60)
    (h : HoldsAux a s) : Answers (agentMove ev s) (HoldsAux a) := by
  cases ev with
  | op w => exact issueWord_aux (hop w rfl) h
  | rx b => exact .next h
  | tick ms => exact .next h
  | engine => exact engineTurn_aux h
  | reset => exact absurd rfl hreset

end

/-- Settles O53: a step is the engine's turn or the move of the first pending event. -/
theorem auxOnlyByAuxWrite : Obligations.AuxOnlyByAuxWrite := by
  intro s t hreset hop hstep
  have haux : HoldsAux s.aux t := by
    cases hs : s.sched with
    | nil =>
      rw [step_idle hs] at hstep
      exact engineTurn_aux rfl t hstep
    | cons ev rest =>
      rw [step_event hs] at hstep
      rw [hs] at hreset hop
      refine agentMove_aux (fun e => hreset (e ▸ rfl)) (fun w e => hop w (e ▸ rfl)) ?_ t hstep
      rfl
  simpa only [HoldsAux, State.aux, Prod.mk.injEq] using haux

end Sys2Proof.Machine
end

section
/-! SUPPORT. What the host read port shows (10_state.md R31, R32, 20_memory.md R82). -/

namespace Sys2Proof.Machine

/-! ### The `STATUS` word (10_state.md R32) -/

/-- The number with these bits, bit 0 first. -/
def natOfBits : List Bool → Nat
  | [] => 0
  | b :: bs => Nat.bit b (natOfBits bs)

theorem testBit_natOfBits (bs : List Bool) (i : Nat) : (natOfBits bs).testBit i = bs.getD i false := by
  induction bs generalizing i with
  | nil => simp [natOfBits]
  | cons b bs ih =>
    cases i with
    | zero => simp [natOfBits]
    | succ i => simp [natOfBits, Nat.testBit_bit_succ, ih]

/-- The flags of `STATUS` from bit 0 up, the two bits of `RX_MODE` as its two modes (R32). -/
def statusBits (s : State) : List Bool :=
  [s.busy, decide (s.rxMode = .blocking), decide (s.rxMode = .armed), s.rxValid, s.rxErrBadStart,
    s.rxErrLenOvf, s.errBusy, s.errBounds, s.errArg, s.errOp, s.latestValid, s.prevValid, s.fwValid]

theorem flagBit_eq (b : Bool) (i : Nat) : flagBit b i = b.toNat * 2 ^ i := by
  cases b <;> simp [flagBit]

theorem RxMode.code_eq_bits (m : RxMode) :
    m.code = (decide (m = .blocking)).toNat + 2 * (decide (m = .armed)).toNat := by
  cases m <;> rfl

theorem statusWord_eq_bits (s : State) : statusWord s = BitVec.ofNat 32 (natOfBits (statusBits s)) := by
  rw [statusWord]
  congr 1
  simp only [RxMode.code_eq_bits, flagBit_eq, statusBits, natOfBits, Nat.bit_val]
  ring

/-- Each bit of the word is its flag, and a bit behind the flags reads 0. -/
theorem getLsbD_statusWord (s : State) (i : Nat) : (statusWord s).getLsbD i = (statusBits s).getD i false := by
  rw [statusWord_eq_bits, BitVec.getLsbD_ofNat, testBit_natOfBits]
  by_cases hi : i < 32
  · simp [hi]
  · have hlen : (statusBits s).length ≤ i := by
      simp only [statusBits, List.length_cons, List.length_nil]
      omega
    rw [List.getD_eq_default _ _ hlen, decide_eq_false hi, Bool.false_and]

/-- Settles O49, bit by bit. -/
theorem statusWordFields : Obligations.StatusWordFields := by
  intro s
  have hbit := getLsbD_statusWord s
  refine ⟨hbit 0, ?mode, hbit 3, hbit 4, hbit 5, hbit 6, hbit 7, hbit 8, hbit 9, hbit 10, hbit 11, hbit 12,
    ?reserved⟩
  case mode =>
    refine BitVec.eq_of_getLsbD_eq fun i hi => ?_
    rw [BitVec.getLsbD_extractLsb', readReg, hbit]
    interval_cases i <;> cases hm : s.rxMode <;> simp [statusBits, hm]
  case reserved =>
    refine BitVec.eq_of_getLsbD_eq fun i hi => ?_
    have hlen : (statusBits s).length ≤ 13 + i := by simp [statusBits]
    rw [BitVec.getLsbD_extractLsb', readReg, hbit, List.getD_eq_default _ _ hlen]
    simp

/-! ### The other registers (10_state.md R31) -/

theorem bankReg_eq (bank : Vector (BitVec 32) 18) (k : Fin 18) : bankReg bank k = bank[k] := by
  simp [bankReg]

/-- From number 0x1C on, the port shows the two banks and nothing else. -/
theorem readReg_bank (s : State) {n : Nat} (h : 0x1C ≤ n) :
    readReg s n = if 0x20 ≤ n ∧ n ≤ 0x31 then bankReg s.latest (n - 0x20)
      else if 0x40 ≤ n ∧ n ≤ 0x51 then bankReg s.prev (n - 0x40) else 0 := by
  rw [readReg] <;> omega

theorem readReg_latest (s : State) (k : Fin 18) : readReg s (0x20 + k) = s.latest[k] := by
  rw [readReg_bank s (by omega), if_pos (by omega), Nat.add_sub_cancel_left, bankReg_eq]

theorem readReg_prev (s : State) (k : Fin 18) : readReg s (0x40 + k) = s.prev[k] := by
  rw [readReg_bank s (by omega), if_neg (by omega), if_pos (by omega), Nat.add_sub_cancel_left, bankReg_eq]

theorem readReg_unlisted (s : State) {n : Nat}
    (h : (0x1C ≤ n ∧ n ≤ 0x1F) ∨ (0x32 ≤ n ∧ n ≤ 0x3F) ∨ 0x52 ≤ n) : readReg s n = 0 := by
  rw [readReg_bank s (by omega), if_neg (by omega), if_neg (by omega)]

/-- A register of at most 32 bits reads as its own number. -/
theorem toNat_zeroExtend_word {w : Nat} (x : BitVec w) (hw : w ≤ 32 := by decide) :
    (x.zeroExtend 32).toNat = x.toNat :=
  BitVec.toNat_setWidth_of_le hw

/-! ### The buffers (20_memory.md R82) -/

theorem readBuf_written {s : State} {buf : Buffer} {a : Nat} (ha : a < Config.bufSize buf) (draw : Nat) {b : Byte}
    (h : (s.mem buf).get a = some b) : readBuf s buf a draw = some b := by
  rw [readBuf, if_pos ha, h, Option.getD_some]

theorem readBuf_isSome (s : State) (buf : Buffer) (a draw : Nat) :
    (readBuf s buf a draw).isSome = true ↔ a < Config.bufSize buf := by
  unfold readBuf
  split_ifs with ha <;> simp [ha]

/-- Settles O60, row by row of R31, then the banks, the gaps and the buffers. -/
theorem readPortValues : Obligations.ReadPortValues := by
  intro s code reqState
  have hcode : ∀ r : ResultCode, (r.code.zeroExtend 32).toNat = code r := by
    intro r
    cases r <;> rfl
  have hreq : (s.reqState.code.zeroExtend 32).toNat = reqState := by
    simp only [reqState]
    cases s.reqState <;> rfl
  refine ⟨?rows, fun k => ⟨readReg_latest s k, readReg_prev s k⟩, fun n => readReg_unlisted s, fun a draw =>
    ⟨fun b ha => readBuf_written (buf := .rxbuf) ha draw, fun b ha => readBuf_written (buf := .txpay) ha draw,
      readBuf_isSome s .rxbuf a draw, readBuf_isSome s .txpay a draw⟩⟩
  simp only [List.forall_mem_cons]
  exact ⟨hcode _, rfl, toNat_zeroExtend_word _, toNat_zeroExtend_word _, toNat_zeroExtend_word _,
    toNat_zeroExtend_word _, toNat_zeroExtend_word _, rfl, rfl, toNat_zeroExtend_word _,
    toNat_zeroExtend_word _, toNat_zeroExtend_word _, rfl, rfl, toNat_zeroExtend_word _, hcode _, hreq,
    hcode _, toNat_zeroExtend_word _, toNat_zeroExtend_word _, hcode _, toNat_zeroExtend_word _,
    toNat_zeroExtend_word _, toNat_zeroExtend_word _, toNat_zeroExtend_word _, toNat_zeroExtend_word _,
    toNat_zeroExtend_word _, nofun⟩

end Sys2Proof.Machine
end

section
/-! SUPPORT. The walk of `ApplyTelem` field by field (44_command_dispatch.md R320 to R334): each selected field is
read at its own offset. -/

namespace Sys2Proof.Machine

/-! ### Big-endian fields (20_memory.md R84, 41_field_codec.md R162) -/

/-- One more byte of a big-endian number. -/
theorem ofNat_mul_256_add (w n : Nat) (b : Byte) :
    BitVec.ofNat (w + 8) (n * 256 + b.toNat) = BitVec.ofNat w n ++ b := by
  apply BitVec.eq_of_getLsbD_eq
  intro i hi
  have hb : b.toNat < 2 ^ 8 := b.isLt
  rw [BitVec.getLsbD_ofNat, BitVec.getLsbD_append, BitVec.getLsbD_ofNat, show n * 256 = 2 ^ 8 * n by omega,
    Nat.testBit_two_pow_mul_add _ hb]
  by_cases h8 : i < 8
  · simp [h8, hi, BitVec.getLsbD]
  · simp [h8, hi, show i - 8 < w by omega]

theorem decU8_eq (b : Byte) : decU8 [b] = b.zeroExtend 32 := by
  simp [decU8, beNat]

theorem decS16_eq (a b : Byte) : decS16 [a, b] = (a ++ b).signExtend 32 := by
  have h : beNat [a, b] = a.toNat * 256 + b.toNat := by simp [beNat]
  rw [decS16, h, ofNat_mul_256_add 8, BitVec.ofNat_toNat, BitVec.setWidth_eq]

theorem dec32_eq (a b c d : Byte) : dec32 [a, b, c, d] = a ++ b ++ c ++ d := by
  have h : beNat [a, b, c, d] = ((a.toNat * 256 + b.toNat) * 256 + c.toNat) * 256 + d.toNat := by simp [beNat]
  rw [dec32, h, ofNat_mul_256_add 24, ofNat_mul_256_add 16, ofNat_mul_256_add 8, BitVec.ofNat_toNat,
    BitVec.setWidth_eq]

theorem dec32_enc32 (v : Word32) : dec32 (enc32 v) = v := by
  apply BitVec.eq_of_toNat_eq
  have hv : v.toNat < 2 ^ 32 := v.isLt
  simp only [dec32, enc32, beNat, List.foldl_cons, List.foldl_nil, BitVec.extractLsb'_toNat,
    BitVec.toNat_ofNat, Nat.shiftRight_eq_div_pow]
  omega

theorem take_drop_eq_readRange (bs : List Byte) {a n : Nat} (h : a + n ≤ bs.length) :
    (bs.drop a).take n = readRange (fun i => bs.getD i 0) a n := by
  refine List.ext_getElem (by simp; omega) fun i h1 h2 => ?_
  rw [length_readRange] at h2
  rw [getElem_readRange, List.getElem_take, List.getElem_drop, List.getD_eq_getElem _ _ (by omega)]

/-- The decoder of a field's type reads the field's bytes big-endian and extends them as its type asks (R332). -/
theorem decField_eq_telemWord (k : Nat) (bs : List Byte) {start : Nat}
    (h : start + (telemType k).width ≤ bs.length) :
    decField (telemType k) ((bs.drop start).take (telemType k).width) = telemWord k bs start := by
  rw [take_drop_eq_readRange bs h]
  cases ht : telemType k with
  | u8 => simp [telemWord, ht, decField, FieldType.width, readRange, List.range_succ, decU8_eq]
  | s16 => simp [telemWord, ht, decField, FieldType.width, readRange, List.range_succ, decS16_eq]
  | s32 => simp [telemWord, ht, decField, FieldType.width, readRange, List.range_succ, dec32_eq]

/-! ### The walk over the table (R332) -/

theorem walkFields_cons_selected {m : Word32} {e : TelemEntry} (h : m.getLsbD e.bit = true)
    (table : List TelemEntry) (body : List Byte) (bank : Vector (BitVec 32) 18) :
    walkFields m (e :: table) body bank = walkFields m table (body.drop e.type.width)
      (bank.set e.bit (decField e.type (body.take e.type.width))) := by
  rw [walkFields, if_pos h]

theorem walkFields_cons_other {m : Word32} {e : TelemEntry} (h : m.getLsbD e.bit = false)
    (table : List TelemEntry) (body : List Byte) (bank : Vector (BitVec 32) 18) :
    walkFields m (e :: table) body bank = walkFields m table body bank := by
  rw [walkFields, if_neg (by simp [h])]

theorem fieldBytes_cons (m : Word32) (e : TelemEntry) (table : List TelemEntry) :
    fieldBytes (e :: table) m = (if m.getLsbD e.bit then e.type.width else 0) + fieldBytes table m := by
  simp [fieldBytes]

/-- The walk over the entries of one part of the table, then over those behind it, which read the body behind
the fields of the first part. -/
theorem walkFields_append (m : Word32) (front back : List TelemEntry) (body : List Byte)
    (bank : Vector (BitVec 32) 18) :
    walkFields m (front ++ back) body bank
      = walkFields m back (body.drop (fieldBytes front m)) (walkFields m front body bank) := by
  induction front generalizing body bank with
  | nil => rfl
  | cons e front ih =>
    rw [List.cons_append, fieldBytes_cons]
    cases hm : m.getLsbD e.bit with
    | true => rw [walkFields_cons_selected hm, walkFields_cons_selected hm, ih, List.drop_drop, if_pos rfl]
    | false => rw [walkFields_cons_other hm, walkFields_cons_other hm, ih, if_neg nofun, Nat.zero_add]

/-- A field that no selected entry names keeps its value. -/
theorem walkFields_unnamed {m : Word32} {k : Fin 18} {table : List TelemEntry}
    (h : ∀ e ∈ table, m.getLsbD e.bit = true → e.bit ≠ k) (body : List Byte) (bank : Vector (BitVec 32) 18) :
    (walkFields m table body bank)[k] = bank[k] := by
  induction table generalizing body bank with
  | nil => rfl
  | cons e table ih =>
    obtain ⟨he, htable⟩ := List.forall_mem_cons.1 h
    cases hm : m.getLsbD e.bit with
    | true =>
      rw [walkFields_cons_selected hm, ih htable]
      exact Vector.getElem_set_ne _ _ fun heq => he hm (Fin.ext heq)
    | false => rw [walkFields_cons_other hm, ih htable]

/-- A selected field is read behind the fields of the entries before its own, if no entry behind names it
again. -/
theorem walkFields_selected {m : Word32} {k : Fin 18} {front back : List TelemEntry} {e : TelemEntry}
    (hk : e.bit = k) (hm : m.getLsbD k = true) (hback : ∀ e' ∈ back, e'.bit ≠ k) (body : List Byte)
    (bank : Vector (BitVec 32) 18) :
    (walkFields m (front ++ e :: back) body bank)[k]
      = decField e.type ((body.drop (fieldBytes front m)).take e.type.width) := by
  subst hk
  rw [walkFields_append, walkFields_cons_selected hm, walkFields_unnamed fun e' he' _ => hback e' he']
  exact Vector.getElem_set_self _

/-! ### `TELEM_TABLE` (R320) -/

/-- Entry `k` of the table is field `k`, of the type R320 gives it. -/
theorem telemTable_rows :
    Config.telemTable.map (fun e => (e.bit.val, e.type)) = (List.range 18).map fun k => (k, telemType k) := by
  decide

theorem telemTable_length : Config.telemTable.length = 18 := rfl

theorem telemTable_row {k : Nat} (hk : k < 18) :
    (Config.telemTable[k]'(telemTable_length ▸ hk)).bit = ⟨k, hk⟩
      ∧ (Config.telemTable[k]'(telemTable_length ▸ hk)).type = telemType k := by
  have h := List.getElem_of_eq telemTable_rows (i := k) (by simpa using telemTable_length ▸ hk)
  simp only [List.getElem_map, List.getElem_range, Prod.mk.injEq] at h
  exact ⟨Fin.ext h.1, h.2⟩

theorem telemTable_ascending : ∀ k : Fin 18, ∀ e ∈ Config.telemTable.drop (k + 1), e.bit ≠ k := by
  decide

/-- The table around the entry of field `k`. -/
theorem telemTable_split (k : Fin 18) : ∃ e : TelemEntry, e.bit = k ∧ e.type = telemType k
    ∧ Config.telemTable = Config.telemTable.take k ++ e :: Config.telemTable.drop (k + 1) := by
  obtain ⟨hbit, htype⟩ := telemTable_row k.isLt
  refine ⟨_, hbit, htype, ?_⟩
  rw [← List.drop_eq_getElem_cons, List.take_append_drop]

/-- The fields before field `k` take `off(m, k)` bytes (R323). -/
theorem fieldBytes_take (m : Word32) {k : Nat} (hk : k ≤ 18) :
    fieldBytes (Config.telemTable.take k) m = fieldOffset m k := by
  have hrows := congrArg (List.take k) telemTable_rows
  rw [← List.map_take, ← List.map_take, List.take_range, Nat.min_eq_left hk] at hrows
  have hsizes := congrArg (List.map fun row => if m.getLsbD row.1 then row.2.width else 0) hrows
  rw [List.map_map, List.map_map] at hsizes
  exact congrArg List.sum hsizes

theorem needBytes_eq (m : Word32) (sel : Bool) :
    needBytes m sel = 1 + (if sel then 4 else 0) + fieldOffset m 18 := by
  have hall := fieldBytes_take m (k := 18) (le_refl 18)
  rw [List.take_of_length_le telemTable_length.le] at hall
  rw [needBytes, hall]

theorem fieldOffset_succ (m : Word32) (k : Nat) :
    fieldOffset m (k + 1) = fieldOffset m k + if m.getLsbD k then (telemType k).width else 0 := by
  simp [fieldOffset, List.range_succ]

theorem fieldOffset_mono (m : Word32) : Monotone (fieldOffset m) :=
  monotone_nat_of_le_succ fun k => by rw [fieldOffset_succ]; exact Nat.le_add_right _ _

/-- The walk over the whole table gives each selected field the value at its own offset, if the body holds
every selected field, and leaves every other field (R332). -/
theorem walkFields_telemTable (m : Word32) (body : List Byte) (bank : Vector (BitVec 32) 18) (k : Fin 18) :
    fieldOffset m 18 ≤ body.length →
    (walkFields m Config.telemTable body bank)[k]
      = if m.getLsbD k then telemWord k body (fieldOffset m k) else bank[k] := by
  intro h
  cases hm : m.getLsbD k with
  | false =>
    rw [if_neg nofun]
    refine walkFields_unnamed (fun e _ he hek => ?_) body bank
    rw [hek, hm] at he
    cases he
  | true =>
    rw [if_pos rfl]
    obtain ⟨e, hbit, htype, htable⟩ := telemTable_split k
    have hfits : fieldOffset m k + (telemType k).width ≤ body.length := by
      have hmono := fieldOffset_mono m (Nat.succ_le_of_lt k.isLt)
      rw [Nat.succ_eq_add_one, fieldOffset_succ, if_pos hm] at hmono
      exact hmono.trans h
    have hread := walkFields_selected (front := Config.telemTable.take k) hbit hm (telemTable_ascending k)
      body bank
    rwa [← htable, fieldBytes_take m k.isLt.le, htype, decField_eq_telemWord k body hfits] at hread

/-! ### The responses (R333, R334) -/

/-- A response that does not hold every field of its mask changes nothing but the event log (R332). -/
theorem applyTelem_short {p : List Byte} {m : Word32} {sel : Bool} (h : p.length < needBytes m sel) (s : State) :
    applyTelem p m sel s = (s.diag .decodeShort, false) := by
  rw [applyTelem, if_pos h]

/-- A response that does archives `LATEST` and walks the body (R332). -/
theorem applyTelem_long {p : List Byte} {m : Word32} {sel : Bool} (h : needBytes m sel ≤ p.length) (s : State) :
    applyTelem p m sel s = ({ s with
      prev := s.latest
      prevValid := s.latestValid
      latest := walkFields m Config.telemTable (p.drop (if sel then 5 else 1)) s.latest
      latestValid := true }, true) := by
  rw [applyTelem, if_neg (not_lt.2 h)]

/-- The decode site hands a payload with the identifier of the selective response to its decoder (R330). -/
theorem exec_commGetValuesSelective_inbound (body : List Byte) (s : State) :
    exec (.commGetValuesSelective (.inbound body)) s =
      let r := decodeSelective (0x32 :: body) { s with decId := 0x32 }
      .next (r.1.withDecRes (if r.2 then .ok else .decodeFail)) := rfl

/-- The decode site hands a payload with the identifier of the full response to its decoder (R330). -/
theorem exec_commGetValues_inbound (body : List Byte) (s : State) :
    exec (.commGetValues (.inbound body)) s =
      let r := decodeFull (0x04 :: body) { s with decId := 0x04 }
      .next (r.1.withDecRes (if r.2 then .ok else .decodeFail)) := rfl

/-- A selective response that holds its mask is read under that mask (R333). -/
theorem decodeSelective_masked (m : Word32) (fields : List Byte) (s : State) :
    decodeSelective (0x32 :: (enc32 m ++ fields)) s = applyTelem (0x32 :: (enc32 m ++ fields)) m true s := by
  have hlen : ¬ (0x32 :: (enc32 m ++ fields)).length < 5 := by simp [enc32]
  have hmask : (((0x32 : Byte) :: (enc32 m ++ fields)).drop 1).take 4 = enc32 m := rfl
  rw [decodeSelective, if_neg hlen, hmask, dec32_enc32]

/-- Settles O35: the length check comes first, then the walk reads each field at its own offset. -/
theorem selectiveResponseDecodes : Obligations.SelectiveResponseDecodes := by
  intro body s
  rw [exec_commGetValuesSelective_inbound]
  refine ⟨fun hshort => ?noMask, fun m fields hbody => ⟨fun hshort => ?short, fun hlong => ?long⟩⟩
  case noMask =>
    have hlen : (0x32 :: body).length < 5 := Nat.succ_lt_succ hshort
    rw [decodeSelective, if_pos hlen]
    rfl
  case short =>
    have hneed : (0x32 :: (enc32 m ++ fields)).length < needBytes m true := by
      simp only [needBytes_eq, enc32, if_pos, List.length_cons, List.length_append, List.length_nil]
      omega
    rw [hbody, decodeSelective_masked, applyTelem_short hneed]
    rfl
  case long =>
    have hneed : needBytes m true ≤ (0x32 :: (enc32 m ++ fields)).length := by
      simp only [needBytes_eq, enc32, if_pos, List.length_cons, List.length_append, List.length_nil]
      omega
    rw [hbody, decodeSelective_masked, applyTelem_long hneed]
    exact ⟨_, rfl, rfl, fun k => walkFields_telemTable m fields s.latest k hlong⟩

/-- Every bit of the full response's mask is set (R334). -/
theorem getLsbD_fullMask (k : Fin 18) : (0xFFFFFFFF : Word32).getLsbD k = true := by
  revert k
  decide

/-- All 18 fields take 58 bytes (R334). -/
theorem fieldOffset_fullMask : fieldOffset 0xFFFFFFFF 18 = 58 := by
  decide

/-- Settles O36: the full response is the one whose mask selects every field. -/
theorem fullResponseDecodes : Obligations.FullResponseDecodes := by
  intro body s
  have hneed : needBytes 0xFFFFFFFF false = 59 := by rw [needBytes_eq, fieldOffset_fullMask]; rfl
  rw [exec_commGetValues_inbound, decodeFull]
  refine ⟨fun hshort => ?short, fun hlong => ?long⟩
  case short =>
    rw [applyTelem_short (hneed ▸ hshort)]
    rfl
  case long =>
    rw [applyTelem_long (hneed ▸ hlong)]
    refine ⟨_, rfl, rfl, fun k => ?_⟩
    have hfields : fieldOffset 0xFFFFFFFF 18 ≤ body.length := by rw [fieldOffset_fullMask]; omega
    have hfield := walkFields_telemTable 0xFFFFFFFF body s.latest k hfields
    rwa [if_pos (getLsbD_fullMask k)] at hfield

end Sys2Proof.Machine
end

section
/-! SUPPORT. Which moves leave a buffer as it is (20_memory.md R82): `TXPAY` is written by the appends and the
command builder, `RXBUF` by a receive in progress. Of the receiver it is also said that it leaves the agents'
pending moves alone (log entry 1). -/

namespace Sys2Proof.Machine

/-! ### The receiver (43_receiver.md R232 to R251) -/

/-- What no receive touches holds `m` and `moves`: `TXPAY` and the agents' pending moves. -/
def HoldsApart (m : Memory) (moves : List Event) (s : State) : Prop := s.txpay = m ∧ s.sched = moves

section

variable {m : Memory} {moves : List Event} {s : State}

theorem decodeSite_apart (p : List Byte) (h : HoldsApart m moves s) : HoldsApart m moves (decodeSite p s) := by
  obtain ⟨d, hd, -, -⟩ := decodeSite_cases p s
  rw [hd]
  exact h

theorem decodeView_apart (h : HoldsApart m moves s) : Answers (decodeView s) (HoldsApart m moves) :=
  .within (.next (decodeSite_apart s.view h))

theorem completeRequest_apart (expected : CommandName) (rc : ResultCode) (h : HoldsApart m moves s) :
    Answers (completeRequest expected rc s) (HoldsApart m moves) :=
  .ite (.within (.next (decodeSite_apart s.view h))) (.next h)

theorem completeOp_apart (rc : ResultCode) (h : HoldsApart m moves s) :
    Answers (completeOp rc s) (HoldsApart m moves) :=
  .ite (.next h) <| .ite (completeRequest_apart _ rc h) <| .ite (completeRequest_apart _ rc h) <|
    .ite (completeRequest_apart _ rc h) (.fault _ _)

theorem finish_apart (rc : ResultCode) (h : HoldsApart m moves s) :
    Answers (finish rc s) (HoldsApart m moves) := by
  have hend : HoldsApart m moves (endReceive rc s) := by
    rw [endReceive_eq]
    exact h
  have hidle : HoldsApart m moves (endReceive rc s).receiverIdle := hend
  exact .ite ((completeOp_apart rc hidle).andThen fun _ hu => .next hu) (.next hend)

theorem rxComplete_apart (h : HoldsApart m moves s) : Answers (rxComplete s) (HoldsApart m moves) :=
  .ite (.ite (.ite (finish_apart _ h) (finish_apart _ h)) (.fault _ _)) (.ite (finish_apart _ h) (.next h))

theorem rxHeader_apart (h : HoldsApart m moves s) : Answers (rxHeader s) (HoldsApart m moves) :=
  .ite (.ite (.next h) (rxComplete_apart h)) (.ite (finish_apart _ h) (.next h))

theorem rxByte_apart (b : Byte) (h : HoldsApart m moves s) : Answers (rxByte b s) (HoldsApart m moves) :=
  .within (.ite (rxHeader_apart h) (rxComplete_apart h))

theorem rxStep_apart (h : HoldsApart m moves s) : Answers (rxStep s) (HoldsApart m moves) := by
  cases he : expired s with
  | true => rw [rxStep_expired he]; exact finish_apart _ h
  | false =>
    cases hq : s.rxQueue with
    | nil => rw [rxStep_empty he hq]; exact .next h
    | cons b queue => rw [rxStep_byte he hq]; exact rxByte_apart b h

theorem rxSteps_apart (k : Nat) (h : HoldsApart m moves s) : Answers (rxSteps k s) (HoldsApart m moves) := by
  induction k generalizing s with
  | zero => exact .next h
  | succ k ih => exact (rxStep_apart h).andThen fun _ hu => .ite (.next hu) (ih hu)

theorem engineTurn_apart (h : HoldsApart m moves s) : Answers (engineTurn s) (HoldsApart m moves) :=
  .ite (rxStep_apart h) (.next h)

theorem pollDrive_apart (h : HoldsApart m moves s) : Answers (pollDrive s) (HoldsApart m moves) :=
  (rxSteps_apart _ h).andThen fun _ hu => .ite (decodeView_apart hu) (.next hu)

end

/-! ### Host operations -/

/-- The buffer that a host operation may write: `TXPAY` for an append or a command of the builder, `RXBUF` for
`POLL`, which drives the receiver (R82). -/
def writtenBuffer : Instr → Option Buffer
  | .appendU8 _ | .appendBool _ | .appendInt32 _ | .appendUint32 _ => some .txpay
  | .reqFwVersion _ | .reqValues _ | .reqValuesSel .. => some .txpay
  | .setCurrent .. | .setCurrentBrake .. | .setRpm .. | .setPos .. | .setDuty .. => some .txpay
  | .setAux _ | .sendAlive _ => some .txpay
  | .poll => some .rxbuf
  | _ => none

/-- The buffer holds `m`. -/
def HoldsMem (buf : Buffer) (m : Memory) (s : State) : Prop := s.mem buf = m

section

variable {buf : Buffer} {m : Memory} {s : State}

theorem HoldsMem.raise (h : HoldsMem buf m s) (e : ErrFlag) : HoldsMem buf m (s.raise e) := by
  cases e <;> exact h

theorem accept_mem {f : State → Res} (h : HoldsMem buf m s) (hf : Answers (f s) (HoldsMem buf m)) :
    Answers (accept s f) (HoldsMem buf m) :=
  .accept h hf

theorem append_mem (hbuf : buf ≠ .txpay) (bytes : List Byte) (h : HoldsMem buf m s) :
    Answers (append bytes s) (HoldsMem buf m) := by
  cases buf with
  | txpay => exact absurd rfl hbuf
  | rxbuf => exact .ite (.next (h.raise _)) (.next h)

theorem getField_mem (w : Nat) (dec : List Byte → Word32) (scale : Word32) (h : HoldsMem buf m s) :
    Answers (getField w dec scale s) (HoldsMem buf m) :=
  .ite (.next (h.raise _)) (.within (.next h))

theorem getScaled_mem (w : Nat) (dec : List Byte → Word32) (scale : Word32) (h : HoldsMem buf m s) :
    Answers (getScaled w dec scale s) (HoldsMem buf m) :=
  .ite (.next (h.raise _)) (getField_mem w dec scale h)

theorem decodeView_mem (h : HoldsMem buf m s) : Answers (decodeView s) (HoldsMem buf m) := by
  refine .within (.next ?_)
  obtain ⟨d, hd, -, -⟩ := decodeSite_cases s.view s
  rw [hd]
  exact h

theorem requestSend_mem (hbuf : buf ≠ .txpay) (sel : Byte) (c : Command) (can : Byte) (h : HoldsMem buf m s) :
    HoldsMem buf m (requestSend sel c can s) := by
  cases buf with
  | txpay => exact absurd rfl hbuf
  | rxbuf => exact h

theorem requestOnly_mem (hbuf : buf ≠ .txpay) (sel : Byte) (c : Command) (can : Byte) (h : HoldsMem buf m s) :
    Answers (requestOnly sel c can s) (HoldsMem buf m) := by
  have hsent := requestSend_mem hbuf sel c can h
  exact accept_mem h (.next hsent)

theorem requestAndAwait_mem (hbuf : buf ≠ .txpay) (sel : Byte) (c : Command) (can : Byte)
    (h : HoldsMem buf m s) : Answers (requestAndAwait sel c can s) (HoldsMem buf m) := by
  have hsent := requestSend_mem hbuf sel c can h
  exact accept_mem h (.next hsent)

/-- `POLL` writes no buffer but `RXBUF`. -/
theorem execPoll_mem (hbuf : buf ≠ .rxbuf) (h : HoldsMem buf m s) :
    Answers (execPoll s) (HoldsMem buf m) := by
  cases buf with
  | rxbuf => exact absurd rfl hbuf
  | txpay =>
    have hdrive := pollDrive_apart (s := s) ⟨h, rfl⟩
    exact accept_mem h (.ite (.next h) (.ite (.next h) (hdrive.mono fun _ hu => hu.1)))

/-- With no receive in progress, `POLL` only reports: `NOT_ARMED`, or the result again (43_receiver.md R253). -/
theorem execPoll_not_receiving (hr : receiving s = false) (h : HoldsMem buf m s) :
    Answers (execPoll s) (HoldsMem buf m) := by
  refine accept_mem h (.ite_of (fun _ => .next h) fun harmed => .ite_of (fun _ => .next h) fun hnone => ?_)
  have hrec : receiving s = true := receiving_iff.2 ⟨by rw [not_not.1 harmed]; exact nofun, not_not.1 hnone⟩
  rw [hr] at hrec
  cases hrec

theorem execCrc16_mem (b : Buffer) (off n : BitVec 16) (h : HoldsMem buf m s) :
    Answers (execCrc16 b off n s) (HoldsMem buf m) :=
  accept_mem h (.ite (.next (h.raise _)) (.next h))

theorem execPayReset_mem (h : HoldsMem buf m s) : Answers (execPayReset s) (HoldsMem buf m) :=
  accept_mem h (.next h)

theorem execRxSeek_mem (p : Byte) (h : HoldsMem buf m s) : Answers (execRxSeek p s) (HoldsMem buf m) :=
  accept_mem h (.ite (.next (h.raise _)) (.next h))

theorem execFrameSend_mem (h : HoldsMem buf m s) : Answers (execFrameSend s) (HoldsMem buf m) :=
  accept_mem h (.within (.next h))

theorem execFrameCheck_mem (n : Word32) (h : HoldsMem buf m s) : Answers (execFrameCheck n s) (HoldsMem buf m) :=
  accept_mem h (.ite (.next h) (.ite (.next h) (.next h)))

theorem execDecodePayload_mem (h : HoldsMem buf m s) : Answers (execDecodePayload s) (HoldsMem buf m) :=
  accept_mem h (.ite (.next (h.raise _)) (decodeView_mem h))

theorem execRecvBlocking_mem (t : Time) (h : HoldsMem buf m s) :
    Answers (execRecvBlocking t s) (HoldsMem buf m) :=
  accept_mem h (.next h)

theorem execArm_mem (hint : BitVec 16) (h : HoldsMem buf m s) : Answers (execArm hint s) (HoldsMem buf m) :=
  accept_mem h (.next h)

theorem execAuxWrite_mem (x y : Byte) (lower upper : Bool) (h : HoldsMem buf m s) :
    Answers (execAuxWrite x y lower upper s) (HoldsMem buf m) :=
  accept_mem h (.next h)

theorem execCfgTimeout_mem (t : Time) (h : HoldsMem buf m s) : Answers (execCfgTimeout t s) (HoldsMem buf m) :=
  accept_mem h (.next h)

theorem execClrErr_mem (h : HoldsMem buf m s) : Answers (execClrErr s) (HoldsMem buf m) :=
  accept_mem h (.next h)

/-- A buffer that the operation may not write is another than the one it may. -/
theorem ne_of_writtenBuffer {i : Instr} {written : Buffer} (hw : writtenBuffer i ≠ some buf)
    (hi : writtenBuffer i = some written) : buf ≠ written := by
  rintro rfl
  exact hw hi

/-- A host operation leaves every buffer but the one it may write. -/
theorem exec_mem {i : Instr} {v : OpWord} (hi : encode i = .host v) (hw : writtenBuffer i ≠ some buf)
    (h : HoldsMem buf m s) : Answers (exec i s) (HoldsMem buf m) := by
  cases i with
  | crc16 b off n => exact execCrc16_mem b off n h
  | payReset => exact execPayReset_mem h
  | rxSeek p => exact execRxSeek_mem p h
  | frameSend => exact execFrameSend_mem h
  | frameCheck n => exact execFrameCheck_mem n h
  | decodePayload => exact execDecodePayload_mem h
  | recvBlocking t => exact execRecvBlocking_mem t h
  | arm hint => exact execArm_mem hint h
  | auxWrite x y lower upper => exact execAuxWrite_mem x y lower upper h
  | cfgTimeout t => exact execCfgTimeout_mem t h
  | clrErr => exact execClrErr_mem h
  | getU8 | getInt32 | getUint32 => exact accept_mem h (getField_mem _ _ _ h)
  | getFloat16 | getFloat32 => exact accept_mem h (getScaled_mem _ _ _ h)
  | appendU8 | appendBool | appendInt32 | appendUint32 =>
    exact accept_mem h (append_mem (ne_of_writtenBuffer hw rfl) _ h)
  | reqFwVersion | reqValues | reqValuesSel =>
    exact requestAndAwait_mem (ne_of_writtenBuffer hw rfl) _ _ _ h
  | setCurrent | setCurrentBrake | setRpm | setPos | setDuty | setAux | sendAlive =>
    exact requestOnly_mem (ne_of_writtenBuffer hw rfl) _ _ _ h
  | poll => exact execPoll_mem (ne_of_writtenBuffer hw rfl) h
  | commFwVersion | commGetValues | commSetDuty | commSetCurrent | commSetCurrentBrake | commSetRpm | commSetPos
  | commAlive | commForwardCan | commSetChuckData | commGetValuesSelective =>
    exact absurd hi (encodeWire_ne_host _ _ _ v)
  | frameShort w | frameLong w => cases w <;> cases hi

/-- An operation word leaves the buffer when the operation it is read as does, if it is read as one. -/
theorem issueWord_mem {w : OpWord} (h : HoldsMem buf m s)
    (hop : ∀ i, decodeWord w = .ok i → writtenBuffer i = some buf → Answers (exec i s) (HoldsMem buf m)) :
    Answers (issueWord w s) (HoldsMem buf m) := by
  cases hd : decode (.host w) with
  | ok i =>
    obtain ⟨v, hv⟩ := encode_of_decodeWord hd
    rw [issueWord, hd]
    by_cases hw : writtenBuffer i = some buf
    · exact hop i hd hw
    · exact exec_mem hv hw h
  | error e =>
    rw [issueWord, hd]
    exact accept_mem h (.next (h.raise _))

end

/-! ### The moves (00_scope.md R18) -/

/-- Among the host operations only `POLL` may write `RXBUF`. -/
theorem eq_poll_of_writtenBuffer {i : Instr} (h : writtenBuffer i = some .rxbuf) : i = .poll := by
  cases i <;> cases h
  rfl

/-- The words that may write `TXPAY` are those of the appends and the builder (30_encoding.md R110). -/
theorem wordSel_of_writtenBuffer {w : OpWord} {i : Instr} (hd : decodeWord w = .ok i)
    (hi : writtenBuffer i = some .txpay) :
    wordSel w ∈ [0x11, 0x12, 0x13, 0x14, 0x50, 0x51, 0x52, 0x53, 0x54, 0x55, 0x56, 0x57, 0x58, 0x59] := by
  have hsel : wordSel w = BitVec.ofNat 8 (wordSel w).toNat := by simp
  unfold decodeWord at hd
  split at hd <;> cases hd <;> cases hi <;> rw [hsel, ‹(wordSel w).toNat = _›] <;> decide

/-- With no receive in progress the engine's turn changes nothing (43_receiver.md R244). -/
theorem engineTurn_not_receiving {s : State} (h : receiving s = false) : engineTurn s = .next s := by
  simp [engineTurn, h]

/-- A move outside a receive that is no reset leaves `RXBUF`: the engine waits, and among the words only a `POLL`
could drive the receiver. -/
theorem agentMove_rxbuf {ev : Event} {s : State} (hr : receiving s = false) (hreset : ev ≠ .reset) :
    Answers (agentMove ev s) (HoldsMem .rxbuf s.rxbuf) := by
  cases ev with
  | op w =>
    refine issueWord_mem rfl fun i _ hi => ?_
    rw [eq_poll_of_writtenBuffer hi]
    exact execPoll_not_receiving hr rfl
  | rx b => exact .next rfl
  | tick ms => exact .next rfl
  | engine =>
    rw [agentMove, engineTurn_not_receiving hr]
    exact .next rfl
  | reset => exact absurd rfl hreset

/-- A move that is neither reset nor a word of the appends and the builder leaves `TXPAY`. -/
theorem agentMove_txpay {ev : Event} (s : State) (hreset : ev ≠ .reset)
    (hop : ∀ w, ev = .op w →
      wordSel w ∉ [0x11, 0x12, 0x13, 0x14, 0x50, 0x51, 0x52, 0x53, 0x54, 0x55, 0x56, 0x57, 0x58, 0x59]) :
    Answers (agentMove ev s) (HoldsMem .txpay s.txpay) := by
  cases ev with
  | op w => exact issueWord_mem rfl fun i hd hi => absurd (wordSel_of_writtenBuffer hd hi) (hop w rfl)
  | rx b => exact .next rfl
  | tick ms => exact .next rfl
  | engine => exact (engineTurn_apart ⟨rfl, rfl⟩).mono fun _ hu => hu.1
  | reset => exact absurd rfl hreset

/-- Settles O52: a step is the engine's turn or the move of the first pending event. -/
theorem rxbufOnlyByReceiver : Obligations.RxbufOnlyByReceiver := by
  intro s t hr hreset hstep
  cases hs : s.sched with
  | nil =>
    rw [step_idle hs, engineTurn_not_receiving hr] at hstep
    cases hstep
    rfl
  | cons ev rest =>
    rw [step_event hs] at hstep
    exact agentMove_rxbuf (s := { s with sched := rest }) hr (fun e => hreset (by rw [hs, e]; rfl)) t hstep

/-- Settles O54: a step is the engine's turn or the move of the first pending event. -/
theorem txpayOnlyByAppendAndBuild : Obligations.TxpayOnlyByAppendAndBuild := by
  intro s t hreset hop hstep
  cases hs : s.sched with
  | nil =>
    rw [step_idle hs] at hstep
    exact (engineTurn_apart ⟨rfl, rfl⟩ t hstep).1
  | cons ev rest =>
    rw [step_event hs] at hstep
    rw [hs] at hreset hop
    exact agentMove_txpay { s with sched := rest } (fun e => hreset (e ▸ rfl)) (fun w e => hop w (e ▸ rfl)) t hstep

end Sys2Proof.Machine
end

section
/-! SUPPORT. The steps of a blocking receive are the engine's own turns (43_receiver.md R238), and bytes that arrive
are taken by the receive in progress, if there is one (log entry 5). -/

namespace Sys2Proof.Machine

/-! ### A blocking receive by the engine's own turns (R238) -/

/-- The engine is `READY` or `BUSY` as `b` says, unless the receive has ended. -/
def BusyUntilEnded (b : Bool) (s : State) : Prop := s.rxResult = .none → s.busy = b

section

variable {b : Bool} {s : State}

theorem finish_busy {rc : ResultCode} (s : State) (hrc : rc ≠ .none := by decide) :
    Answers (finish rc s) (BusyUntilEnded b) :=
  fun _ ht hnone => absurd ((finish_result ht).symm.trans hnone) hrc

theorem rxComplete_busy (h : s.busy = b) : Answers (rxComplete s) (BusyUntilEnded b) :=
  .ite (.ite (.ite (finish_busy _) (finish_busy _)) (.fault _ _))
    (.ite (finish_busy _) (.next fun _ => h))

theorem rxHeader_busy (h : s.busy = b) : Answers (rxHeader s) (BusyUntilEnded b) :=
  .ite (.ite (.next fun _ => h) (rxComplete_busy h)) (.ite (finish_busy _) (.next fun _ => h))

theorem rxByte_busy (byte : Byte) (h : s.busy = b) : Answers (rxByte byte s) (BusyUntilEnded b) :=
  .within (.ite (rxHeader_busy h) (rxComplete_busy h))

/-- A receive step that does not end the receive leaves `BUSY`. -/
theorem rxStep_busy (h : s.busy = b) : Answers (rxStep s) (BusyUntilEnded b) := by
  cases he : expired s with
  | true => rw [rxStep_expired he]; exact finish_busy _
  | false =>
    cases hq : s.rxQueue with
    | nil => rw [rxStep_empty he hq]; exact .next fun _ => h
    | cons byte queue => rw [rxStep_byte he hq]; exact rxByte_busy byte h

end

theorem andThen_congr {r : Res} {f g : State → Res} (h : ∀ t, r = .next t → f t = g t) :
    andThen r f = andThen r g := by
  cases r with
  | next t => exact h t rfl
  | fault e => rfl
  | refused e => rfl

/-- In a blocking receive the engine's turn is a receive step: one that is not enabled changes nothing (R247). -/
theorem engineTurn_receiving {s : State} (hb : s.busy = true) (hr : receiving s = true) :
    engineTurn s = rxStep s := by
  by_cases h : expired s = true ∨ s.rxQueue ≠ []
  · rw [engineTurn, if_pos ⟨hb, hr, h⟩]
  · rw [engineTurn, if_neg fun hc => h hc.2.2]
    obtain ⟨he, hq⟩ := not_or.1 h
    exact (rxStep_empty (Bool.not_eq_true _ ▸ he) (not_not.1 hq)).symm

/-- With no receive in progress and no pending move the machine stands still. -/
theorem runSteps_not_receiving (k : Nat) {s : State} (hs : s.sched = []) (hr : receiving s = false) :
    runSteps k s = .next s := by
  induction k with
  | zero => rfl
  | succ k ih => rw [runSteps, step_idle hs, engineTurn_not_receiving hr, andThen_next, ih]

/-- Receive steps of a blocking receive are steps of the machine when no other move is pending. -/
theorem rxSteps_eq_runSteps (k : Nat) {s : State} (hs : s.sched = []) (hb : s.busy = true)
    (hm : s.rxMode = .blocking) (hnone : s.rxResult = .none) : rxSteps k s = runSteps k s := by
  induction k generalizing s with
  | zero => rfl
  | succ k ih =>
    have hr : receiving s = true := receiving_iff.2 ⟨by rw [hm]; exact nofun, hnone⟩
    rw [rxSteps_succ, runSteps, step_idle hs, engineTurn_receiving hb hr]
    refine andThen_congr fun t ht => ?_
    have hsched : t.sched = [] := (rxStep_apart ⟨rfl, hs⟩ t ht).2
    by_cases hend : t.rxResult = .none
    · rw [if_neg (not_not.2 hend)]
      exact ih hsched (rxStep_busy hb t ht hend) ((rxStep_mode ht hend).trans hm) hend
    · rw [if_pos hend]
      have hidle : receiving t = false := by
        rw [← Bool.not_eq_true, receiving_iff]
        exact fun h => hend h.2
      exact (runSteps_not_receiving k hsched hidle).symm

/-! ### Bytes that arrive (log entry 5) -/

theorem receiveBytes_waiting {s : State} (h : s.rxMode = .idle ∨ s.rxResult ≠ .none) (bs : List Byte) :
    receiveBytes bs s = .next (s.arrive bs) := by
  rcases h with h | h <;> simp [receiveBytes, h]

theorem receiveBytes_armed {s : State} (hm : s.rxMode = .armed) (hnone : s.rxResult = .none) (bs : List Byte) :
    receiveBytes bs s = pollDrive (s.arrive bs) := by
  simp [receiveBytes, hm, hnone]

theorem receiveBytes_blocking {s : State} (hm : s.rxMode = .blocking) (hnone : s.rxResult = .none)
    (bs : List Byte) :
    receiveBytes bs s = rxSteps (s.rxQueue ++ bs).length (s.arrive bs) := by
  simp [receiveBytes, hm, hnone, State.arrive]

/-- A `POLL` of an armed receive in progress drives it (R251). -/
theorem execPoll_armed {s : State} (hb : s.busy = false) (hm : s.rxMode = .armed) (hnone : s.rxResult = .none) :
    execPoll s = pollDrive s := by
  simp [execPoll, accept_ready hb, hm, hnone]

end Sys2Proof.Machine
end

section
/-! SUPPORT. The run of the receiver over a frame that a fresh receive is given whole (43_receiver.md R232 to R243):
one step for each byte, the header at the second, and the verified frame at the last. -/

namespace Sys2Proof.Machine

/-! ### Bytes taken from the queue (R233) -/

/-- `s` after `bs` was taken from the front of the queue and stored; `rest` stays waiting. -/
def State.taken (s : State) (bs rest : List Byte) : State :=
  { s with
    rxQueue := rest
    rxbuf := s.rxbuf.putAll s.rxCnt.toNat bs
    rxCnt := s.rxCnt + BitVec.ofNat 9 bs.length }

/-- `s` with the declared length `d` and the expected length of its frame (R234). -/
def State.declared (s : State) (d : Byte) : State :=
  { s with rxDecl := d, rxExp := 0x8000 ||| BitVec.ofNat 16 (d.toNat + 5) }

theorem Memory.putAll_append (m : Memory) (a : Nat) (xs ys : List Byte) :
    m.putAll a (xs ++ ys) = (m.putAll a xs).putAll (a + xs.length) ys := by
  induction xs generalizing m a with
  | nil => rfl
  | cons x xs ih =>
    rw [List.cons_append, Memory.putAll_cons, Memory.putAll_cons, ih, List.length_cons, Nat.add_right_comm,
      Nat.add_assoc]

theorem State.taken_rxCnt {s : State} {bs : List Byte} (h : s.rxCnt.toNat + bs.length < 512) (rest : List Byte) :
    (s.taken bs rest).rxCnt.toNat = s.rxCnt.toNat + bs.length := by
  show (s.rxCnt + BitVec.ofNat 9 bs.length).toNat = _
  rw [BitVec.toNat_add, BitVec.toNat_ofNat, Nat.add_mod_mod, Nat.mod_eq_of_lt h]

theorem State.taken_taken {s : State} {xs : List Byte} (h : s.rxCnt.toNat + xs.length < 512)
    (ys rest rest' : List Byte) : (s.taken xs rest').taken ys rest = s.taken (xs ++ ys) rest := by
  have hcnt := State.taken_rxCnt h rest'
  have hbuf : (s.taken xs rest').rxbuf.putAll (s.taken xs rest').rxCnt.toNat ys
      = s.rxbuf.putAll s.rxCnt.toNat (xs ++ ys) := by
    rw [hcnt, Memory.putAll_append]; rfl
  have hsum : (s.taken xs rest').rxCnt + BitVec.ofNat 9 ys.length
      = s.rxCnt + BitVec.ofNat 9 (xs ++ ys).length := by
    rw [List.length_append, BitVec.ofNat_add, ← BitVec.add_assoc]; rfl
  rw [State.taken, hbuf, hsum]
  rfl

/-- The bytes taken lie in `RXBUF` behind those that were there. -/
theorem State.taken_byteAt {s : State} {bs : List Byte} (rest : List Byte) {i : Nat} (hi : i < bs.length) :
    (s.taken bs rest).byteAt .rxbuf (s.rxCnt.toNat + i) = bs[i] := by
  refine State.byteAt_of_get ((Memory.get_putAll _ _ _ _).trans ?_)
  rw [if_pos (by omega), Nat.add_sub_cancel_left, List.getElem?_eq_getElem hi]

/-- One receive step before the deadline takes and stores the first byte that waits (R238, R233). -/
theorem rxStep_takes {s : State} {b : Byte} {queue : List Byte} (he : expired s = false)
    (hq : s.rxQueue = b :: queue) (hcnt : s.rxCnt.toNat < 256) :
    rxStep s = if (s.taken [b] queue).rxCnt = 2 then rxHeader (s.taken [b] queue)
      else rxComplete (s.taken [b] queue) := by
  rw [rxStep_byte he hq]
  exact rxByte_eq_store (s := { s with rxQueue := queue }) hcnt b

/-- An incomplete frame in a buffer that is not full only grows (R237). -/
theorem rxComplete_incomplete {s : State}
    (h : s.rxExp.getLsbD 15 = true → s.rxCnt ≠ s.rxExp.extractLsb' 0 9) (hcnt : s.rxCnt ≠ 256) :
    rxComplete s = .next s := by
  rw [rxComplete, if_neg fun hc => h hc.1 hc.2.1, if_neg hcnt]

/-- A receive that goes on behind a step goes on with the remaining steps. -/
theorem rxSteps_of_next {k : Nat} {s t : State} (h : rxStep s = .next t) (hnone : t.rxResult = .none) :
    rxSteps (k + 1) s = rxSteps k t := by
  rw [rxSteps_succ, h, andThen_next, if_neg (not_not.2 hnone)]

/-- A receive that ends takes no further step (R251). -/
theorem rxSteps_of_finish {k : Nat} {s u : State} {rc : ResultCode} (h : rxStep s = finish rc u)
    (hrc : rc ≠ .none) : rxSteps (k + 1) s = finish rc u := by
  have hstop : ∀ t, finish rc u = .next t → (if t.rxResult ≠ .none then Host.Outcome.next t else rxSteps k t)
      = (.next t : Res) := fun t ht => if_pos (finish_result ht ▸ hrc)
  rw [rxSteps_succ, h, andThen_congr hstop]
  cases finish rc u <;> rfl

/-- The bytes between the header and the last byte of a frame are only stored (R237). -/
theorem rxSteps_body {s : State} {bs rest : List Byte} {d : Byte} (k : Nat) (he : expired s = false)
    (hnone : s.rxResult = .none) (hd : d.toNat ≤ 251)
    (hexp : s.rxExp = 0x8000 ||| BitVec.ofNat 16 (d.toNat + 5)) (hq : s.rxQueue = bs ++ rest)
    (hheader : 2 ≤ s.rxCnt.toNat) (hlen : s.rxCnt.toNat + bs.length < d.toNat + 5) :
    rxSteps (bs.length + k) s = rxSteps k (s.taken bs rest) := by
  induction bs generalizing s with
  | nil =>
    have hsame : s.taken [] rest = s := by
      rw [List.nil_append] at hq
      rw [State.taken, Memory.putAll_nil, List.length_nil, BitVec.add_zero, ← hq]
    rw [hsame, List.length_nil, Nat.zero_add]
  | cons b bs ih =>
    rw [List.cons_append] at hq
    rw [List.length_cons] at hlen
    have hcnt : (s.taken [b] (bs ++ rest)).rxCnt.toNat = s.rxCnt.toNat + 1 :=
      State.taken_rxCnt (by rw [List.length_singleton]; omega) _
    have hne : ∀ n : BitVec 9, n.toNat ≠ s.rxCnt.toNat + 1 → (s.taken [b] (bs ++ rest)).rxCnt ≠ n :=
      fun n hn e => hn (e ▸ hcnt)
    have hstep : rxStep s = .next (s.taken [b] (bs ++ rest)) := by
      rw [rxStep_takes he hq (by omega), if_neg (hne 2 (by simp; omega))]
      refine rxComplete_incomplete (fun _ => hne _ ?_) (hne 256 (by simp; omega))
      rw [show (s.taken [b] (bs ++ rest)).rxExp = s.rxExp from rfl, hexp, rxExp_length hd]
      omega
    have hsum : s.rxCnt.toNat + [b].length < 512 := by rw [List.length_singleton]; omega
    rw [List.length_cons, Nat.add_right_comm, rxSteps_of_next hstep hnone, ih (s := s.taken [b] (bs ++ rest)) he
      hnone hexp rfl (by omega) (by omega), State.taken_taken hsum, List.singleton_append]

/-! ### The header (R234, R236) -/

/-- The second byte of a short frame that `RXBUF` can hold tells its expected length (R234). -/
theorem rxHeader_short {s : State} {d : Byte} (hmarker : s.byteAt .rxbuf 0 = Config.startShort)
    (hlen : s.byteAt .rxbuf 1 = d) (hd : d.toNat ≤ 251) (hcnt : s.rxCnt = 2) :
    rxHeader s = .next (s.declared d) := by
  have hfits : ¬ d.toNat + 5 > Config.rxbufSize := by unfold Config.rxbufSize; omega
  rw [rxHeader, if_pos hmarker, hlen, if_neg hfits]
  refine rxComplete_incomplete (fun _ e => ?_) (by rw [hcnt]; decide)
  have htwo : (2 : BitVec 9).toNat = d.toNat + 5 := by
    rw [← rxExp_length hd, ← hcnt]
    exact congrArg BitVec.toNat e
  rw [show (2 : BitVec 9).toNat = 2 from rfl] at htwo
  omega

/-- A long frame ends the receive at its second byte (R236). -/
theorem rxHeader_long {s : State} (hmarker : s.byteAt .rxbuf 0 = Config.startLong) :
    rxHeader s = finish .rxLong (s.diag .longUnsupported) := by
  rw [rxHeader, if_neg (by rw [hmarker]; decide), if_pos hmarker]

/-- The first two bytes of a fresh receive: the first is only stored, the second is judged with it. -/
theorem rxStep_fresh {s : State} {a b : Byte} {rest : List Byte} (hf : freshReceive s) (he : expired s = false)
    (hq : s.rxQueue = a :: b :: rest) :
    rxStep s = .next (s.taken [a] (b :: rest))
      ∧ rxStep (s.taken [a] (b :: rest)) = rxHeader (s.taken [a, b] rest) := by
  obtain ⟨-, -, hcnt, hexp⟩ := hf
  have hone : (s.taken [a] (b :: rest)).rxCnt = 1 := by
    show s.rxCnt + _ = _
    rw [hcnt]; rfl
  have htwo : (s.taken [a, b] rest).rxCnt = 2 := by
    show s.rxCnt + _ = _
    rw [hcnt]; rfl
  constructor
  · rw [rxStep_takes he hq (by rw [hcnt]; decide), hone, if_neg (by decide)]
    refine rxComplete_incomplete (fun hknown => ?_) (by rw [hone]; decide)
    rw [show (s.taken [a] (b :: rest)).rxExp = s.rxExp from rfl, hexp] at hknown
    cases hknown
  · have hsum : s.rxCnt.toNat + [a].length < 512 := by rw [hcnt, List.length_singleton]; decide
    rw [rxStep_takes (s := s.taken [a] (b :: rest)) he rfl (by rw [hone]; decide), State.taken_taken hsum]
    exact if_pos htwo

/-- `s` after the header of a short frame that declares `d` bytes. -/
def State.headerTaken (d : Byte) (rest : List Byte) (s : State) : State :=
  (s.taken [Config.startShort, d] rest).declared d

/-- The header of a short frame that `RXBUF` can hold brings a fresh receive to its payload (R234). -/
theorem rxSteps_shortHeader {s : State} {d : Byte} {rest : List Byte} (k : Nat) (hf : freshReceive s)
    (he : expired s = false) (hd : d.toNat ≤ 251) (hq : s.rxQueue = Config.startShort :: d :: rest) :
    rxSteps (k + 2) s = rxSteps k (s.headerTaken d rest) := by
  obtain ⟨hfirst, hsecond⟩ := rxStep_fresh hf he hq
  obtain ⟨-, hnone, hcnt, -⟩ := hf
  have htwo : (s.taken [Config.startShort, d] rest).rxCnt = 2 := by
    show s.rxCnt + _ = _
    rw [hcnt]; rfl
  have hbyte : ∀ i (hi : i < 2),
      (s.taken [Config.startShort, d] rest).byteAt .rxbuf i = [Config.startShort, d][i] := fun i hi => by
    have h := State.taken_byteAt (s := s) (bs := [Config.startShort, d]) rest hi
    rwa [hcnt, show (0 : BitVec 9).toNat = 0 from rfl, Nat.zero_add] at h
  rw [rxSteps_of_next hfirst hnone]
  exact rxSteps_of_next (hsecond.trans (rxHeader_short (hbyte 0 (by decide)) (hbyte 1 (by decide)) hd htwo)) hnone

/-- A long frame ends a fresh receive at its second byte and leaves the later bytes waiting (R236). -/
theorem rxSteps_longFrame {s : State} {b : Byte} {rest : List Byte} (k : Nat) (hf : freshReceive s)
    (he : expired s = false) (hq : s.rxQueue = Config.startLong :: b :: rest) :
    rxSteps (k + 2) s = finish .rxLong ((s.taken [Config.startLong, b] rest).diag .longUnsupported) := by
  obtain ⟨hfirst, hsecond⟩ := rxStep_fresh hf he hq
  obtain ⟨-, hnone, hcnt, -⟩ := hf
  have hmarker : (s.taken [Config.startLong, b] rest).byteAt .rxbuf 0 = Config.startLong := by
    have h := State.taken_byteAt (s := s) (bs := [Config.startLong, b]) rest (i := 0) (by simp)
    rwa [hcnt] at h
  rw [rxSteps_of_next hfirst hnone]
  exact rxSteps_of_finish (hsecond.trans (rxHeader_long hmarker)) nofun

/-! ### The verified frame (R237, R242, R243) -/

/-- The two bytes of a CRC, put together again (20_memory.md R80). -/
theorem extract_append (c : BitVec 16) : (c.extractLsb' 8 8 ++ c.extractLsb' 0 8 : BitVec 16) = c := by
  rw [BitVec.extractLsb'_append_extractLsb'_eq_extractLsb' (by rfl)]
  exact BitVec.extractLsb'_eq_self

/-- The length byte of a payload that `RXBUF` can hold (R234). -/
def lengthByte (p : List Byte) : Byte := BitVec.ofNat 8 p.length

theorem toNat_lengthByte {p : List Byte} (hp : p.length ≤ 251) : (lengthByte p).toNat = p.length := by
  rw [lengthByte, BitVec.toNat_ofNat]; omega

/-- Bytes that are the short frame of `p` are shaped like a frame, and their CRC matches (R204). -/
theorem frameDecode_shortFrame {get : Nat → Byte} {p : List Byte} (hp : p.length ≤ 251)
    (hget : ∀ i (hi : i < (shortFrame p).length), get i = (shortFrame p)[i]) :
    frameShaped get (p.length + 5) = true ∧ (frameDecode get (p.length + 5)).1 = true := by
  have hlen : (get 1).toNat = p.length := by
    rw [hget 1 (by rw [length_shortFrame]; omega)]
    exact toNat_lengthByte hp
  have hview : readRange get 2 p.length = p := readRange_eq fun i hi => by
    rw [hget (2 + i) (by rw [length_shortFrame]; omega)]
    simp [shortFrame, Nat.add_comm 2 i, hi]
  have hhi : get (p.length + 2) = (crc16 p).extractLsb' 8 8 := by
    rw [hget _ (by rw [length_shortFrame]; omega)]
    simp [shortFrame, frameTail]
  have hlo : get (p.length + 3) = (crc16 p).extractLsb' 0 8 := by
    rw [hget _ (by rw [length_shortFrame]; omega)]
    simp [shortFrame, frameTail]
  refine ⟨?_, ?_⟩
  · simp [frameShaped, hlen]; omega
  · simp only [frameDecode, hlen, hview, decide_eq_true_eq]
    rw [show p.length + 5 - 3 = p.length + 2 by omega, show p.length + 5 - 2 = p.length + 3 by omega, hhi, hlo,
      extract_append]

/-- `s` after the bytes of the short frame of `p` were taken, before the frame is verified. -/
def State.frameTaken (p rest : List Byte) (s : State) : State :=
  (s.taken (shortFrame p) rest).declared (lengthByte p)

theorem State.frameTaken_rxCnt {s : State} {p : List Byte} (rest : List Byte) (hp : p.length ≤ 251)
    (hzero : s.rxCnt.toNat = 0) : (s.frameTaken p rest).rxCnt.toNat = p.length + 5 := by
  have h := State.taken_rxCnt (s := s) (bs := shortFrame p) (by rw [hzero, length_shortFrame]; omega) rest
  rwa [hzero, length_shortFrame, Nat.zero_add] at h

/-- A verified frame is delivered as a received one (R243). -/
theorem endReceive_frameTaken {s : State} {p : List Byte} (rest : List Byte) (hp : p.length ≤ 251)
    (hcnt : s.rxCnt = 0) : endReceive .ok (s.frameTaken p rest) = receivedFrame p rest s := by
  have hd := toNat_lengthByte hp
  have hbuf : s.rxbuf.putAll s.rxCnt.toNat (shortFrame p) = s.rxbuf.putAll 0 (shortFrame p) := by rw [hcnt]; rfl
  have hlen : s.rxCnt + BitVec.ofNat 9 (shortFrame p).length = BitVec.ofNat 9 (p.length + 5) := by
    rw [hcnt, length_shortFrame]; exact BitVec.zero_add _
  rw [State.frameTaken, State.declared, State.taken, hd, hbuf, hlen]
  rfl

/-- At its last byte a short frame is complete and verified (R237, R242). -/
theorem rxComplete_frameTaken {s : State} {p : List Byte} (rest : List Byte) (hp : p.length ≤ 251)
    (hcnt : s.rxCnt = 0) : rxComplete (s.frameTaken p rest) = finish .ok (s.frameTaken p rest) := by
  have hd := toNat_lengthByte hp
  have hzero : s.rxCnt.toNat = 0 := by rw [hcnt]; rfl
  have hcount := State.frameTaken_rxCnt rest hp hzero
  have hget : ∀ i (hi : i < (shortFrame p).length), (s.frameTaken p rest).byteAt .rxbuf i = (shortFrame p)[i] := by
    intro i hi
    have h := State.taken_byteAt (s := s) rest hi
    rwa [hzero, Nat.zero_add] at h
  have hexp : (s.frameTaken p rest).rxCnt = (s.frameTaken p rest).rxExp.extractLsb' 0 9 := by
    refine BitVec.eq_of_toNat_eq (hcount.trans ?_)
    exact ((rxExp_length (by rw [hd]; exact hp)).trans (by rw [hd])).symm
  have hend : (s.frameTaken p rest).byteAt .rxbuf ((s.frameTaken p rest).rxCnt.toNat - 1) = Config.endMark := by
    rw [hcount, hget _ (by rw [length_shortFrame]; omega)]
    simp [shortFrame, frameTail]
  obtain ⟨hshape, hcrc⟩ := frameDecode_shortFrame hp hget
  rw [rxComplete, if_pos ⟨rxExp_valid _, hexp, hend⟩, hcount, if_pos hshape, if_pos hcrc]

/-- The bytes of the short frame of `p` between its header and its end marker. -/
def frameBody (p : List Byte) : List Byte := p ++ [(crc16 p).extractLsb' 8 8, (crc16 p).extractLsb' 0 8]

/-- The short frame of `p` without its end marker. -/
def frameFront (p : List Byte) : List Byte := [Config.startShort, lengthByte p] ++ frameBody p

theorem length_frameBody (p : List Byte) : (frameBody p).length = p.length + 2 := List.length_append

theorem length_frameFront (p : List Byte) : (frameFront p).length = p.length + 4 := by
  simp [frameFront, frameBody]

theorem shortFrame_eq_front (p : List Byte) : shortFrame p = frameFront p ++ [Config.endMark] := by
  simp [shortFrame, frameFront, frameBody, frameTail, lengthByte]

/-- `s` after all bytes of the short frame of `p` but its end marker. -/
def State.frontTaken (p rest : List Byte) (s : State) : State :=
  (s.taken (frameFront p) rest).declared (lengthByte p)

theorem State.frameFront_fits {s : State} {p : List Byte} (hp : p.length ≤ 251) (hzero : s.rxCnt.toNat = 0) :
    s.rxCnt.toNat + (frameFront p).length < 512 := by
  rw [hzero, length_frameFront]; omega

theorem State.frontTaken_rxCnt {s : State} {p : List Byte} (rest : List Byte) (hp : p.length ≤ 251)
    (hzero : s.rxCnt.toNat = 0) : (s.frontTaken p rest).rxCnt.toNat = p.length + 4 := by
  have h := State.taken_rxCnt (State.frameFront_fits hp hzero) rest
  rwa [hzero, length_frameFront, Nat.zero_add] at h

/-- Up to its end marker a short frame is only stored behind its header. -/
theorem rxSteps_frameFront {s : State} {p rest : List Byte} (k : Nat) (hf : freshReceive s)
    (he : expired s = false) (hp : p.length ≤ 251) (hq : s.rxQueue = frameFront p ++ rest) :
    rxSteps (p.length + 4 + k) s = rxSteps k (s.frontTaken p rest) := by
  have hd := toNat_lengthByte hp
  have hlen := length_frameBody p
  obtain ⟨-, hnone, hcnt, -⟩ := id hf
  have hfits : s.rxCnt.toNat + [Config.startShort, lengthByte p].length < 512 := by simp [hcnt]
  have htwo : (s.headerTaken (lengthByte p) (frameBody p ++ rest)).rxCnt.toNat = 2 := by
    have h := State.taken_rxCnt hfits (frameBody p ++ rest)
    rwa [hcnt] at h
  calc rxSteps (p.length + 4 + k) s
      = rxSteps ((frameBody p).length + k + 2) s := by congr 1; omega
    _ = rxSteps ((frameBody p).length + k) (s.headerTaken (lengthByte p) (frameBody p ++ rest)) :=
        rxSteps_shortHeader _ hf he (by omega) hq
    _ = rxSteps k ((s.headerTaken (lengthByte p) (frameBody p ++ rest)).taken (frameBody p) rest) :=
        rxSteps_body k he hnone (by omega) rfl rfl (by omega) (by omega)
    _ = rxSteps k (s.frontTaken p rest) :=
        congrArg (fun t => rxSteps k (State.declared t _)) (State.taken_taken hfits _ _ _)

/-- The end marker completes the frame. -/
theorem rxStep_frameEnd {s : State} {p : List Byte} (rest : List Byte) (he : expired s = false)
    (hp : p.length ≤ 251) (hcnt : s.rxCnt = 0) :
    rxStep (s.frontTaken p (Config.endMark :: rest)) = finish .ok (s.frameTaken p rest) := by
  have hzero : s.rxCnt.toNat = 0 := by rw [hcnt]; rfl
  have hcount := State.frontTaken_rxCnt (Config.endMark :: rest) hp hzero
  have hlast : (s.frontTaken p (Config.endMark :: rest)).taken [Config.endMark] rest = s.frameTaken p rest := by
    rw [State.frameTaken, shortFrame_eq_front]
    exact congrArg (State.declared · _) (State.taken_taken (State.frameFront_fits hp hzero) _ _ _)
  have hother : (s.frameTaken p rest).rxCnt ≠ 2 := by
    intro e
    have hall := State.frameTaken_rxCnt rest hp hzero
    rw [e, show (2 : BitVec 9).toNat = 2 from rfl] at hall
    omega
  rw [rxStep_takes (s := s.frontTaken p (Config.endMark :: rest)) he rfl (by omega), hlast, if_neg hother,
    rxComplete_frameTaken rest hp hcnt]

/-- A short frame at the front of the queue brings a fresh receive to its verified end, one byte a step; the later
bytes stay waiting. -/
theorem rxSteps_shortFrame {s : State} {p rest : List Byte} (k : Nat) (hf : freshReceive s)
    (he : expired s = false) (hp : p.length ≤ 251) (hq : s.rxQueue = shortFrame p ++ rest) :
    rxSteps (p.length + 5 + k) s = finish .ok (s.frameTaken p rest) := by
  have hfront : s.rxQueue = frameFront p ++ (Config.endMark :: rest) := by
    rw [hq, shortFrame_eq_front, List.append_assoc, List.singleton_append]
  have hlast := rxStep_frameEnd rest he hp hf.2.2.1
  calc rxSteps (p.length + 5 + k) s
      = rxSteps (p.length + 4 + (k + 1)) s := by congr 1; omega
    _ = rxSteps (k + 1) _ := rxSteps_frameFront _ hf he hp hfront
    _ = finish .ok (s.frameTaken p rest) := rxSteps_of_finish hlast nofun

end Sys2Proof.Machine
end

section
/-! SUPPORT. What a received frame leads to in each receiver mode: the decode of an armed receive (43_receiver.md
R251), the report of `RECV_BLOCKING` (R245), the answer of a query (44_command_dispatch.md R340), and the end at a
long frame (R236). -/

namespace Sys2Proof.Machine

/-! ### The view of a received frame (R243) -/

theorem receivedFrame_get {p : List Byte} (rest : List Byte) (s : State) {i : Nat} (hi : i < p.length + 5) :
    (receivedFrame p rest s).rxbuf.get i = (shortFrame p)[i]? := by
  refine (Memory.get_putAll s.rxbuf 0 (shortFrame p) i).trans ?_
  rw [if_pos (by rw [length_shortFrame]; omega), Nat.sub_zero]

theorem receivedFrame_rxLen {p : List Byte} (rest : List Byte) (s : State) (hp : p.length ≤ 251) :
    (receivedFrame p rest s).rxLen.toNat = p.length :=
  toNat_lengthByte hp

/-- The view of a received frame is its payload. -/
theorem receivedFrame_view {p : List Byte} (rest : List Byte) (s : State) (hp : p.length ≤ 251) :
    (receivedFrame p rest s).view = p := by
  rw [State.view, receivedFrame_rxLen rest s hp]
  refine readRange_eq fun i hi => State.byteAt_of_get ((receivedFrame_get rest s (by omega)).trans ?_)
  simp [shortFrame, Nat.add_comm 2 i, List.getElem?_append_left hi]

/-- The view of a received frame lies in `RXBUF`. -/
theorem receivedFrame_view_fits {p : List Byte} (rest : List Byte) (s : State) (hp : p.length ≤ 251) :
    2 + (receivedFrame p rest s).rxLen.toNat ≤ Config.bufSize .rxbuf := by
  rw [receivedFrame_rxLen rest s hp]
  simp only [Config.bufSize, Config.rxbufSize]
  omega

/-! ### The end of an operation -/

/-- `POLL` decodes the view and reports the decode's result (R251). -/
theorem decodeView_eq {s : State} (hfits : 2 + s.rxLen.toNat ≤ Config.bufSize .rxbuf) :
    decodeView s = .next { decodeSite s.view s with opRes := (decodeSite s.view s).decRes } := by
  rw [decodeView, within_ok hfits]
  rfl

/-- A query in `OP_CUR` completes its request with the identifier it expects (R241). -/
theorem completeOp_query {s : State} {expected : Byte} (h : queryExpects s.opCur expected) (rc : ResultCode) :
    ∃ c, Config.cmdId c = expected ∧ completeOp rc s = completeRequest c rc s := by
  rcases h with ⟨hop, he⟩ | ⟨hop, he⟩ | ⟨hop, he⟩ <;> rw [completeOp, hop, he]
  · exact ⟨.fwVersion, rfl, rfl⟩
  · exact ⟨.getValues, rfl, rfl⟩
  · exact ⟨.getValuesSelective, rfl, rfl⟩

/-- A verified response is decoded and answers the query (44_command_dispatch.md R340). -/
theorem completeRequest_ok {s : State} (hfits : 2 + s.rxLen.toNat ≤ Config.bufSize .rxbuf)
    (hidle : s.rxMode = .idle) (c : CommandName) :
    andThen (completeRequest c .ok s) (fun t => .next t.ready)
      = .next (queryAnswered (Config.cmdId c) (decodeSite s.view s)) := by
  rw [completeRequest, if_pos rfl, within_ok hfits]
  obtain ⟨d, hd, -, -⟩ := decodeSite_cases s.view s
  have hmode : (decodeSite s.view s).rxMode = .idle := by rw [hd]; exact hidle
  simp only [andThen_next, queryAnswered, ← hmode]
  rfl

/-- A query's request takes over a receive result other than `OK` (44_command_dispatch.md R340). -/
theorem completeOp_query_failed {s : State} {rc : ResultCode} (hrc : rc ≠ .ok)
    (h : s.opCur = 0x50 ∨ s.opCur = 0x51 ∨ s.opCur = 0x52) : completeOp rc s = .next (s.requestDone rc) := by
  have hfail : ∀ c, completeRequest c rc s = .next (s.requestDone rc) := fun c => if_neg hrc
  rcases h with hop | hop | hop <;> rw [completeOp, hop] <;> exact hfail _

theorem endReceive_rxResult (rc : ResultCode) (s : State) : (endReceive rc s).rxResult = rc := by
  rw [endReceive_eq]

theorem endReceive_rxMode (rc : ResultCode) (s : State) : (endReceive rc s).rxMode = s.rxMode := by
  rw [endReceive_eq]

theorem endReceive_opCur (rc : ResultCode) (s : State) : (endReceive rc s).opCur = s.opCur := by
  rw [endReceive_eq]

/-- The operation of a receive that ended with another result than `OK` is completed with that (R245). -/
theorem completeOp_failed {s : State} (hrc : s.rxResult ≠ .ok) (hm : s.rxMode = .blocking)
    (hop : s.opCur = 0x30 ∨ s.opCur = 0x50 ∨ s.opCur = 0x51 ∨ s.opCur = 0x52) :
    andThen (completeOp s.rxResult s.receiverIdle) (fun t => .next t.ready)
      = .next (receiveEnded s.rxResult s) := by
  rcases hop with hop | hquery
  · have hidle : completeOp s.rxResult s.receiverIdle = .next (s.receiverIdle.withRes s.rxResult) := if_pos hop
    rw [hidle, receiveEnded, hm, hop]
    rfl
  · have hne : s.opCur ≠ 0x30 := by rcases hquery with h | h | h <;> rw [h] <;> decide
    rw [completeOp_query_failed (s := s.receiverIdle) hrc hquery, receiveEnded, hm]
    simp only [if_neg hne]
    rfl

/-- A blocking receive that ends with another result than `OK` completes its operation with it (R241). -/
theorem finish_blocking_failed {s : State} {rc : ResultCode} (hrc : rc ≠ .ok) (hm : s.rxMode = .blocking)
    (hop : s.opCur = 0x30 ∨ s.opCur = 0x50 ∨ s.opCur = 0x51 ∨ s.opCur = 0x52) :
    finish rc s = .next (receiveEnded rc (endReceive rc s)) := by
  have hcomplete := completeOp_failed (s := endReceive rc s) (by rwa [endReceive_rxResult])
    (by rwa [endReceive_rxMode]) (by rwa [endReceive_opCur])
  rw [endReceive_rxResult] at hcomplete
  rw [finish_blocking hm, hcomplete]

/-! ### Frames that arrive (log entry 5) -/

/-- The bytes of a short frame bring a fresh receive of that frame to its end. -/
theorem rxSteps_arrived {s : State} {p bytes : List Byte} (hf : freshReceive s) (he : expired s = false)
    (hq : s.rxQueue = []) (hp : p.length ≤ 251) (hframe : 0x02 :: bytes = frameEncode p) :
    rxSteps (0x02 :: bytes).length (s.arrive (0x02 :: bytes)) = finish .ok (s.frameTaken p []) := by
  have hshort : 0x02 :: bytes = shortFrame p := hframe.trans (frameEncode_short (by omega))
  have hqueue : (s.arrive (0x02 :: bytes)).rxQueue = shortFrame p ++ [] := by
    show s.rxQueue ++ 0x02 :: bytes = _
    rw [hq, hshort, List.nil_append, List.append_nil]
  rw [hshort, length_shortFrame]
  rw [← hshort]
  exact rxSteps_shortFrame 0 (s := s.arrive (0x02 :: bytes)) hf he hp hqueue

/-- Bytes that arrive at an empty queue are all that waits. -/
theorem length_rxQueue_arrive {s : State} (hq : s.rxQueue = []) (bs : List Byte) :
    (s.arrive bs).rxQueue.length = bs.length := by
  show (s.rxQueue ++ bs).length = _
  rw [hq, List.nil_append]

/-- `POLL`'s steps for bytes that arrive at an empty queue: one for each. -/
theorem receiveBytes_armed_fresh {s : State} (hm : s.rxMode = .armed) (hf : freshReceive s) (hq : s.rxQueue = [])
    (b : Byte) (bs : List Byte) :
    receiveBytes (b :: bs) s = andThen (rxSteps (b :: bs).length (s.arrive (b :: bs))) fun t =>
      if t.rxResult = .ok then decodeView t else .next (t.withRes t.rxResult) := by
  rw [receiveBytes_armed hm hf.2.1, pollDrive, length_rxQueue_arrive hq, max_eq_left (Nat.succ_pos _)]

theorem receiveBytes_blocking_fresh {s : State} (hm : s.rxMode = .blocking) (hf : freshReceive s)
    (hq : s.rxQueue = []) (bs : List Byte) :
    receiveBytes bs s = rxSteps bs.length (s.arrive bs) := by
  rw [receiveBytes_blocking hm hf.2.1, hq, List.nil_append]

section

variable {s : State} {p bytes : List Byte} (hf : freshReceive s) (he : expired s = false) (hq : s.rxQueue = [])
  (hp : p.length ≤ 251) (hframe : 0x02 :: bytes = frameEncode p)

include hf he hq hp hframe

/-- An armed receive decodes the frame and reports the decode's result (R251). -/
theorem receiveBytes_short_armed (hm : s.rxMode = .armed) :
    receiveBytes (0x02 :: bytes) s = .next { decodeSite p (receivedFrame p [] s) with
      opRes := (decodeSite p (receivedFrame p [] s)).decRes } := by
  have hmode : (s.frameTaken p []).rxMode ≠ .blocking := by
    rw [show (s.frameTaken p []).rxMode = .armed from hm]
    exact nofun
  rw [receiveBytes_armed_fresh hm hf hq, rxSteps_arrived hf he hq hp hframe, finish_armed hmode,
    endReceive_frameTaken [] hp hf.2.2.1, andThen_next]
  exact (decodeView_eq (receivedFrame_view_fits [] s hp)).trans (by rw [receivedFrame_view [] s hp])

/-- A blocking receive completes its operation behind the frame (R241). -/
theorem receiveBytes_short_blocking (hm : s.rxMode = .blocking) :
    receiveBytes (0x02 :: bytes) s
      = andThen (completeOp .ok (receivedFrame p [] s).receiverIdle) fun t => .next t.ready := by
  rw [receiveBytes_blocking_fresh hm hf hq, rxSteps_arrived hf he hq hp hframe,
    finish_blocking (s := s.frameTaken p []) hm, endReceive_frameTaken [] hp hf.2.2.1]

/-- `RECV_BLOCKING` reports the frame and decodes nothing (R245). -/
theorem receiveBytes_short_recvBlocking (hm : s.rxMode = .blocking) (hop : s.opCur = 0x30) :
    receiveBytes (0x02 :: bytes) s = .next { receivedFrame p [] s with
      rxMode := .idle, opRes := .ok, busy := false, opCur := 0 } := by
  have hreport : completeOp .ok (receivedFrame p [] s).receiverIdle
      = .next ((receivedFrame p [] s).receiverIdle.withRes .ok) := if_pos hop
  rw [receiveBytes_short_blocking hf he hq hp hframe hm, hreport]
  rfl

/-- A query decodes the frame and is answered (44_command_dispatch.md R340). -/
theorem receiveBytes_short_query (hm : s.rxMode = .blocking) {expected : Byte}
    (hop : queryExpects s.opCur expected) :
    receiveBytes (0x02 :: bytes) s = .next (queryAnswered expected
      (decodeSite p { receivedFrame p [] s with rxMode := .idle })) := by
  obtain ⟨c, hc, hcomplete⟩ := completeOp_query (s := (receivedFrame p [] s).receiverIdle) hop .ok
  have hview : (receivedFrame p [] s).receiverIdle.view = p := receivedFrame_view [] s hp
  have hanswer := completeRequest_ok (s := (receivedFrame p [] s).receiverIdle)
    (receivedFrame_view_fits [] s hp) rfl c
  rw [hview, hc] at hanswer
  rw [receiveBytes_short_blocking hf he hq hp hframe hm, hcomplete, hanswer]
  rfl

end

/-- `s` after a fresh receive took the first two bytes `0x03` and `b` of a long frame and ended with `RX_LONG`
(R236); `more` stays waiting. -/
def State.longEnded (b : Byte) (more : List Byte) (s : State) : State :=
  { s with
    rxQueue := more, rxbuf := (s.rxbuf.put 0 0x03).put 1 b, rxCnt := 2
    rxResult := .rxLong, opRes := .rxLong, diagLog := (s.diag .longUnsupported).diagLog }

theorem endReceive_long {s : State} (hcnt : s.rxCnt = 0) (b : Byte) (more : List Byte) :
    (endReceive .rxLong ((s.taken [Config.startLong, b] more).diag .longUnsupported)).withRes .rxLong
      = s.longEnded b more := by
  rw [State.taken, hcnt]
  rfl

/-- What a blocking operation reports does not depend on what `OP_RES` held. -/
theorem receiveEnded_withRes {s : State} (hm : s.rxMode = .blocking) (rc rc' : ResultCode) :
    receiveEnded rc (s.withRes rc') = receiveEnded rc s := by
  rw [receiveEnded, receiveEnded, State.withRes_rxMode, hm]
  rfl

section

variable {s : State} {b : Byte} {more : List Byte} (hf : freshReceive s) (he : expired s = false)
  (hq : s.rxQueue = [])

include hf he hq

/-- The first two bytes of a long frame end a fresh receive (R236). -/
theorem rxSteps_long_arrived :
    rxSteps (0x03 :: b :: more).length (s.arrive (0x03 :: b :: more))
      = finish .rxLong ((s.taken [Config.startLong, b] more).diag .longUnsupported) := by
  have hqueue : (s.arrive (0x03 :: b :: more)).rxQueue = Config.startLong :: b :: more := by
    show s.rxQueue ++ 0x03 :: b :: more = _
    rw [hq]; rfl
  exact rxSteps_longFrame more.length (s := s.arrive (0x03 :: b :: more)) hf he hqueue

theorem receiveBytes_long_armed (hm : s.rxMode = .armed) :
    receiveBytes (0x03 :: b :: more) s = .next (s.longEnded b more) := by
  have hmode : ((s.taken [Config.startLong, b] more).diag .longUnsupported).rxMode ≠ .blocking := by
    rw [show ((s.taken [Config.startLong, b] more).diag .longUnsupported).rxMode = .armed from hm]
    exact nofun
  rw [receiveBytes_armed_fresh hm hf hq, rxSteps_long_arrived hf he hq, finish_armed hmode, andThen_next,
    endReceive_rxResult, if_neg nofun, endReceive_long hf.2.2.1]

theorem receiveBytes_long_blocking (hm : s.rxMode = .blocking)
    (hop : s.opCur = 0x30 ∨ s.opCur = 0x50 ∨ s.opCur = 0x51 ∨ s.opCur = 0x52) :
    receiveBytes (0x03 :: b :: more) s = .next (receiveEnded .rxLong (s.longEnded b more)) := by
  have hmode : (endReceive .rxLong ((s.taken [Config.startLong, b] more).diag .longUnsupported)).rxMode
      = .blocking := (endReceive_rxMode _ _).trans hm
  rw [receiveBytes_blocking_fresh hm hf hq, rxSteps_long_arrived hf he hq,
    finish_blocking_failed (s := (s.taken [Config.startLong, b] more).diag .longUnsupported) (by decide) hm hop,
    ← endReceive_long hf.2.2.1, receiveEnded_withRes hmode]

end

/-- Settles O48: an inbound frame row is its bytes' arrival, and the receiver's mode tells who takes them. -/
theorem frameRowsReceive : Obligations.FrameRowsReceive := by
  intro s bytes
  refine ⟨fun hwait => ?waiting, fun hm hb hnone => ?armed, fun hm hb hnone hsched => ?blocking,
    fun hf he hq p hp hframe => ?short, fun hf he hq b more hbytes => ?long⟩
  case waiting => exact ⟨receiveBytes_waiting hwait _, receiveBytes_waiting hwait _⟩
  case armed =>
    have hpoll : ∀ start, receiveBytes (start :: bytes) s = execPoll (s.arrive (start :: bytes)) := fun start =>
      (receiveBytes_armed hm hnone _).trans (execPoll_armed (s := s.arrive _) hb hm hnone).symm
    exact ⟨hpoll 0x02, hpoll 0x03⟩
  case blocking =>
    have hturns : ∀ start, receiveBytes (start :: bytes) s
        = runSteps (s.rxQueue.length + bytes.length + 1) (s.arrive (start :: bytes)) := fun start => by
      rw [receiveBytes_blocking hm hnone, rxSteps_eq_runSteps _ (s := s.arrive _) hsched hb hm hnone,
        List.length_append, List.length_cons, Nat.add_assoc]
    exact ⟨hturns 0x02, hturns 0x03⟩
  case short =>
    exact ⟨receiveBytes_short_armed hf he hq hp hframe, receiveBytes_short_recvBlocking hf he hq hp hframe,
      fun hm _ hop => receiveBytes_short_query hf he hq hp hframe hm hop⟩
  case long =>
    subst hbytes
    exact ⟨receiveBytes_long_armed hf he hq, receiveBytes_long_blocking hf he hq⟩

end Sys2Proof.Machine
end

section
/-! SUPPORT. Decoding gives back what was encoded (30_encoding.md): operation words field by field (R110, R111),
payloads by their identifier (R105, R106, R121, R312), frames by their start marker (R100 to R102). -/

namespace Sys2Proof.Machine

/-! ### Operands inside their fields (R111, R112) -/

@[simp] theorem bufferOf_bufferByte (buf : Buffer) : bufferOf (bufferByte buf) = buf := by
  cases buf <;> rfl

/-- A boolean operand is any non-zero byte; the encoder writes 1. -/
@[simp] theorem boolByte_bne_zero (b : Bool) : ((if b then 1#8 else 0#8) != 0#8) = b := by
  cases b <;> rfl

@[simp] theorem immLo_zeroExtend (h : BitVec 16) : immLo (h.zeroExtend 32) = h := by
  ext i hi
  simp [immLo, hi, show i < 32 by omega]

@[simp] theorem buttonBits_lower (lower upper : Bool) : (buttonBits lower upper)[0] = lower := by
  cases lower <;> cases upper <;> rfl

@[simp] theorem buttonBits_upper (lower upper : Bool) : (buttonBits lower upper)[1] = upper := by
  cases lower <;> cases upper <;> rfl

/-! ### Payloads (R105, R106, R121, R312) -/

/-- The identifiers of the catalogue are distinct: each finds its own command (R121). -/
theorem commandWithId_cmdId (name : CommandName) : commandWithId (Config.cmdId name) = some name := by
  cases name <;> rfl

/-- The wire row of a received payload: its identifier's command with the bytes behind it (R106). -/
def inboundRow (name : CommandName) (body : List Byte) : Instr :=
  match name with
  | .fwVersion => .commFwVersion (.inbound body)
  | .getValues => .commGetValues (.inbound body)
  | .setDuty => .commSetDuty (.inbound body)
  | .setCurrent => .commSetCurrent (.inbound body)
  | .setCurrentBrake => .commSetCurrentBrake (.inbound body)
  | .setRpm => .commSetRpm (.inbound body)
  | .setPos => .commSetPos (.inbound body)
  | .alive => .commAlive (.inbound body)
  | .forwardCan => .commForwardCan (.inbound body)
  | .setChuckData => .commSetChuckData (.inbound body)
  | .getValuesSelective => .commGetValuesSelective (.inbound body)

theorem decodeInbound_cmdId (name : CommandName) (body : List Byte) :
    decodeInbound (Config.cmdId name :: body) = .ok (inboundRow name body) := by
  rw [decodeInbound, commandWithId_cmdId]
  cases name <;> rfl

/-- A command read from its own payload passes the check that the payload is exactly its encoding. -/
theorem filter_payload_self {read c : Command} (h : read = c) :
    (some read).filter (fun d => d.payload == c.payload) = some c := by
  subst h
  exact Option.filter_some_pos (beq_self_eq_true _)

/-- A command's payload is read as that command: the arguments come back from what they encode to
(44_command_dispatch.md R291). -/
theorem decodeCommand_payload (c : Command) : decodeCommand c.payload = some c := by
  cases c with
  | fwVersion | getValues | alive => rfl
  | getValuesSelective mask => exact filter_payload_self (congrArg Command.getValuesSelective (dec32_enc32 mask))
  | setCurrent v => exact filter_payload_self (congrArg Command.setCurrent (dec32_enc32 v))
  | setCurrentBrake v => exact filter_payload_self (congrArg Command.setCurrentBrake (dec32_enc32 v))
  | setRpm v => exact filter_payload_self (congrArg Command.setRpm (dec32_enc32 v))
  | setPos v => exact filter_payload_self (congrArg Command.setPos (dec32_enc32 v))
  | setDuty v => exact filter_payload_self (congrArg Command.setDuty (dec32_enc32 v))
  | setChuckData x y lower upper =>
    exact filter_payload_self
      (congrArg₂ (Command.setChuckData x y) (boolByte_bne_zero lower) (boolByte_bne_zero upper))

/-- An outbound payload with any identifier but the forward marker is its command's. -/
theorem decodeOutbound_of_decodeCommand {name : CommandName} (hname : name ≠ .forwardCan) {args : List Byte}
    {c : Command} (h : decodeCommand (Config.cmdId name :: args) = some c) :
    decodeOutbound (Config.cmdId name :: args) = .ok c.instr := by
  cases name with
  | forwardCan => exact absurd rfl hname
  | _ => simp only [decodeOutbound, commandWithId_cmdId, h]

theorem decodeOutbound_payload (c : Command) : decodeOutbound c.payload = .ok c.instr :=
  decodeOutbound_of_decodeCommand (by cases c <;> exact nofun) (decodeCommand_payload c)

/-- Behind the forward marker and a peer stands the wrapped command (R312). -/
theorem decodeOutbound_addressed {peer : Byte} (h : peer ≠ 0) (c : Command) :
    decodeOutbound (c.addressed peer) = .ok (.commForwardCan (.outbound (peer, c))) := by
  have haddressed : c.addressed peer = Config.cmdId .forwardCan :: peer :: c.payload := by
    rw [Command.addressed, if_pos h]; rfl
  rw [haddressed, decodeOutbound, commandWithId_cmdId]
  simp only [if_neg h, decodeCommand_payload]

/-- A wire row is read back when both of its readings are. -/
theorem decode_encodeWire {α : Type} {name : CommandName} {out : α → List Byte} {row : Wire α → Instr}
    (hout : ∀ args, decodeOutbound (out args) = .ok (row (.outbound args)))
    (hin : ∀ body, inboundRow name body = row (.inbound body)) (w : Wire α) :
    decode (encodeWire name out w) = .ok (row w) := by
  cases w with
  | outbound args => exact hout args
  | inbound body => rw [← hin body]; exact decodeInbound_cmdId name body

/-! ### Frames (R100, R101) -/

theorem frameEncode_long {p : List Byte} (h : 256 ≤ p.length) : frameEncode p = longFrame p := by
  rw [frameEncode, if_neg (by omega)]

/-- The payload lies between the two header bytes of a short frame and its three tail bytes. -/
theorem decodeFrameOut_short {p : List Byte} (h : p.length ≤ 255) :
    decodeFrameOut (frameEncode p) = .ok (.frameShort (.outbound p)) := by
  have hframe : frameEncode p = Config.startShort :: BitVec.ofNat 8 p.length :: (p ++ frameTail p) :=
    frameEncode_short h
  have hpayload : (p ++ frameTail p).take ((BitVec.ofNat 8 p.length :: (p ++ frameTail p)).length - 4) = p := by
    simp [frameTail]
  rw [hframe, decodeFrameOut, if_pos rfl, List.drop_succ_cons, List.drop_zero, hpayload, if_pos ⟨h, hframe.symm⟩]

/-- The payload lies between the three header bytes of a long frame and its three tail bytes. -/
theorem decodeFrameOut_long {p : List Byte} (hlow : 256 ≤ p.length) (hhigh : p.length ≤ 65535) :
    decodeFrameOut (frameEncode p) = .ok (.frameLong (.outbound p)) := by
  have hframe : frameEncode p = Config.startLong :: BitVec.ofNat 8 (p.length / 256) :: BitVec.ofNat 8 p.length
      :: (p ++ frameTail p) := frameEncode_long hlow
  have hpayload : (p ++ frameTail p).take ((BitVec.ofNat 8 (p.length / 256) :: BitVec.ofNat 8 p.length
      :: (p ++ frameTail p)).length - 5) = p := by
    simp [frameTail]
  rw [hframe, decodeFrameOut, if_neg (by decide), if_pos rfl, List.drop_succ_cons, List.drop_succ_cons,
    List.drop_zero, hpayload, if_pos ⟨hlow, hhigh, hframe.symm⟩]

/-! ### The round trip -/

/-- Settles O1: an operation word by its fields, a wire row by its identifier, a frame by its start marker. -/
theorem decodeUndoesEncode : Obligations.DecodeUndoesEncode := by
  intro i hwf
  cases i with
  | payReset | getU8 | getInt32 | getUint32 | frameSend | poll | decodePayload | clrErr => rfl
  | crc16 | appendU8 | appendBool | appendInt32 | appendUint32 | rxSeek | getFloat16 | getFloat32 | frameCheck
  | recvBlocking | arm | reqFwVersion | reqValues | reqValuesSel | setCurrent | setCurrentBrake | setRpm | setPos
  | setDuty | setAux | sendAlive | auxWrite | cfgTimeout => simp [encode, decode, decodeWord]
  | commFwVersion w => exact decode_encodeWire (fun _ => decodeOutbound_payload .fwVersion) (fun _ => rfl) w
  | commGetValues w => exact decode_encodeWire (fun _ => decodeOutbound_payload .getValues) (fun _ => rfl) w
  | commSetDuty w => exact decode_encodeWire (fun v => decodeOutbound_payload (.setDuty v)) (fun _ => rfl) w
  | commSetCurrent w => exact decode_encodeWire (fun v => decodeOutbound_payload (.setCurrent v)) (fun _ => rfl) w
  | commSetCurrentBrake w =>
    exact decode_encodeWire (fun v => decodeOutbound_payload (.setCurrentBrake v)) (fun _ => rfl) w
  | commSetRpm w => exact decode_encodeWire (fun v => decodeOutbound_payload (.setRpm v)) (fun _ => rfl) w
  | commSetPos w => exact decode_encodeWire (fun v => decodeOutbound_payload (.setPos v)) (fun _ => rfl) w
  | commAlive w => exact decode_encodeWire (fun _ => decodeOutbound_payload .alive) (fun _ => rfl) w
  | commSetChuckData w =>
    exact decode_encodeWire (fun (x, y, lower, upper) => decodeOutbound_payload (.setChuckData x y lower upper))
      (fun _ => rfl) w
  | commGetValuesSelective w =>
    exact decode_encodeWire (fun mask => decodeOutbound_payload (.getValuesSelective mask)) (fun _ => rfl) w
  | commForwardCan w =>
    cases w with
    | outbound args => exact decodeOutbound_addressed (of_decide_eq_true hwf) args.2
    | inbound body => exact decodeInbound_cmdId .forwardCan body
  | frameShort w =>
    cases w with
    | outbound p => exact decodeFrameOut_short (of_decide_eq_true hwf)
    | inbound rest => rfl
  | frameLong w =>
    cases w with
    | outbound p =>
      obtain ⟨hlow, hhigh⟩ : 256 ≤ p.length ∧ p.length ≤ 65535 := of_decide_eq_true hwf
      exact decodeFrameOut_long hlow hhigh
    | inbound rest => rfl

end Sys2Proof.Machine
end

section
/-! SUPPORT. The fields that a row does not name are not read (30_encoding.md R113): a word decodes as it does with
every bit cleared that its row does not name. -/

namespace Sys2Proof.Machine

/-! ### Fields of a masked word (R111) -/

/-- A field whose bits are all in the mask is the same in the masked word. -/
theorem extract_and_of_named {width : Nat} (w : BitVec width) {m : BitVec width} {start len : Nat}
    (h : m.extractLsb' start len = BitVec.allOnes len) :
    (w &&& m).extractLsb' start len = w.extractLsb' start len := by
  rw [BitVec.extractLsb'_and, h, BitVec.and_allOnes]

/-- A bit of a field that is in the mask is the same in the masked word. -/
theorem getLsbD_extract_and_of_named (w : OpWord) {m : OpWord} {start len i : Nat}
    (h : (m.extractLsb' start len).getLsbD i = true) :
    ((w &&& m).extractLsb' start len).getLsbD i = (w.extractLsb' start len).getLsbD i := by
  rw [BitVec.extractLsb'_and, BitVec.getLsbD_and, h, Bool.and_true]

/-- Every row names `SEL` (R110). -/
theorem wordSel_and_namedBits (w : OpWord) (sel : Byte) : wordSel (w &&& namedBits sel) = wordSel w :=
  have hsel : wordSel (namedBits sel) = BitVec.allOnes 8 := by revert sel; decide
  extract_and_of_named w hsel

theorem wordF1_and (w : OpWord) {m : OpWord} (h : wordF1 m = BitVec.allOnes 8) : wordF1 (w &&& m) = wordF1 w :=
  extract_and_of_named w h

theorem wordF2_and (w : OpWord) {m : OpWord} (h : wordF2 m = BitVec.allOnes 8) : wordF2 (w &&& m) = wordF2 w :=
  extract_and_of_named w h

theorem wordImm_and (w : OpWord) {m : OpWord} (h : wordImm m = BitVec.allOnes 32) :
    wordImm (w &&& m) = wordImm w :=
  extract_and_of_named w h

/-- `AUX_WRITE` names single bits of `F3` (44_command_dispatch.md R311). -/
theorem getLsbD_wordF3_and (w : OpWord) {m : OpWord} {i : Nat} (h : (wordF3 m).getLsbD i = true) :
    (wordF3 (w &&& m)).getLsbD i = (wordF3 w).getLsbD i :=
  getLsbD_extract_and_of_named w h

/-- `CRC16` names bit 0 of `F1` alone (40_crc.md R145). -/
theorem bufferOf_wordF1_and (w : OpWord) {m : OpWord} (h : (wordF1 m).getLsbD 0 = true) :
    bufferOf (wordF1 (w &&& m)) = bufferOf (wordF1 w) := by
  have hbit : (wordF1 (w &&& m)).getLsbD 0 = (wordF1 w).getLsbD 0 := getLsbD_extract_and_of_named w h
  rw [bufferOf, hbit, bufferOf]

/-- `ARM` names the low half of `IMM` alone (R112). -/
theorem immLo_wordImm_and (w : OpWord) {m : OpWord} (h : immLo (wordImm m) = BitVec.allOnes 16) :
    immLo (wordImm (w &&& m)) = immLo (wordImm w) := by
  rw [wordImm, BitVec.extractLsb'_and]
  exact extract_and_of_named _ h

/-! ### The rows (R110) -/

/-- The decoder reads the named bits only: row by row, each operand lies in them. -/
theorem decodeWord_and_namedBits (w : OpWord) : decodeWord (w &&& namedBits (wordSel w)) = decodeWord w := by
  unfold decodeWord
  rw [wordSel_and_namedBits]
  split
  case h_1 hsel =>
    rw [bufferOf_wordF1_and w (by rw [namedBits, hsel]; rfl), wordImm_and w (by rw [namedBits, hsel]; rfl)]
  case h_16 hsel => rw [immLo_wordImm_and w (by rw [namedBits, hsel]; rfl)]
  case h_29 hsel =>
    have hF1 := wordF1_and w (m := namedBits (wordSel w)) (by rw [namedBits, hsel]; rfl)
    have hF2 := wordF2_and w (m := namedBits (wordSel w)) (by rw [namedBits, hsel]; rfl)
    have hlower := getLsbD_wordF3_and w (m := namedBits (wordSel w)) (i := 0) (by rw [namedBits, hsel]; rfl)
    have hupper := getLsbD_wordF3_and w (m := namedBits (wordSel w)) (i := 1) (by rw [namedBits, hsel]; rfl)
    rw [hF1, hF2, hlower, hupper]
  -- rows that name `F1` alone
  case h_3 hsel | h_4 hsel | h_7 hsel | h_19 hsel | h_20 hsel | h_27 hsel | h_28 hsel =>
    rw [wordF1_and w (by rw [namedBits, hsel]; rfl)]
  -- rows that name `IMM` alone
  case h_5 hsel | h_6 hsel | h_11 hsel | h_12 hsel | h_14 hsel | h_15 hsel | h_30 hsel =>
    rw [wordImm_and w (by rw [namedBits, hsel]; rfl)]
  -- rows that name `F1` and `IMM`
  case h_21 hsel | h_22 hsel | h_23 hsel | h_24 hsel | h_25 hsel | h_26 hsel =>
    rw [wordF1_and w (by rw [namedBits, hsel]; rfl), wordImm_and w (by rw [namedBits, hsel]; rfl)]
  -- rows without an operand, and the reserved selectors
  all_goals rfl

/-- A word that agrees with `w` on the bits `w`'s row names has the same selector, so the same row. -/
theorem wordSel_eq_of_named {w w' : OpWord}
    (h : w &&& namedBits (wordSel w) = w' &&& namedBits (wordSel w)) : wordSel w = wordSel w' := by
  rw [← wordSel_and_namedBits w (wordSel w), h, wordSel_and_namedBits]

theorem issueWord_congr {w w' : OpWord} (h : decode (.host w) = decode (.host w')) (s : State) :
    issueWord w s = issueWord w' s := by
  rw [issueWord, h, issueWord]

/-- Settles O3: both words decode as the word masked to the bits that their common row names. -/
theorem unnamedFieldsIgnored : Obligations.UnnamedFieldsIgnored := by
  intro w w' h
  have hdecode : decodeWord w = decodeWord w' :=
    calc decodeWord w
      _ = decodeWord (w &&& namedBits (wordSel w)) := (decodeWord_and_namedBits w).symm
      _ = decodeWord (w' &&& namedBits (wordSel w')) := by rw [h, wordSel_eq_of_named h]
      _ = decodeWord w' := decodeWord_and_namedBits w'
  exact ⟨hdecode, issueWord_congr hdecode⟩

end Sys2Proof.Machine
end

section
/-! SUPPORT. What the instructions behind the encodings do: words written out from the spec (30_encoding.md R110,
R121, R200), the pending operation word (R114), the inbound rows at the decode site (R106, R122, R330), and the
outbound frame rows (R100, R101). -/

namespace Sys2Proof.Machine

/-! ### Words written out from the tables -/

/-- An item that a well-formed instruction encodes to is read as that instruction. -/
theorem decode_of_encode {i : Instr} {item : Item} (hwf : i.wf = true) (h : encode i = item) :
    decode item = .ok i := by
  rw [← h]
  exact decodeUndoesEncode i hwf

theorem crc16_setCurrent_5000 : crc16 [0x06, 0x00, 0x00, 0x13, 0x88] = 0x8B25 := by
  simp [crc16, crcWith, crcByte, crcShifts, crcShift, Config.crc]

/-- The example of 42_frame_codec.md R201: the frame of the command that sets 5 A. -/
theorem frameEncode_setCurrent_5000 :
    frameEncode [0x06, 0x00, 0x00, 0x13, 0x88]
      = [0x02, 0x05, 0x06, 0x00, 0x00, 0x13, 0x88, 0x8B, 0x25, 0x03] := by
  rw [frameEncode_short (by decide), shortFrame, frameTail, crc16_setCurrent_5000]
  rfl

/-- Settles O2: each item is what its instruction encodes to; a received payload is read by its identifier. -/
theorem specWordsDecode : Obligations.SpecWordsDecode := by
  refine ⟨?crc16, ?appendInt32, ?getFloat16, ?frameCheck, ?arm, ?reqValuesSel, ?setCurrent, ?auxWrite, ?cfgTimeout,
    ?version, ?forwarded, ?frame⟩
  case version => exact decodeInbound_cmdId .fwVersion [3, 62]
  case frame => exact decode_of_encode rfl (congrArg Item.frameOut frameEncode_setCurrent_5000)
  all_goals exact decode_of_encode rfl rfl

/-! ### The pending move (R110, R114) -/

/-- A word at the host port runs the instruction it decodes to. -/
theorem issueWord_of_decode {w : OpWord} {i : Instr} (h : decode (.host w) = .ok i) (s : State) :
    issueWord w s = exec i s := by
  rw [issueWord, h]

/-- Settles O6: the schedule names the move, and an operation word is decoded and run. -/
theorem stepRunsDecodedWord : Obligations.StepRunsDecodedWord := by
  refine ⟨fun s hidle => step_idle hidle, fun s ev rest hs => step_event hs, fun s w rest i hs hdecode => ?_⟩
  calc step s
    _ = agentMove (.op w) { s with sched := rest } := step_event hs
    _ = exec i { s with sched := rest } := issueWord_of_decode hdecode _

/-! ### Inbound rows (R106, R122, R330) -/

/-- Whatever the command, its inbound row decodes the whole payload, identifier included. -/
theorem exec_inboundRow (name : CommandName) (body : List Byte) (s : State) :
    exec (inboundRow name body) s = .next (decodeSite (Config.cmdId name :: body) s) := by
  cases name <;> rfl

/-- Settles O7: the identifier finds its row, and every inbound row goes to the decode site. -/
theorem inboundRowsRunDecodeSite : Obligations.InboundRowsRunDecodeSite := fun name body =>
  ⟨inboundRow name body, decodeInbound_cmdId name body, exec_inboundRow name body⟩

/-- An identifier that selects none of the three decoders (R330). -/
abbrev Undecoded (id : Byte) : Prop :=
  id ≠ Config.cmdId .fwVersion ∧ id ≠ Config.cmdId .getValues ∧ id ≠ Config.cmdId .getValuesSelective

/-- `s` after a decode that failed on an unknown identifier. -/
def State.unknownFailed (id : Byte) (s : State) : State :=
  { s with decId := id, decRes := .decodeFail, diagLog := (s.diag .unknownCmd).diagLog }

theorem decodeBody_undecoded {id : Byte} (h : Undecoded id) (p : List Byte) (s : State) :
    decodeBody id p s = (s.diag .unknownCmd, false) := by
  obtain ⟨hversion, hfull, hselective⟩ := h
  rw [decodeBody, if_neg hversion, if_neg hfull, if_neg hselective]

theorem decodeSite_undecoded {id : Byte} (h : Undecoded id) (body : List Byte) (s : State) :
    decodeSite (id :: body) s = s.unknownFailed id := by
  rw [decodeSite, decodeBody_undecoded h]
  rfl

/-- The inbound row of an outbound-only command fails as an unknown identifier does (R122). -/
theorem exec_inboundRow_undecoded (name : CommandName) (h : Undecoded (Config.cmdId name)) (body : List Byte)
    (s : State) : exec (inboundRow name body) s = .next (s.unknownFailed (Config.cmdId name)) := by
  rw [exec_inboundRow, decodeSite_undecoded h]

/-- Settles O37: no decoder takes an unknown identifier, so the decode reports it and nothing else changes. -/
theorem unknownIdentifiersFail : Obligations.UnknownIdentifiersFail := by
  intro body s
  refine ⟨rfl, fun id hversion hfull hselective => decodeSite_undecoded ⟨hversion, hfull, hselective⟩ body s,
    fun i id hrow => ?_⟩
  obtain ⟨rfl, rfl⟩ | ⟨rfl, rfl⟩ | ⟨rfl, rfl⟩ | ⟨rfl, rfl⟩ | ⟨rfl, rfl⟩ | ⟨rfl, rfl⟩ | ⟨rfl, rfl⟩ | ⟨rfl, rfl⟩ := hrow
  · exact exec_inboundRow_undecoded .setDuty (by decide) body s
  · exact exec_inboundRow_undecoded .setCurrent (by decide) body s
  · exact exec_inboundRow_undecoded .setCurrentBrake (by decide) body s
  · exact exec_inboundRow_undecoded .setRpm (by decide) body s
  · exact exec_inboundRow_undecoded .setPos (by decide) body s
  · exact exec_inboundRow_undecoded .alive (by decide) body s
  · exact exec_inboundRow_undecoded .forwardCan (by decide) body s
  · exact exec_inboundRow_undecoded .setChuckData (by decide) body s

/-! ### Outbound frame rows (R100, R101) -/

/-- Everything the emission of a frame writes (42_frame_codec.md R201). -/
theorem emitFrame_eq (f : List Byte) (s : State) :
    emitFrame f s = { s with
      txOut := s.txOut ++ f
      txCount := BitVec.ofNat 17 f.length
      diagLog := (s.diag .frameSent).diagLog } := rfl

theorem exec_frameShort_outbound (p : List Byte) (s : State) :
    exec (.frameShort (.outbound p)) s =
      if p.length ≤ 255 then .next (emitFrame (frameEncode p) s) else .refused (.noSuchFrame p.length) := rfl

theorem exec_frameLong_outbound (p : List Byte) (s : State) :
    exec (.frameLong (.outbound p)) s =
      if 256 ≤ p.length ∧ p.length ≤ 65535 then .next (emitFrame (frameEncode p) s)
      else .refused (.noSuchFrame p.length) := rfl

/-- Settles O47: a length that the form carries is emitted, every other one is refused. -/
theorem frameRowsEmit : Obligations.FrameRowsEmit := by
  intro p s
  rw [exec_frameShort_outbound, exec_frameLong_outbound, emitFrame_eq]
  refine ⟨fun hfits => ?short, fun htoLong => ?notShort, fun hlow hhigh => ?long, fun hout => ?notLong⟩
  case short => exact if_pos hfits
  case notShort => exact if_neg (by omega)
  case long => exact if_pos ⟨hlow, hhigh⟩
  case notLong => exact if_neg (by omega)

end Sys2Proof.Machine
end

section
/-! SUPPORT. The CRC Engine (40_crc.md R140 to R145): with bit 0 of the polynomial set every turn of the loop can be
undone, so two sequences that differ in one byte never meet again; the zero register stays zero on zero bytes; and
what `CRC16` answers on either side of its range check. -/

namespace Sys2Proof.Machine

/-! ### The loop can be undone (R140, R143) -/

/-- The bit that falls out at the top is bit 0 of the result, where the shift left a 0 and the polynomial has a 1. -/
theorem getLsbD_zero_crcShift {poly : BitVec 16} (hpoly : poly.getLsbD 0 = true) (c : BitVec 16) :
    (crcShift poly c).getLsbD 0 = c.getLsbD 15 := by
  unfold crcShift
  split
  case isTrue htop => rw [BitVec.getLsbD_xor, hpoly, htop]; simp
  case isFalse htop => simpa using htop

theorem shiftLeft_one_inj {c d : BitVec 16} (htop : c.getLsbD 15 = d.getLsbD 15) (h : c <<< 1 = d <<< 1) : c = d := by
  refine BitVec.eq_of_getLsbD_eq fun i hi => ?_
  by_cases hlast : i = 15
  · rw [hlast, htop]
  · have hbit : (c <<< 1).getLsbD (i + 1) = (d <<< 1).getLsbD (i + 1) := by rw [h]
    simpa [hi, show i + 1 < 16 by omega] using hbit

theorem crcShift_injective {poly : BitVec 16} (hpoly : poly.getLsbD 0 = true) :
    Function.Injective (crcShift poly) := by
  intro c d h
  have htop : c.getLsbD 15 = d.getLsbD 15 := by
    rw [← getLsbD_zero_crcShift hpoly c, h, getLsbD_zero_crcShift hpoly]
  refine shiftLeft_one_inj htop ?_
  unfold crcShift at h
  rw [htop] at h
  split at h
  case isTrue => exact (BitVec.xor_left_inj poly).1 h
  case isFalse => exact h

theorem crcShifts_injective {poly : BitVec 16} (hpoly : poly.getLsbD 0 = true) (n : Nat) :
    Function.Injective (crcShifts poly n) := by
  induction n with
  | zero => exact Function.injective_id
  | succ n ih => exact ih.comp (crcShift_injective hpoly)

/-- The register before a byte can be told from the register after it. -/
theorem crcByte_injective_register {poly : BitVec 16} (hpoly : poly.getLsbD 0 = true) (b : Byte) :
    Function.Injective fun c => crcByte poly c b :=
  fun _ _ h => (BitVec.xor_left_inj _).1 (crcShifts_injective hpoly 8 h)

/-- A byte is all in the upper half of the register that it enters. -/
theorem byteAtTop_injective : Function.Injective fun b : Byte => b.zeroExtend 16 <<< 8 := by
  intro b d h
  refine BitVec.eq_of_getLsbD_eq fun i hi => ?_
  have hbit := congrArg (·.getLsbD (i + 8)) h
  simpa [show i + 8 < 16 by omega, show i < 16 by omega] using hbit

/-- The byte can be told from the registers before and after it. -/
theorem crcByte_injective_byte {poly : BitVec 16} (hpoly : poly.getLsbD 0 = true) (c : BitVec 16) :
    Function.Injective (crcByte poly c) :=
  fun _ _ h => byteAtTop_injective ((BitVec.xor_right_inj _).1 (crcShifts_injective hpoly 8 h))

theorem foldl_crcByte_injective {poly : BitVec 16} (hpoly : poly.getLsbD 0 = true) (bs : List Byte) :
    Function.Injective fun c => bs.foldl (crcByte poly) c := by
  induction bs with
  | nil => exact Function.injective_id
  | cons b bs ih => exact ih.comp (crcByte_injective_register hpoly b)

/-- The form of R140: the loop over the bytes, then the final XOR. -/
theorem crcWith_unreflected {p : Config.CrcParams} (hin : p.refIn = false) (hout : p.refOut = false)
    (bs : List Byte) : crcWith p bs = bs.foldl (crcByte p.poly) p.init ^^^ p.xorOut := by
  simp [crcWith, hin, hout]

/-- Sequences with the same CRC that agree but for one byte agree in that byte too. -/
theorem eq_of_crcWith_eq {p : Config.CrcParams} (hpoly : p.poly.getLsbD 0 = true) (hin : p.refIn = false)
    (hout : p.refOut = false) {pre post : List Byte} {b d : Byte}
    (h : crcWith p (pre ++ b :: post) = crcWith p (pre ++ d :: post)) : b = d := by
  rw [crcWith_unreflected hin hout, crcWith_unreflected hin hout, BitVec.xor_left_inj, List.foldl_append,
    List.foldl_append] at h
  exact crcByte_injective_byte hpoly _ (foldl_crcByte_injective hpoly post h)

theorem xor_bit_ne (b : Byte) (k : Fin 8) : b ^^^ (1#8 <<< k.val) ≠ b := by
  have hbit : 1#8 <<< k.val ≠ 0#8 := by revert k; decide
  simpa using hbit

/-- Settles O9: equal CRCs would make the flipped byte equal to the byte before the flip. -/
theorem crcDetectsSingleBit : Obligations.CrcDetectsSingleBit := by
  intro p pre post b k hpoly hin hout hcrc
  exact xor_bit_ne b k (eq_of_crcWith_eq hpoly hin hout hcrc).symm

/-! ### Values (R142, R144) -/

/-- `crc16` is the loop alone: the set of `VescUart-CORE` starts at 0 and ends with no XOR (R10). -/
theorem crc16_eq_foldl (bs : List Byte) : crc16 bs = bs.foldl (crcByte Config.crc.poly) 0 := by
  rw [crc16, crcWith_unreflected rfl rfl]
  exact BitVec.xor_zero

/-- No bit falls out of a zero register, so the polynomial is never subtracted. -/
theorem crcShifts_zero (poly : BitVec 16) (n : Nat) : crcShifts poly n 0 = 0 := by
  induction n with
  | zero => rfl
  | succ n ih => exact ih

theorem crcByte_zero (poly : BitVec 16) : crcByte poly 0 0 = 0 := crcShifts_zero poly 8

theorem foldl_crcByte_zeros (poly : BitVec 16) (n : Nat) : (List.replicate n 0).foldl (crcByte poly) 0 = 0 := by
  induction n with
  | zero => rfl
  | succ n ih => rw [List.replicate_succ, List.foldl_cons, crcByte_zero, ih]

/-- The published check value of CRC-16/XMODEM: the bytes are `123456789` in ASCII. -/
theorem crc16_checkValue : crc16 [0x31, 0x32, 0x33, 0x34, 0x35, 0x36, 0x37, 0x38, 0x39] = 0x31C3 := by
  simp [crc16_eq_foldl, crcByte, crcShifts, crcShift, Config.crc]

/-- Settles O8: zero bytes keep the zero register, by induction on their number. -/
theorem crcKnownValues : Obligations.CrcKnownValues := by
  refine ⟨rfl, fun n => ?zeros, crc16_checkValue⟩
  case zeros =>
    rw [crc16_eq_foldl]
    exact foldl_crcByte_zeros _ n

/-! ### `CRC16` (R145) -/

/-- The row of `CRC16`: `F1[0]` selects the buffer, `IMM` holds offset and count (30_encoding.md R110, R112). -/
theorem decode_crc16Word (f1 f2 f3 : Byte) (off n : BitVec 16) :
    decode (.host (hostWord 0x01 f1 f2 f3 (off ++ n))) = .ok (.crc16 (bufferOf f1) off n) := by
  simp [decode, decodeWord]

theorem bufSize_eq (buf : Buffer) : Config.bufSize buf = if buf = .txpay then 512 else 256 := by
  cases buf <;> rfl

theorem exec_crc16 (buf : Buffer) (off n : BitVec 16) (s : State) :
    exec (.crc16 buf off n) s = execCrc16 buf off n s := rfl

theorem execCrc16_refused {buf : Buffer} {off n : BitVec 16} {s : State} (hready : s.busy = false)
    (h : Config.bufSize buf < off.toNat + n.toNat) : execCrc16 buf off n s = .next (s.raise .bounds) := by
  rw [execCrc16, accept_ready hready, if_pos h]

theorem execCrc16_fits {buf : Buffer} {off n : BitVec 16} {s : State} (hready : s.busy = false)
    (h : off.toNat + n.toNat ≤ Config.bufSize buf) :
    execCrc16 buf off n s
      = .next { s.drawn with crcRes := crc16 (s.bytesAt buf off.toNat n.toNat), opRes := .ok } := by
  rw [execCrc16, accept_ready hready, if_neg (by omega)]

/-- A range whose bytes are all written reads as those bytes, with nothing drawn (20_memory.md R83, R84). -/
theorem State.bytesAt_of_get {s : State} {buf : Buffer} {a : Nat} {bs : List Byte}
    (h : ∀ i (hi : i < bs.length), (s.mem buf).get (a + i) = some bs[i]) : s.bytesAt buf a bs.length = bs :=
  readRange_eq fun i hi => State.byteAt_of_get (h i hi)

/-- Settles O10: the word by its fields, then one lemma for each side of the range check. -/
theorem crc16Range : Obligations.Crc16Range := by
  refine ⟨decode_crc16Word, fun buf off n s hready => ?_⟩
  rw [← bufSize_eq, exec_crc16]
  refine ⟨fun hpast => execCrc16_refused hready hpast, fun hfits => ⟨_, execCrc16_fits hready hfits, rfl, ?written⟩⟩
  case written =>
    intro bs hlength hbytes
    show crc16 (s.bytesAt buf off.toNat n.toNat) = crc16 bs
    rw [← hlength, State.bytesAt_of_get hbytes]

end Sys2Proof.Machine
end

section
/-! SUPPORT. The Binary Field Codec (41_field_codec.md R175 to R185): payload assembly at `TX_CUR` and reads of the
payload view at `RX_CUR`. -/

namespace Sys2Proof.Machine

/-! ### Accepted operations run their shared operation -/

section
variable {s : State} (hready : s.busy = false)
include hready

theorem exec_payReset : exec .payReset s = .next { s with txCur := 0, opRes := .ok } :=
  (accept_ready hready _ : execPayReset s = _)

/-- The one-byte appends: a boolean is stored as 1 or 0 (R161). -/
theorem exec_appendByte {i : Instr} {v : Byte}
    (hi : i = .appendU8 v ∨ (i = .appendBool true ∧ v = 1) ∨ (i = .appendBool false ∧ v = 0)) :
    exec i s = append [v] s := by
  rcases hi with rfl | ⟨rfl, rfl⟩ | ⟨rfl, rfl⟩
  · exact accept_ready hready _
  · exact accept_ready hready _
  · exact accept_ready hready _

/-- The four-byte appends: signed and unsigned store one pattern (R161). -/
theorem exec_appendWord {i : Instr} {v : Word32} (hi : i = .appendInt32 v ∨ i = .appendUint32 v) :
    exec i s = append (enc32 v) s := by
  rcases hi with rfl | rfl
  · exact accept_ready hready _
  · exact accept_ready hready _

theorem exec_rxSeek_refused {p : Byte} (h : s.rxValid = false ∨ p.toNat > s.rxLen.toNat) :
    exec (.rxSeek p) s = .next (s.raise .bounds) := by
  change execRxSeek p s = _
  rw [execRxSeek, accept_ready hready, if_pos h]

theorem exec_rxSeek_inside {p : Byte} (hvalid : s.rxValid = true) (h : p.toNat ≤ s.rxLen.toNat) :
    exec (.rxSeek p) s = .next { s with rxCur := p, opRes := .ok } := by
  change execRxSeek p s = _
  rw [execRxSeek, accept_ready hready, if_neg (by simp [hvalid, h])]

theorem exec_getU8 : exec .getU8 s = getField 1 decU8 1 s := accept_ready hready _

/-- The unscaled four-byte reads: signed and unsigned record one pattern (R167). -/
theorem exec_getWord {i : Instr} (hi : i = .getInt32 ∨ i = .getUint32) : exec i s = getField 4 dec32 1 s := by
  rcases hi with rfl | rfl
  · exact accept_ready hready _
  · exact accept_ready hready _

theorem exec_getFloat16 (scale : Word32) : exec (.getFloat16 scale) s = getScaled 2 decS16 scale s :=
  accept_ready hready _

theorem exec_getFloat32 (scale : Word32) : exec (.getFloat32 scale) s = getScaled 4 dec32 scale s :=
  accept_ready hready _

end

/-! ### The cursor law (R163) -/

theorem ofNat_toNat_add {k : Nat} (c : BitVec k) (n : Nat) : BitVec.ofNat k (c.toNat + n) = c + BitVec.ofNat k n := by
  rw [BitVec.ofNat_add, BitVec.ofNat_toNat, BitVec.setWidth_eq]

/-! ### Appends (R176 to R179) -/

/-- An append that fits stores its bytes from `TX_CUR` on, leaves every other byte of `TXPAY` and moves the cursor
behind them (20_memory.md R85). -/
theorem append_stores {bytes : List Byte} {s : State} (h : s.txCur.toNat + bytes.length ≤ Config.txCap) :
    ∃ t, append bytes s = .next t
      ∧ t = { s with txpay := t.txpay, txCur := s.txCur + BitVec.ofNat 16 bytes.length, opRes := .ok }
      ∧ (∀ i (hi : i < bytes.length), t.txpay.get (s.txCur.toNat + i) = some bytes[i])
      ∧ ∀ a, a < s.txCur.toNat ∨ s.txCur.toNat + bytes.length ≤ a → t.txpay.get a = s.txpay.get a := by
  refine ⟨_, append_fits h, ?cursor, fun i hi => ?stored, fun a ha => Memory.get_putAll_outside _ _ _ ha⟩
  case cursor => rw [ofNat_toNat_add]
  case stored =>
    rw [Memory.get_putAll, if_pos (by omega), Nat.add_sub_cancel_left, List.getElem?_eq_getElem hi]

/-- Settles O11: the accepted operation is the cursor's update. -/
theorem payResetMovesCursor : Obligations.PayResetMovesCursor := by
  refine ⟨fun f1 f2 f3 imm => ?word, fun s hready => exec_payReset hready⟩
  case word => simp [decode, decodeWord]

/-- Settles O12: each one-byte append runs `append` with its byte, on either side of `TXCAP`. -/
theorem appendByteStores : Obligations.AppendByteStores := by
  refine ⟨fun f1 f2 f3 imm => ?words, fun i v s hready hi => ?_⟩
  case words => simp [decode, decodeWord]
  rw [exec_appendByte hready hi]
  refine ⟨fun hfull => append_refused hfull, fun hfits => ?stores⟩
  case stores =>
    obtain ⟨t, hnext, hframe, hstored, hother⟩ := append_stores (bytes := [v]) hfits
    exact ⟨t, hnext, hframe, hstored 0 Nat.zero_lt_one, fun a ha => hother a (Nat.lt_or_gt_of_ne ha)⟩

/-- Settles O13: each four-byte append runs `append` with its value's big-endian bytes, on either side of `TXCAP`. -/
theorem appendWordStores : Obligations.AppendWordStores := by
  refine ⟨fun f1 f2 f3 imm => ?words, fun i v s hready hi => ?_⟩
  case words => simp [decode, decodeWord]
  rw [exec_appendWord hready hi]
  refine ⟨fun hfull => append_refused hfull, fun hfits => ?stores⟩
  case stores =>
    obtain ⟨t, hnext, hframe, hstored, hother⟩ := append_stores (bytes := enc32 v) hfits
    have hbyte (k : Fin 4) : t.txpay.get (s.txCur.toNat + k) = some (enc32 v)[k] := hstored k k.isLt
    exact ⟨t, hnext, hframe, hbyte 0, hbyte 1, hbyte 2, hbyte 3, hother⟩

/-! ### Reads of the payload view (R180 to R185) -/

/-- The bytes of the view from cursor `c` on, as the decoders take them: the first most significant (R162). -/
theorem decU8_view (s : State) (c : Nat) :
    decU8 (s.bytesAt .rxbuf (2 + c) 1) = (s.byteAt .rxbuf (2 + c)).zeroExtend 32 :=
  decU8_eq _

theorem decS16_view (s : State) (c : Nat) :
    decS16 (s.bytesAt .rxbuf (2 + c) 2) = (s.byteAt .rxbuf (2 + c) ++ s.byteAt .rxbuf (3 + c)).signExtend 32 := by
  rw [show 3 + c = 2 + c + 1 by omega]
  exact decS16_eq _ _

theorem dec32_view (s : State) (c : Nat) :
    dec32 (s.bytesAt .rxbuf (2 + c) 4) = s.byteAt .rxbuf (2 + c) ++ s.byteAt .rxbuf (3 + c)
      ++ s.byteAt .rxbuf (4 + c) ++ s.byteAt .rxbuf (5 + c) := by
  rw [show 3 + c = 2 + c + 1 by omega, show 4 + c = 2 + c + 2 by omega, show 5 + c = 2 + c + 3 by omega]
  exact dec32_eq _ _ _ _

/-- A read inside the view records the decoded value with its scale and moves the cursor behind the bytes it took. -/
theorem getField_reads {w : Nat} {dec : List Byte → Word32} {scale v : Word32} {s : State}
    (hv : s.rxValid = true) (h : s.rxCur.toNat + w ≤ s.rxLen.toNat) (hl : s.rxLen.toNat ≤ 251)
    (hdec : dec (s.bytesAt .rxbuf (2 + s.rxCur.toNat) w) = v) :
    getField w dec scale s = .next { s with
      getRes := v, getScale := scale, rxCur := s.rxCur + BitVec.ofNat 8 w, opRes := .ok } := by
  rw [getField_ok hv h hl, hdec, ofNat_toNat_add]

/-- Past the view a scaled read is refused like any other, once its scale has passed (R375). -/
theorem getScaled_refused {w : Nat} {dec : List Byte → Word32} {scale : Word32} {s : State} (hscale : scale ≠ 0)
    (h : s.rxValid = false ∨ s.rxLen.toNat < s.rxCur.toNat + w) :
    getScaled w dec scale s = .next (s.raise .bounds) :=
  (getScaled_nonzero s hscale).trans (getField_refused h)

theorem getScaled_reads {w : Nat} {dec : List Byte → Word32} {scale v : Word32} {s : State} (hscale : scale ≠ 0)
    (hv : s.rxValid = true) (h : s.rxCur.toNat + w ≤ s.rxLen.toNat) (hl : s.rxLen.toNat ≤ 251)
    (hdec : dec (s.bytesAt .rxbuf (2 + s.rxCur.toNat) w) = v) :
    getScaled w dec scale s = .next { s with
      getRes := v, getScale := scale, rxCur := s.rxCur + BitVec.ofNat 8 w, opRes := .ok } :=
  (getScaled_nonzero s hscale).trans (getField_reads hv h hl hdec)

/-- Settles O14: the two sides of the position check. -/
theorem rxSeekSetsCursor : Obligations.RxSeekSetsCursor := by
  refine ⟨fun f1 f2 f3 imm => ?word, fun p s hready => ⟨fun hpast => exec_rxSeek_refused hready hpast, ?inside⟩⟩
  case word => simp [decode, decodeWord]
  case inside =>
    rintro ⟨hvalid, hin⟩
    exact exec_rxSeek_inside hready hvalid hin

/-- Settles O15: each unscaled read is `getField` at its width with scale 1, on either side of the view's end. -/
theorem integerReads : Obligations.IntegerReads := by
  refine ⟨fun f1 f2 f3 imm => ?words, fun s hready hlen => ?_⟩
  case words => simp [decode, decodeWord]
  rw [exec_getU8 hready]
  refine ⟨getField_refused, fun hvalid hin => getField_reads hvalid hin hlen (decU8_view s _), fun i hi => ?four⟩
  case four =>
    rw [exec_getWord hready hi]
    exact ⟨getField_refused, fun hvalid hin => getField_reads hvalid hin hlen (dec32_view s _)⟩

/-- Settles O16: the scale check before the bounds check, then two bytes; sign extension keeps the signed value. -/
theorem getFloat16Reads : Obligations.GetFloat16Reads := by
  refine ⟨fun f1 f2 f3 imm => ?word, fun scale s hready hlen => ?_⟩
  case word => simp [decode, decodeWord]
  rw [exec_getFloat16 hready]
  refine ⟨?zero, getScaled_refused, fun hscale hvalid hin => ⟨?inside, ?reading⟩⟩
  case zero =>
    rintro rfl
    exact getScaled_zero _ _ s
  case inside => exact getScaled_reads hscale hvalid hin hlen (decS16_view s _)
  case reading => rw [State.reading, BitVec.toInt_signExtend_of_le (by decide)]

/-- Settles O17: the scale check before the bounds check, then four bytes. -/
theorem getFloat32Reads : Obligations.GetFloat32Reads := by
  refine ⟨fun f1 f2 f3 imm => ?word, fun scale s hready hlen => ?_⟩
  case word => simp [decode, decodeWord]
  rw [exec_getFloat32 hready]
  refine ⟨?zero, getScaled_refused, fun hscale hvalid hin => ?inside⟩
  case zero =>
    rintro rfl
    exact getScaled_zero _ _ s
  case inside => exact getScaled_reads hscale hvalid hin hlen (dec32_view s _)

end Sys2Proof.Machine
end

section
/-! SUPPORT. The Frame Codec (42_frame_codec.md R200 to R209): the bytes of an encoded frame by their place, which bytes
`FrameDecode` looks at and what one flipped bit does to its verdict, and what `FRAME_SEND` and `FRAME_CHECK` answer. -/

namespace Sys2Proof.Machine

/-! ### The two forms (R200) -/

theorem length_longFrame (p : List Byte) : (longFrame p).length = p.length + 6 := by
  simp [longFrame, frameTail]

/-- The two length bytes of the long form are the halves of the 16-bit length (30_encoding.md R101). -/
theorem longFrame_eq (p : List Byte) :
    longFrame p = [Config.startLong, (BitVec.ofNat 16 p.length).extractLsb' 8 8,
      (BitVec.ofNat 16 p.length).extractLsb' 0 8] ++ p ++ frameTail p := by
  have hhigh : (BitVec.ofNat 16 p.length).extractLsb' 8 8 = BitVec.ofNat 8 (p.length / 256) := by
    refine BitVec.eq_of_toNat_eq ?_
    simp [Nat.shiftRight_eq_div_pow]
    omega
  have hlow : (BitVec.ofNat 16 p.length).extractLsb' 0 8 = BitVec.ofNat 8 p.length := by
    refine BitVec.eq_of_toNat_eq ?_
    simp
  rw [hhigh, hlow, longFrame]

/-- Settles O18: a length of 255 or less selects the short form, any other one the long form. -/
theorem frameEncodeForms : Obligations.FrameEncodeForms := by
  refine fun p => ⟨fun hshort => ?short, fun hlow _ => ?long⟩
  case short =>
    rw [frameEncode_short hshort]
    exact ⟨rfl, length_shortFrame p⟩
  case long =>
    rw [frameEncode_long hlow]
    exact ⟨longFrame_eq p, length_longFrame p⟩

/-! ### The bytes of a short frame by their place (R200) -/

/-- Byte `i` of the frame of `p`. -/
def frameByte (p : List Byte) (i : Nat) : Byte := (frameEncode p).getD i 0

section
variable {p : List Byte} (hp : p.length ≤ 255)
include hp

theorem toNat_frameByte_one : (frameByte p 1).toNat = p.length := by
  have hbyte : frameByte p 1 = BitVec.ofNat 8 p.length := by rw [frameByte, frameEncode_short hp]; rfl
  rw [hbyte, BitVec.toNat_ofNat]
  omega

theorem readRange_frameByte : readRange (frameByte p) 2 p.length = p := by
  refine readRange_eq fun i hi => ?_
  rw [frameByte, frameEncode_short hp]
  simp [shortFrame, Nat.add_comm 2 i, List.getElem?_append_left hi, List.getElem?_eq_getElem hi]

theorem frameByte_crc : frameByte p (p.length + 2) ++ frameByte p (p.length + 3) = crc16 p := by
  have hhi : frameByte p (p.length + 2) = (crc16 p).extractLsb' 8 8 := by
    rw [frameByte, frameEncode_short hp]
    simp [shortFrame, frameTail]
  have hlo : frameByte p (p.length + 3) = (crc16 p).extractLsb' 0 8 := by
    rw [frameByte, frameEncode_short hp]
    simp [shortFrame, frameTail]
  rw [hhi, hlo, extract_append]

end

/-! ### What `FrameDecode` looks at (R204, R206) -/

/-- `FrameDecode` by the places of a short frame with `n` payload bytes. -/
theorem frameDecode_eq {get : Nat → Byte} {n : Nat} (hlen : (get 1).toNat = n) :
    frameDecode get (n + 5)
      = (decide (get (n + 2) ++ get (n + 3) = crc16 (readRange get 2 n)), readRange get 2 n) := by
  simp [frameDecode, hlen]

/-- Acceptance in the terms of a frame's whole length `n` (R204). -/
theorem frameDecode_accepts_iff {get : Nat → Byte} {n : Nat} (hlen : (get 1).toNat + 5 = n) :
    (frameDecode get n).1 = true ↔ get (n - 3) ++ get (n - 2) = crc16 (readRange get 2 (n - 5)) := by
  subst hlen
  simp [frameDecode]

/-- Neither marker is read: the bytes between them decide (R206). -/
theorem frameDecode_congr {get get' : Nat → Byte} {n : Nat} (hlen : (get 1).toNat = n)
    (h : ∀ i, 1 ≤ i → i < n + 4 → get' i = get i) : frameDecode get' (n + 5) = frameDecode get (n + 5) := by
  have hlen' : (get' 1).toNat = n := by rw [h 1 (by omega) (by omega), hlen]
  have hview : readRange get' 2 n = readRange get 2 n :=
    readRange_congr fun i hi => h (2 + i) (by omega) (by omega)
  rw [frameDecode_eq hlen, frameDecode_eq hlen', hview, h (n + 2) (by omega) (by omega),
    h (n + 3) (by omega) (by omega)]

/-- Settles O19: the length byte selects the payload, and the two bytes behind it are its CRC. -/
theorem frameRoundTrip : Obligations.FrameRoundTrip := by
  intro p hp
  change frameDecode (frameByte p) (p.length + 5) = (true, p)
  rw [frameDecode_eq (toNat_frameByte_one hp), readRange_frameByte hp, decide_eq_true (frameByte_crc hp)]

/-! ### One flipped bit (R209) -/

/-- The bytes of `get` with bit `k` of byte `j` flipped. -/
def flipBit (get : Nat → Byte) (j : Nat) (k : Fin 8) (i : Nat) : Byte :=
  if i = j then get i ^^^ (1#8 <<< k.val) else get i

theorem flipBit_same (get : Nat → Byte) (j : Nat) (k : Fin 8) : flipBit get j k j = get j ^^^ (1#8 <<< k.val) :=
  if_pos rfl

theorem flipBit_other {i j : Nat} (get : Nat → Byte) (k : Fin 8) (h : i ≠ j) : flipBit get j k i = get i :=
  if_neg h

/-- A range around one of its bytes. -/
theorem readRange_around (get : Nat → Byte) (a m r : Nat) :
    readRange get a (m + (1 + r)) = readRange get a m ++ get (a + m) :: readRange get (a + m + 1) r := by
  rw [readRange_append, readRange_append]
  rfl

/-- A flipped bit inside a range changes its CRC (40_crc.md R143). -/
theorem crc16_flipBit_ne (get : Nat → Byte) {a n j : Nat} (k : Fin 8) (hlow : a ≤ j) (hhigh : j < a + n) :
    crc16 (readRange get a n) ≠ crc16 (readRange (flipBit get j k) a n) := by
  obtain ⟨m, rfl⟩ := Nat.exists_eq_add_of_le hlow
  obtain ⟨r, rfl⟩ : ∃ r, n = m + (1 + r) := ⟨n - m - 1, by omega⟩
  have hbefore : readRange (flipBit get (a + m) k) a m = readRange get a m :=
    readRange_congr fun i hi => flipBit_other get k (by omega)
  have hafter : readRange (flipBit get (a + m) k) (a + m + 1) r = readRange get (a + m + 1) r :=
    readRange_congr fun i hi => flipBit_other get k (by omega)
  rw [readRange_around, readRange_around, hbefore, hafter, flipBit_same]
  exact crcDetectsSingleBit Config.crc _ _ _ k (by decide) rfl rfl

theorem append_bytes_inj {a b c d : Byte} (h : (a ++ b : BitVec 16) = c ++ d) : a = c ∧ b = d :=
  ⟨by rw [← extract_hi a b, h, extract_hi], by rw [← extract_lo a b, h, extract_lo]⟩

/-- A flipped bit in either of two bytes changes the word that they make. -/
theorem append_flipBit_ne (get : Nat → Byte) {a j : Nat} (k : Fin 8) (hj : j = a ∨ j = a + 1) :
    flipBit get j k a ++ flipBit get j k (a + 1) ≠ (get a ++ get (a + 1) : BitVec 16) := by
  intro h
  obtain ⟨hfirst, hsecond⟩ := append_bytes_inj h
  rcases hj with rfl | rfl
  · exact xor_bit_ne _ k ((flipBit_same get _ k).symm.trans hfirst)
  · exact xor_bit_ne _ k ((flipBit_same get _ k).symm.trans hsecond)

section
variable {get : Nat → Byte} {n j : Nat} (hlen : (get 1).toNat = n) (k : Fin 8)
include hlen

/-- A bit flipped in the payload changes the computed CRC, one in the CRC bytes the embedded one: never both. -/
theorem frameDecode_flipBit_refuses (haccepts : (frameDecode get (n + 5)).1 = true) (hlow : 2 ≤ j)
    (hhigh : j < n + 4) : (frameDecode (flipBit get j k) (n + 5)).1 = false := by
  have hlen' : (flipBit get j k 1).toNat = n := by rw [flipBit_other get k (by omega), hlen]
  rw [frameDecode_eq hlen, decide_eq_true_iff] at haccepts
  rw [frameDecode_eq hlen', decide_eq_false_iff_not]
  by_cases hpayload : j < 2 + n
  · rw [flipBit_other get k (by omega), flipBit_other get k (by omega), haccepts]
    exact crc16_flipBit_ne get k hlow hpayload
  · have hview : readRange (flipBit get j k) 2 n = readRange get 2 n :=
      readRange_congr fun i hi => flipBit_other get k (by omega)
    rw [hview, ← haccepts]
    exact append_flipBit_ne get k (by omega)

theorem frameDecode_flipBit_marker (hj : j = 0 ∨ j = n + 4) :
    frameDecode (flipBit get j k) (n + 5) = frameDecode get (n + 5) :=
  frameDecode_congr hlen fun _ hlow hhigh => flipBit_other get k (by omega)

end

/-- Settles O20: the frame as encoded is accepted; the flipped bit lies between the markers or in one of them. -/
theorem frameDetectsFlippedBit : Obligations.FrameDetectsFlippedBit := by
  intro p j k hp _ _
  have hlen := toNat_frameByte_one hp
  have haccepts : (frameDecode (frameByte p) (p.length + 5)).1 = true := congrArg Prod.fst (frameRoundTrip p hp)
  refine ⟨fun ⟨hlow, hhigh⟩ => ?between, fun hmarker => ?marker⟩
  case between => exact frameDecode_flipBit_refuses hlen k haccepts hlow hhigh
  case marker => exact (congrArg Prod.fst (frameDecode_flipBit_marker hlen k hmarker)).trans haccepts

/-! ### `FRAME_SEND` (R201) -/

/-- An accepted `FRAME_SEND` emits the frame of what `TXPAY` holds below the cursor. -/
theorem exec_frameSend {s : State} (hready : s.busy = false) (hcursor : s.txCur.toNat ≤ Config.txCap) :
    exec .frameSend s = .next ((emitFrame (frameEncode s.txPayload) s).withRes .ok) := by
  change execFrameSend s = _
  rw [execFrameSend, accept_ready hready, within_ok]
  rwa [Nat.zero_add]

/-- A payload that has been written whole is what `FRAME_SEND` reads (20_memory.md R83). -/
theorem State.txPayload_of_get {s : State} {p : List Byte} (hlength : p.length = s.txCur.toNat)
    (hbytes : ∀ i (h : i < p.length), s.txpay.get i = some p[i]) : s.txPayload = p := by
  rw [State.txPayload, ← hlength]
  refine State.bytesAt_of_get fun i hi => ?_
  rw [Nat.zero_add]
  exact hbytes i hi

/-- Settles O21: the emission of a frame writes the port, the count and the log alone. -/
theorem frameSendEmits : Obligations.FrameSendEmits := by
  refine ⟨fun f1 f2 f3 imm => ?word, fun p s hready hcursor hlength hbytes => ?emits⟩
  case word => simp [decode, decodeWord]
  case emits =>
    rw [exec_frameSend hready hcursor, State.txPayload_of_get hlength hbytes, emitFrame_eq]
    rfl

/-! ### `FRAME_CHECK` (R205) -/

/-- The result code of `FRAME_CHECK n`. -/
def State.frameVerdict (s : State) (n : Nat) : ResultCode :=
  if n < 5 ∨ n > 256 then .format
  else if (s.receivedByte 1).toNat + 5 ≠ n then .format
  else if (frameDecode s.receivedByte n).1 then .ok else .crcFail

/-- An accepted `FRAME_CHECK` writes its verdict; all else it may move is the draw counter. -/
theorem exec_frameCheck {s : State} (hready : s.busy = false) (n : Word32) :
    ∃ d, exec (.frameCheck n) s = .next { s with opRes := s.frameVerdict n.toNat, draws := d } := by
  change ∃ d, execFrameCheck n s = _
  rw [execFrameCheck, accept_ready hready, State.frameVerdict]
  by_cases houtside : n.toNat < 5 ∨ n.toNat > 256
  · exact ⟨s.draws, by rw [if_pos houtside, if_pos houtside]; rfl⟩
  · refine ⟨s.draws + 1, ?_⟩
    rw [if_neg houtside, if_neg houtside]
    split <;> rfl

section
variable {s : State} {n : Nat}

theorem State.frameVerdict_mem (s : State) (n : Nat) :
    s.frameVerdict n ∈ [ResultCode.format, .ok, .crcFail] := by
  unfold State.frameVerdict
  split_ifs <;> decide

theorem State.frameVerdict_outside (h : n < 5 ∨ n > 256) : s.frameVerdict n = .format := if_pos h

theorem State.rxCnt_le_receivedExtent (s : State) : s.rxCnt.toNat ≤ s.receivedExtent := by
  unfold State.receivedExtent
  split
  · exact Nat.le_max_right _ _
  · exact Nat.le_refl _

/-- A byte below `RX_CNT` is the stored one. -/
theorem State.receivedByte_of_lt {a : Nat} (h : a < s.rxCnt.toNat) : s.receivedByte a = s.byteAt .rxbuf a :=
  if_pos (Nat.lt_of_lt_of_le h s.rxCnt_le_receivedExtent)

theorem State.frameVerdict_undeclared (hcnt : 2 ≤ s.rxCnt.toNat) (hlen : (s.byteAt .rxbuf 1).toNat + 5 ≠ n) :
    s.frameVerdict n = .format := by
  rw [← State.receivedByte_of_lt hcnt] at hlen
  rw [State.frameVerdict, if_pos hlen, ite_self]

/-- Over `n` received bytes the verdict is `FrameDecode`'s on what `RXBUF` holds. -/
theorem State.frameVerdict_received (hlow : 5 ≤ n) (hhigh : n ≤ 256) (hcnt : n ≤ s.rxCnt.toNat)
    (hlen : (s.byteAt .rxbuf 1).toNat + 5 = n) :
    s.frameVerdict n = if (frameDecode (s.byteAt .rxbuf) n).1 then .ok else .crcFail := by
  have hlen' : (s.receivedByte 1).toNat + 5 = n := by rw [State.receivedByte_of_lt (by omega), hlen]
  have hdecode : frameDecode s.receivedByte n = frameDecode (s.byteAt .rxbuf) n := by
    subst hlen
    exact frameDecode_congr rfl fun i _ hi => State.receivedByte_of_lt (by omega)
  rw [State.frameVerdict, if_neg (by omega), if_neg (not_not.2 hlen'), hdecode]

end

/-- Settles O22: the checks of `FRAME_CHECK` in their order, on bytes that the current receive has stored. -/
theorem frameCheckVerdict : Obligations.FrameCheckVerdict := by
  refine ⟨fun f1 f2 f3 imm => ?word, fun n s hready => ?_⟩
  case word => simp [decode, decodeWord]
  obtain ⟨d, hexec⟩ := exec_frameCheck hready n
  refine ⟨_, hexec, rfl, s.frameVerdict_mem _, State.frameVerdict_outside,
    fun _ _ => State.frameVerdict_undeclared, fun hlow hhigh hcnt hlen => ?verdict⟩
  case verdict =>
    rw [State.frameVerdict_received hlow hhigh hcnt hlen]
    exact if_congr (frameDecode_accepts_iff hlen) rfl rfl

end Sys2Proof.Machine
end

section
/-! SUPPORT. How a receive starts (43_receiver.md R239, R245, R250), how it ends in each operation (R241), what the
deadline and an empty queue do to it (R238, R240, R252), and what stays of one that has ended (R253). -/

namespace Sys2Proof.Machine

/-! ### The start of a receive (R239) -/

/-- Settles O23: the accepted issue is `RxStart` behind the operation's selector. -/
theorem recvBlockingStarts : Obligations.RecvBlockingStarts := by
  refine ⟨fun f1 f2 f3 imm => ?word, fun t s hready => ?starts⟩
  case word => simp [decode, decodeWord]
  case starts => exact (accept_ready hready _ : execRecvBlocking t s = _)

/-- Settles O24: the accepted operation is `RxStart` behind the hint; its mode leaves `BUSY`. -/
theorem armStarts : Obligations.ArmStarts := by
  refine ⟨fun f1 f2 f3 high h => ?word, fun h s hready => ?starts⟩
  case word => simp [decode, decodeWord]
  case starts => exact (accept_ready hready _ : execArm h s = _)

/-! ### The end of a receive in each operation (R241) -/

/-- A receive that an operation waits for: an armed one, or the blocking one of `RECV_BLOCKING` or of a query. -/
def State.InOperation (s : State) : Prop :=
  s.rxMode = .armed
    ∨ (s.rxMode = .blocking ∧ (s.opCur = 0x30 ∨ s.opCur = 0x50 ∨ s.opCur = 0x51 ∨ s.opCur = 0x52))

section
variable {s : State} (rc : ResultCode)

/-- The end of an armed receive writes no register of an operation. -/
theorem receiveEnded_armed (hm : s.rxMode = .armed) : receiveEnded rc s = s := by
  rw [receiveEnded, hm]

theorem receiveEnded_recvBlocking (hm : s.rxMode = .blocking) (hop : s.opCur = 0x30) :
    receiveEnded rc s = { s with opRes := rc, rxMode := .idle, busy := false, opCur := 0 } := by
  rw [receiveEnded, hm]
  exact if_pos hop

theorem receiveEnded_query (hm : s.rxMode = .blocking) (hop : s.opCur = 0x50 ∨ s.opCur = 0x51 ∨ s.opCur = 0x52) :
    receiveEnded rc s = { s with
      reqResult := rc, reqState := .done, opRes := rc, rxMode := .idle, busy := false, opCur := 0 } := by
  have hne : s.opCur ≠ 0x30 := by rcases hop with h | h | h <;> rw [h] <;> decide
  rw [receiveEnded, hm]
  exact if_neg hne

end

/-- An armed receive only ends (R241). -/
theorem finish_of_armed {s : State} (hm : s.rxMode = .armed) (rc : ResultCode) :
    finish rc s = .next (endReceive rc s) :=
  finish_armed (by rw [hm]; exact nofun) rc

/-- `RECV_BLOCKING` reports any result of its receive (R245). -/
theorem finish_recvBlocking {s : State} (hm : s.rxMode = .blocking) (hop : s.opCur = 0x30) (rc : ResultCode) :
    finish rc s = .next (receiveEnded rc (endReceive rc s)) := by
  have hreport : completeOp rc (endReceive rc s).receiverIdle
      = .next ((endReceive rc s).receiverIdle.withRes (endReceive rc s).rxResult) :=
    if_pos ((endReceive_opCur rc s).trans hop)
  rw [finish_blocking hm, hreport, endReceive_rxResult,
    receiveEnded_recvBlocking rc ((endReceive_rxMode rc s).trans hm) ((endReceive_opCur rc s).trans hop)]
  rfl

/-- Only a query's verified frame asks for more than the report of the receive's result (R241). -/
theorem finish_reports {s : State} {rc : ResultCode} (hop : s.InOperation)
    (h : rc ≠ .ok ∨ s.rxMode = .armed ∨ s.opCur = 0x30) :
    finish rc s = .next (receiveEnded rc (endReceive rc s)) := by
  rcases hop with hm | ⟨hm, hop⟩
  · rw [finish_of_armed hm, receiveEnded_armed rc ((endReceive_rxMode rc s).trans hm)]
  · rcases h with hrc | harmed | h30
    · exact finish_blocking_failed hrc hm hop
    · rw [hm] at harmed
      cases harmed
    · exact finish_recvBlocking hm h30 rc

/-- A verified frame is decoded for the query that waits for it (44_command_dispatch.md R340). -/
theorem finish_ok_query {s : State} {expected : Byte} (hm : s.rxMode = .blocking)
    (hexpects : queryExpects s.opCur expected) (hfits : s.rxDecl.toNat ≤ 251) :
    finish .ok s = .next (queryAnswered expected
      (decodeSite (s.bytesAt .rxbuf 2 s.rxDecl.toNat) (endReceive .ok s).receiverIdle)) := by
  obtain ⟨c, hc, hcomplete⟩ := completeOp_query (s := (endReceive .ok s).receiverIdle) hexpects .ok
  have hview : 2 + (endReceive .ok s).receiverIdle.rxLen.toNat ≤ Config.bufSize .rxbuf := by
    change 2 + s.rxDecl.toNat ≤ 256
    omega
  rw [finish_blocking hm, hcomplete, completeRequest_ok hview rfl c, hc]
  rfl

/-! ### The deadline, and a queue without a byte (R238, R240, R252) -/

/-- A `POLL` whose first step ends the receive without a frame reports the receive's result (R251). -/
theorem pollDrive_failed {s u : State} {rc : ResultCode} (hstep : rxStep s = finish rc u) (hm : u.rxMode = .armed)
    (hnone : rc ≠ .none) (hok : rc ≠ .ok) : pollDrive s = .next ((endReceive rc u).withRes rc) := by
  obtain ⟨k, hk⟩ : ∃ k, max s.rxQueue.length 1 = k + 1 := ⟨max s.rxQueue.length 1 - 1, by omega⟩
  rw [pollDrive, hk, rxSteps_of_finish hstep hnone, finish_of_armed hm, andThen_next, endReceive_rxResult, if_neg hok]

/-- A `POLL` behind the deadline ends the receive and decodes nothing (R240). -/
theorem exec_poll_expired {s : State} (hready : s.busy = false) (hm : s.rxMode = .armed)
    (hnone : s.rxResult = .none) (he : expired s = true) :
    exec .poll s = .next { s with
      rxResult := .timeout, opRes := .timeout, diagLog := (s.diag .timeout).diagLog } :=
  (execPoll_armed hready hm hnone).trans (pollDrive_failed (rxStep_expired he) hm nofun nofun)

/-- The engine's turn behind the deadline ends the blocking receive and reports it (R238, R340). -/
theorem engineTurn_expired {s : State} (hbusy : s.busy = true) (hnone : s.rxResult = .none) (he : expired s = true)
    (hm : s.rxMode = .blocking) (hop : s.opCur = 0x30 ∨ s.opCur = 0x50 ∨ s.opCur = 0x51 ∨ s.opCur = 0x52) :
    engineTurn s = .next (receiveEnded .timeout
      { s with rxResult := .timeout, diagLog := (s.diag .timeout).diagLog }) := by
  have hr : receiving s = true := receiving_iff.2 ⟨by rw [hm]; exact nofun, hnone⟩
  rw [engineTurn_receiving hbusy hr, rxStep_expired he]
  exact finish_reports (s := s.diag .timeout) (.inr ⟨hm, hop⟩) (.inl nofun)

/-- Settles O25: `POLL` and the engine's turn both test the deadline before the queue. -/
theorem deadlineFirst : Obligations.DeadlineFirst := by
  intro s hdeadline hnone
  have he : expired s = true := decide_eq_true hdeadline
  refine ⟨fun hready hm => exec_poll_expired hready hm hnone he, fun hbusy hm hop => ?recv, fun hbusy hm hop => ?query⟩
  case recv =>
    rw [engineTurn_expired hbusy hnone he hm (.inl hop)]
    exact congrArg _ (receiveEnded_recvBlocking _ hm hop)
  case query =>
    rw [engineTurn_expired hbusy hnone he hm (.inr hop)]
    exact congrArg _ (receiveEnded_query _ hm hop)

/-- With no byte waiting `POLL` takes one step, which waits (R251). -/
theorem pollDrive_empty {s : State} (hnone : s.rxResult = .none) (hq : s.rxQueue = []) (he : expired s = false) :
    pollDrive s = .next (s.withRes .none) := by
  have hstep : rxSteps 1 s = .next s := (rxSteps_of_next (rxStep_empty he hq) hnone).trans (rxSteps_zero s)
  have hone : max s.rxQueue.length 1 = 1 := by rw [hq]; rfl
  rw [pollDrive, hone, hstep, andThen_next, hnone, if_neg nofun]

/-- Settles O29: the one step of the `POLL` waits before the deadline and ends the receive behind it. -/
theorem pollWithoutBytes : Obligations.PollWithoutBytes := by
  intro s hready hm hnone hq
  refine ⟨fun he => ?waits, fun he => exec_poll_expired hready hm hnone he⟩
  case waits => exact (execPoll_armed hready hm hnone).trans (pollDrive_empty hnone hq he)

/-! ### A receive that has ended (R253) -/

theorem exec_poll_notArmed {s : State} (hready : s.busy = false) (hm : s.rxMode ≠ .armed) :
    exec .poll s = .next { s with opRes := .notArmed } := by
  change execPoll s = _
  rw [execPoll, accept_ready hready, if_pos hm]
  rfl

theorem exec_poll_ended {s : State} (hready : s.busy = false) (hm : s.rxMode = .armed) (hend : s.rxResult ≠ .none) :
    exec .poll s = .next { s with opRes := s.rxResult } := by
  change execPoll s = _
  rw [execPoll, accept_ready hready, if_neg (not_not.2 hm), if_pos hend]
  rfl

/-- The armed receive that ended with `rc` holds its mode and its result. -/
def HoldsEnded (rc : ResultCode) (s : State) : Prop := s.rxMode = .armed ∧ s.rxResult = rc

/-- The operations that start a receive (R239). -/
def startsReceive : Instr → Bool
  | .recvBlocking _ | .arm _ | .reqFwVersion _ | .reqValues _ | .reqValuesSel .. => true
  | _ => false

section
variable {rc : ResultCode} {s : State}

theorem HoldsEnded.not_receiving (h : HoldsEnded rc s) (hrc : rc ≠ .none) : receiving s = false := by
  obtain ⟨-, hresult⟩ := h
  rw [← Bool.not_eq_true, receiving_iff, hresult]
  exact fun hr => hrc hr.2

theorem HoldsEnded.raise (h : HoldsEnded rc s) (e : ErrFlag) : HoldsEnded rc (s.raise e) := by
  cases e <;> exact h

theorem accept_ended {f : State → Res} (h : HoldsEnded rc s) (hf : Answers (f s) (HoldsEnded rc)) :
    Answers (accept s f) (HoldsEnded rc) :=
  .accept h hf

theorem append_ended (bytes : List Byte) (h : HoldsEnded rc s) : Answers (append bytes s) (HoldsEnded rc) :=
  .ite (.next (h.raise _)) (.next h)

theorem getField_ended (w : Nat) (dec : List Byte → Word32) (scale : Word32) (h : HoldsEnded rc s) :
    Answers (getField w dec scale s) (HoldsEnded rc) :=
  .ite (.next (h.raise _)) (.within (.next h))

theorem decodeView_ended (h : HoldsEnded rc s) : Answers (decodeView s) (HoldsEnded rc) := by
  refine .within (.next ?_)
  obtain ⟨d, hd, -, -⟩ := decodeSite_cases s.view s
  rw [hd]
  exact h

theorem getScaled_ended (w : Nat) (dec : List Byte → Word32) (scale : Word32) (h : HoldsEnded rc s) :
    Answers (getScaled w dec scale s) (HoldsEnded rc) :=
  .ite (.next (h.raise _)) (getField_ended w dec scale h)

/-- `POLL` takes no step of a receive that has ended. -/
theorem execPoll_ended (hrc : rc ≠ .none) (h : HoldsEnded rc s) : Answers (execPoll s) (HoldsEnded rc) :=
  accept_ended h (.ite (.next h) (.ite_of (fun _ => .next h) fun hnone => absurd (h.2 ▸ not_not.1 hnone) hrc))

theorem requestOnly_ended (sel : Byte) (c : Command) (can : Byte) (h : HoldsEnded rc s) :
    Answers (requestOnly sel c can s) (HoldsEnded rc) := by
  have hsent : HoldsEnded rc (requestSend sel c can s) := h
  exact accept_ended h (.next hsent)

/-- A host operation that starts no receive keeps the result of the one that has ended. -/
theorem exec_ended {i : Instr} {v : OpWord} (hi : encode i = .host v) (hstart : startsReceive i = false)
    (hrc : rc ≠ .none) (h : HoldsEnded rc s) : Answers (exec i s) (HoldsEnded rc) := by
  cases i with
  | crc16 buf off n => exact (accept_ended h (.ite (.next (h.raise _)) (.next h)) : Answers (execCrc16 buf off n s) _)
  | payReset => exact (accept_ended h (.next h) : Answers (execPayReset s) _)
  | appendU8 | appendBool | appendInt32 | appendUint32 => exact accept_ended h (append_ended _ h)
  | rxSeek p => exact (accept_ended h (.ite (.next (h.raise _)) (.next h)) : Answers (execRxSeek p s) _)
  | getU8 | getInt32 | getUint32 => exact accept_ended h (getField_ended _ _ _ h)
  | getFloat16 | getFloat32 => exact accept_ended h (getScaled_ended _ _ _ h)
  | frameSend => exact (accept_ended h (.within (.next h)) : Answers (execFrameSend s) _)
  | frameCheck n => exact (accept_ended h (.ite (.next h) (.ite (.next h) (.next h))) : Answers (execFrameCheck n s) _)
  | poll => exact execPoll_ended hrc h
  | decodePayload => exact (accept_ended h (.ite (.next (h.raise _)) (decodeView_ended h)) : Answers (execDecodePayload s) _)
  | auxWrite x y lower upper => exact (accept_ended h (.next h) : Answers (execAuxWrite x y lower upper s) _)
  | cfgTimeout t => exact (accept_ended h (.next h) : Answers (execCfgTimeout t s) _)
  | clrErr => exact (accept_ended h (.next h) : Answers (execClrErr s) _)
  | setCurrent | setCurrentBrake | setRpm | setPos | setDuty | setAux | sendAlive =>
    exact requestOnly_ended _ _ _ h
  | recvBlocking | arm | reqFwVersion | reqValues | reqValuesSel => cases hstart
  | commFwVersion | commGetValues | commSetDuty | commSetCurrent | commSetCurrentBrake | commSetRpm | commSetPos
  | commAlive | commForwardCan | commSetChuckData | commGetValuesSelective =>
    exact absurd hi (encodeWire_ne_host _ _ _ v)
  | frameShort w | frameLong w => cases w <;> cases hi

/-- The words that start a receive (30_encoding.md R110). -/
theorem wordSel_of_startsReceive {w : OpWord} {i : Instr} (hd : decodeWord w = .ok i)
    (hi : startsReceive i = true) : wordSel w ∈ [0x30, 0x31, 0x50, 0x51, 0x52] := by
  have hsel : wordSel w = BitVec.ofNat 8 (wordSel w).toNat := by simp
  unfold decodeWord at hd
  split at hd <;> cases hd <;> cases hi <;> rw [hsel, ‹(wordSel w).toNat = _›] <;> decide

theorem issueWord_ended {w : OpWord} (hw : wordSel w ∉ [0x30, 0x31, 0x50, 0x51, 0x52]) (hrc : rc ≠ .none)
    (h : HoldsEnded rc s) : Answers (issueWord w s) (HoldsEnded rc) := by
  cases hd : decode (.host w) with
  | ok i =>
    obtain ⟨v, hv⟩ := encode_of_decodeWord hd
    have hstart : startsReceive i = false :=
      Bool.not_eq_true _ ▸ fun hi => hw (wordSel_of_startsReceive hd hi)
    rw [issueWord, hd]
    exact exec_ended hv hstart hrc h
  | error e =>
    rw [issueWord, hd]
    exact accept_ended h (.next (h.raise _))

/-- A move that is no reset and no word that starts a receive keeps the result of the one that has ended. -/
theorem agentMove_ended {ev : Event} (hreset : ev ≠ .reset)
    (hop : ∀ w, ev = .op w → wordSel w ∉ [0x30, 0x31, 0x50, 0x51, 0x52]) (hrc : rc ≠ .none)
    (h : HoldsEnded rc s) : Answers (agentMove ev s) (HoldsEnded rc) := by
  cases ev with
  | op w => exact issueWord_ended (hop w rfl) hrc h
  | rx b => exact .next h
  | tick ms => exact .next h
  | engine =>
    rw [agentMove, engineTurn_not_receiving (h.not_receiving hrc)]
    exact .next h
  | reset => exact absurd rfl hreset

end

/-- Settles O28: no other move starts a receive, and `POLL` runs none without an armed one in progress. -/
theorem pollSticky : Obligations.PollSticky :=
  ⟨fun _ _ t hm hend hreset hop hmove => agentMove_ended hreset hop hend ⟨hm, rfl⟩ t hmove,
    fun _ hready => ⟨exec_poll_notArmed hready, exec_poll_ended hready⟩⟩

end Sys2Proof.Machine
end

section
/-! SUPPORT. The byte rule case by case (43_receiver.md R233 to R237): what the second byte of a frame tells, when a
later byte completes a frame, and what the CRC of a complete frame decides. -/

namespace Sys2Proof.Machine

/-! ### The second byte (R234 to R236) -/

/-- `s` after the second byte `b` of a frame was taken and stored. -/
def State.secondTaken (b : Byte) (queue : List Byte) (s : State) : State :=
  { s with rxQueue := queue, rxbuf := s.rxbuf.put 1 b, rxCnt := 2 }

/-- A receive step that takes the second byte of a frame judges the header. -/
theorem rxStep_second {s : State} {b : Byte} {queue : List Byte} (he : expired s = false) (hcnt : s.rxCnt = 1)
    (hq : s.rxQueue = b :: queue) : rxStep s = rxHeader (s.secondTaken b queue) := by
  have htaken : s.taken [b] queue = s.secondTaken b queue := by
    rw [State.taken, hcnt]
    rfl
  rw [rxStep_takes he hq (by rw [hcnt]; decide), htaken]
  exact if_pos rfl

theorem State.secondTaken_bytes {s : State} {m : Byte} (hm : s.rxbuf.get 0 = some m) (b : Byte) (queue : List Byte) :
    (s.secondTaken b queue).byteAt .rxbuf 0 = m ∧ (s.secondTaken b queue).byteAt .rxbuf 1 = b :=
  ⟨State.byteAt_of_get ((Memory.get_put_other _ b (by decide)).trans hm),
    State.byteAt_of_get (Memory.get_put_same _ 1 b)⟩

/-- A declared length that `RXBUF` cannot hold drops both bytes (R234). -/
theorem rxHeader_overflow {s : State} {d : Byte} (hmarker : s.byteAt .rxbuf 0 = Config.startShort)
    (hlen : s.byteAt .rxbuf 1 = d) (hd : 256 < d.toNat + 5) :
    rxHeader s = .next (({ s with rxDecl := d } : State).diag .lenOverflow).dropOverflow := by
  rw [rxHeader, if_pos hmarker, hlen]
  exact if_pos hd

/-- A byte that is no start marker is dropped with the one behind it (R235). -/
theorem rxHeader_badStart {s : State} (hshort : s.byteAt .rxbuf 0 ≠ Config.startShort)
    (hlong : s.byteAt .rxbuf 0 ≠ Config.startLong) :
    rxHeader s = .next (s.diag .badStart).dropBadStart := by
  rw [rxHeader, if_neg hshort, if_neg hlong]

/-- `s` after the two bytes of a long start were stored and the receive has ended with `RX_LONG` (R236). -/
def State.longStarted (b : Byte) (queue : List Byte) (s : State) : State :=
  { s.secondTaken b queue with rxResult := .rxLong, diagLog := (s.diag .longUnsupported).diagLog }

/-- A long start ends the receive of any operation (R236). -/
theorem rxHeader_secondTaken_long {s : State} {b : Byte} {queue : List Byte} (hop : s.InOperation)
    (hmarker : (s.secondTaken b queue).byteAt .rxbuf 0 = Config.startLong) :
    rxHeader (s.secondTaken b queue) = .next (receiveEnded .rxLong (s.longStarted b queue)) := by
  rw [rxHeader_long hmarker]
  exact finish_reports (s := (s.secondTaken b queue).diag .longUnsupported) hop (.inl nofun)

/-- Settles O26: the step stores the byte, and the header's first byte selects the rule. -/
theorem headerJudged : Obligations.HeaderJudged := by
  intro m b queue s hnone he hcnt hm hq
  obtain ⟨hfirst, hsecond⟩ := State.secondTaken_bytes hm b queue
  rw [rxStep_second he hcnt hq]
  have hlong (hmarker : m = 0x03) (hop : s.InOperation) :=
    rxHeader_secondTaken_long (b := b) (queue := queue) hop (hfirst.trans hmarker)
  refine ⟨fun hmarker hfits => ?short, fun hmarker hd => ?overflow, fun hmarker hmode => ?armed,
    fun hmarker hmode hop => ?recv, fun hmarker hmode hop => ?query, fun hshort hother => ?badStart⟩
  case short => exact rxHeader_short (hfirst.trans hmarker) hsecond (by omega) rfl
  case overflow => exact rxHeader_overflow (hfirst.trans hmarker) hsecond hd
  case armed =>
    rw [hlong hmarker (.inl hmode)]
    exact congrArg _ (receiveEnded_armed _ hmode)
  case recv =>
    rw [hlong hmarker (.inr ⟨hmode, .inl hop⟩)]
    exact congrArg _ (receiveEnded_recvBlocking _ hmode hop)
  case query =>
    rw [hlong hmarker (.inr ⟨hmode, .inr hop⟩)]
    exact congrArg _ (receiveEnded_query _ hmode hop)
  case badStart => exact rxHeader_badStart (hfirst ▸ hshort) (hfirst ▸ hother)

/-! ### A later byte (R237, R242) -/

/-- The bytes stored are a complete frame: as many as expected, the last one the end marker (R237). -/
abbrev State.FrameComplete (s : State) : Prop :=
  s.rxExp.getLsbD 15 = true ∧ s.rxCnt = s.rxExp.extractLsb' 0 9 ∧ s.byteAt .rxbuf (s.rxCnt.toNat - 1) = Config.endMark

theorem rxComplete_exhausted {s : State} (h : ¬ s.FrameComplete) (hcnt : s.rxCnt = 256) :
    rxComplete s = finish .rxOverflow (s.diag .bufExhausted) := by
  rw [rxComplete, if_neg h, if_pos hcnt]

theorem rxComplete_stored {s : State} (h : ¬ s.FrameComplete) (hcnt : s.rxCnt ≠ 256) : rxComplete s = .next s := by
  rw [rxComplete, if_neg h, if_neg hcnt]

/-- The CRC bytes behind a payload region of `n` bytes are its CRC (R242). -/
abbrev State.CrcMatches (s : State) (n : Nat) : Prop :=
  s.byteAt .rxbuf (n + 2) ++ s.byteAt .rxbuf (n + 3) = crc16 (s.bytesAt .rxbuf 2 n)

section
variable {s : State} {d : Byte} (hcomplete : s.FrameComplete) (hlen : s.byteAt .rxbuf 1 = d)
  (hcnt : s.rxCnt.toNat = d.toNat + 5) (hfits : d.toNat ≤ 251)
include hcomplete hlen hcnt hfits

/-- A complete frame of the declared length is verified (R242). -/
theorem rxComplete_verifies :
    rxComplete s = if (frameDecode (s.byteAt .rxbuf) (d.toNat + 5)).1 then finish .ok s else finish .crcFail s := by
  have hshape : frameShaped (s.byteAt .rxbuf) (d.toNat + 5) = true :=
    decide_eq_true ⟨by omega, by omega, by rw [hlen]⟩
  rw [rxComplete, if_pos hcomplete, hcnt, if_pos hshape]

theorem rxComplete_crcMatches (hcrc : s.CrcMatches d.toNat) : rxComplete s = finish .ok s := by
  rw [rxComplete_verifies hcomplete hlen hcnt hfits, frameDecode_eq (congrArg BitVec.toNat hlen)]
  exact if_pos (decide_eq_true hcrc)

theorem rxComplete_crcFails (hcrc : ¬ s.CrcMatches d.toNat) : rxComplete s = finish .crcFail s := by
  rw [rxComplete_verifies hcomplete hlen hcnt hfits, frameDecode_eq (congrArg BitVec.toNat hlen)]
  exact if_neg fun h => hcrc (of_decide_eq_true h)

end

/-- The bytes already stored read as before. -/
theorem State.taken_byte_other {s : State} {a : Nat} {b d : Byte} {queue : List Byte} (hd : s.rxbuf.get a = some d)
    (ha : a ≠ s.rxCnt.toNat) : (s.taken [b] queue).byteAt .rxbuf a = d :=
  State.byteAt_of_get ((Memory.get_put_other _ b ha).trans hd)

section
variable {s : State} {b : Byte} {queue : List Byte} (hcnt : s.rxCnt.toNat < 256)
include hcnt

theorem State.taken_byte_rxCnt : (s.taken [b] queue).rxCnt.toNat = s.rxCnt.toNat + 1 :=
  State.taken_rxCnt (by rw [List.length_singleton]; omega) queue

/-- A receive step that takes another byte than the second of a frame only asks whether a frame is complete. -/
theorem rxStep_later (he : expired s = false) (hother : s.rxCnt ≠ 1) (hq : s.rxQueue = b :: queue) :
    rxStep s = rxComplete (s.taken [b] queue) := by
  have hnext := State.taken_byte_rxCnt (b := b) (queue := queue) hcnt
  have hnot : (s.taken [b] queue).rxCnt ≠ 2 := fun e => hother <| BitVec.eq_of_toNat_eq <| by
    rw [e, show (2 : BitVec 9).toNat = 2 from rfl] at hnext
    exact (Nat.succ.inj hnext).symm
  rw [rxStep_takes he hq hcnt, if_neg hnot]

/-- The byte taken completes a frame when it is the end marker at the expected length. -/
theorem State.taken_frameComplete_iff : (s.taken [b] queue).FrameComplete ↔
    s.rxExp.getLsbD 15 = true ∧ (s.rxExp.extractLsb' 0 9).toNat = s.rxCnt.toNat + 1 ∧ b = 0x03 := by
  have hnext := State.taken_byte_rxCnt (b := b) (queue := queue) hcnt
  have hlast : (s.taken [b] queue).byteAt .rxbuf (s.rxCnt.toNat + 1 - 1) = b :=
    State.taken_byteAt (bs := [b]) queue (i := 0) Nat.zero_lt_one
  refine and_congr_right fun _ => and_congr ?count ?marker
  case count =>
    rw [← hnext, eq_comm, ← BitVec.toNat_inj]
    rfl
  case marker =>
    rw [hnext, hlast]
    rfl

end

/-- Settles O27: completion before exhaustion before storage; a complete frame's CRC selects the result. -/
theorem byteCompletesOrExhausts : Obligations.ByteCompletesOrExhausts := by
  intro b queue s hop hnone he hcnt hother hq
  have hnext := State.taken_byte_rxCnt (b := b) (queue := queue) hcnt
  have hiff := State.taken_frameComplete_iff (b := b) (queue := queue) hcnt
  have hop' : (s.taken [b] queue).InOperation := hop
  rw [rxStep_later hcnt he hother hq]
  refine ⟨fun d hcomplete hd hlen => ?complete, fun hnot hlast => ?exhausted, fun hnot hlast => ?stored⟩
  case exhausted =>
    have hfull : (s.taken [b] queue).rxCnt = 256 := BitVec.eq_of_toNat_eq (by rw [hnext, hlast]; rfl)
    rw [rxComplete_exhausted (mt hiff.1 hnot) hfull]
    exact finish_reports (s := (s.taken [b] queue).diag .bufExhausted) hop (.inl nofun)
  case stored =>
    have hspace : (s.taken [b] queue).rxCnt ≠ 256 := fun e => hlast <| by
      rw [e, show (256 : BitVec 9).toNat = 256 from rfl] at hnext
      omega
    exact rxComplete_stored (mt hiff.1 hnot) hspace
  case complete =>
    have hbyte : (s.taken [b] queue).byteAt .rxbuf 1 = d := State.taken_byte_other hd (by omega)
    have hcount : (s.taken [b] queue).rxCnt.toNat = d.toNat + 5 := hnext.trans hlen.symm
    have hfits : d.toNat ≤ 251 := by omega
    refine ⟨fun hcrc => ?crcFails, fun hcrc hreports => ?reported, fun hcrc hmode hdecl expected hexpects => ?answered⟩
    case crcFails =>
      rw [rxComplete_crcFails (hiff.2 hcomplete) hbyte hcount hfits hcrc]
      exact finish_reports hop' (.inl nofun)
    case reported =>
      rw [rxComplete_crcMatches (hiff.2 hcomplete) hbyte hcount hfits hcrc]
      exact finish_reports hop' (.inr hreports)
    case answered =>
      subst hdecl
      rw [rxComplete_crcMatches (hiff.2 hcomplete) hbyte hcount hfits hcrc]
      exact finish_ok_query (s := s.taken [b] queue) hmode hexpects hfits

end Sys2Proof.Machine
end

section
/-! SUPPORT. Whole frames that wait behind one another for a fresh receive: what one `POLL` and what the engine's turns
make of the first (43_receiver.md R245, R251). -/

namespace Sys2Proof.Machine

/-- `POLL` has a step for each waiting byte, so the frame at the front of the queue is received; then it is decoded
(R251). -/
theorem pollDrive_shortFrame {p rest : List Byte} {s : State} (hm : s.rxMode = .armed) (hf : freshReceive s)
    (he : expired s = false) (hp : p.length ≤ 251) (hq : s.rxQueue = shortFrame p ++ rest) :
    pollDrive s = .next { decodeSite p (receivedFrame p rest s) with
      opRes := (decodeSite p (receivedFrame p rest s)).decRes } := by
  have hsteps : max s.rxQueue.length 1 = p.length + 5 + rest.length := by
    rw [hq, List.length_append, length_shortFrame]
    omega
  rw [pollDrive, hsteps, rxSteps_shortFrame _ hf he hp hq, finish_of_armed (s := s.frameTaken p rest) hm,
    endReceive_frameTaken rest hp hf.2.2.1, andThen_next]
  refine (decodeView_eq (receivedFrame_view_fits rest s hp)).trans ?_
  rw [receivedFrame_view rest s hp]

/-- The bytes of a received frame lie at the start of `RXBUF`, whose other bytes stay (R233). -/
theorem receivedFrame_rxbuf (p rest : List Byte) (s : State) (a : Nat) :
    (receivedFrame p rest s).rxbuf.get a = if a < p.length + 5 then (shortFrame p)[a]? else s.rxbuf.get a := by
  refine (Memory.get_putAll s.rxbuf 0 (shortFrame p) a).trans ?_
  simp only [length_shortFrame, Nat.zero_le, true_and, Nat.zero_add, Nat.sub_zero]

/-- Settles O30: the accepted `POLL` drives the receive through the whole frame. -/
theorem pollDeliversFrame : Obligations.PollDeliversFrame := by
  refine ⟨fun f1 f2 f3 imm => ?word, fun p rest s hready hm hf he hp hq => ?delivers⟩
  case word => simp [decode, decodeWord]
  case delivers =>
    rw [frameEncode_short (by omega)] at hq ⊢
    exact ⟨(execPoll_armed hready hm hf.2.1).trans (pollDrive_shortFrame hm hf he hp hq),
      receivedFrame_view rest s hp, receivedFrame_rxbuf p rest s⟩

/-- Settles O31: the engine's turns are the receive steps that the frame's bytes take, and its end is reported. -/
theorem blockingReceiveDelivers : Obligations.BlockingReceiveDelivers := by
  intro p rest s hsched hbusy hm hop hf he hp hq
  rw [frameEncode_short (by omega)] at hq
  calc runSteps (p.length + 5) s
    _ = rxSteps (p.length + 5) s := (rxSteps_eq_runSteps _ hsched hbusy hm hf.2.1).symm
    _ = finish .ok (s.frameTaken p rest) := rxSteps_shortFrame 0 hf he hp hq
    _ = .next (receiveEnded .ok (endReceive .ok (s.frameTaken p rest))) :=
      finish_recvBlocking (s := s.frameTaken p rest) hm hop .ok
    _ = .next (receiveEnded .ok (receivedFrame p rest s)) := by rw [endReceive_frameTaken rest hp hf.2.2.1]
    _ = _ := congrArg _ (receiveEnded_recvBlocking .ok hm hop)

end Sys2Proof.Machine
end

section
/-! SUPPORT. The two strategies side by side (43_receiver.md R256): each rule of the receiver frames an armed receive and
the same receive as a `RECV_BLOCKING` alike. -/

namespace Sys2Proof.Machine

/-- The receive of `s` as a `RECV_BLOCKING`. -/
def State.asRecvBlocking (s : State) : State := { s with rxMode := .blocking, busy := true, opCur := 0x30 }

/-- What R256 compares of a blocking receive at `u` and an armed one at `t`; the blocking one gives up its mode when it
ends. -/
def FramesAlike (t u : State) : Prop :=
  u.rxbuf = t.rxbuf ∧ u.rxQueue = t.rxQueue ∧ u.rxResult = t.rxResult
    ∧ u.rxCnt = t.rxCnt ∧ u.rxExp = t.rxExp ∧ u.rxDecl = t.rxDecl
    ∧ u.rxValid = t.rxValid ∧ u.rxLen = t.rxLen ∧ u.rxCur = t.rxCur
    ∧ u.rxErrBadStart = t.rxErrBadStart ∧ u.rxErrLenOvf = t.rxErrLenOvf ∧ u.diagLog = t.diagLog
    ∧ (u.rxMode = .idle ↔ t.rxResult ≠ .none)

/-- Whatever the armed receive's `r` answers, the blocking one's `r'` answers alike. -/
def AnswersAlike (r r' : Res) : Prop := ∀ t, r = .next t → ∃ u, r' = .next u ∧ FramesAlike t u

theorem AnswersAlike.fault (e : Fault) (r' : Res) : AnswersAlike (.fault e) r' := by
  simp [AnswersAlike]

theorem AnswersAlike.ite {c : Prop} [Decidable c] {r₁ r₂ r₁' r₂' : Res} (h₁ : AnswersAlike r₁ r₁')
    (h₂ : AnswersAlike r₂ r₂') : AnswersAlike (if c then r₁ else r₂) (if c then r₁' else r₂') := by
  split_ifs
  · exact h₁
  · exact h₂

theorem AnswersAlike.within {a n : Nat} {s s' : State} {f f' : State → Res} (h : AnswersAlike (f s) (f' s')) :
    AnswersAlike (within .rxbuf a n s f) (within .rxbuf a n s' f') :=
  .ite h (.fault _ _)

section
variable {s : State}

/-- A receive that goes on. -/
theorem next_alike (hnone : s.rxResult = .none) : AnswersAlike (.next s) (.next s.asRecvBlocking) := by
  rintro t ⟨⟩
  exact ⟨_, rfl, rfl, rfl, rfl, rfl, rfl, rfl, rfl, rfl, rfl, rfl, rfl, rfl, nofun, fun h => absurd hnone h⟩

/-- A receive that ends: the report of `RECV_BLOCKING` touches nothing of the frame. -/
theorem finish_alike {rc : ResultCode} (hm : s.rxMode = .armed) (hrc : rc ≠ .none) :
    AnswersAlike (finish rc s) (finish rc s.asRecvBlocking) := by
  intro t ht
  rw [finish_of_armed hm] at ht
  obtain rfl := Host.Outcome.next.inj ht
  refine ⟨_, finish_recvBlocking rfl rfl rc, ?_⟩
  rw [receiveEnded_recvBlocking _ (endReceive_rxMode _ _) (endReceive_opCur _ _), endReceive_eq, endReceive_eq]
  exact ⟨rfl, rfl, rfl, rfl, rfl, rfl, rfl, rfl, rfl, rfl, rfl, rfl, fun _ => hrc, fun _ => rfl⟩

/-- An armed receive in progress. -/
structure State.ArmedOpen (s : State) : Prop where
  armed : s.rxMode = .armed
  noResult : s.rxResult = .none

theorem rxComplete_alike (h : s.ArmedOpen) : AnswersAlike (rxComplete s) (rxComplete s.asRecvBlocking) :=
  .ite (.ite (.ite (finish_alike h.armed nofun) (finish_alike h.armed nofun)) (.fault _ _))
    (.ite (finish_alike (s := s.diag .bufExhausted) h.armed nofun) (next_alike h.noResult))

theorem rxHeader_alike (h : s.ArmedOpen) : AnswersAlike (rxHeader s) (rxHeader s.asRecvBlocking) := by
  have hoverflow (d : Byte) := next_alike (s := (({ s with rxDecl := d } : State).diag .lenOverflow).dropOverflow)
    h.noResult
  exact .ite
    (.ite (hoverflow _)
      (rxComplete_alike (s := s.declared _) ⟨h.armed, h.noResult⟩))
    (.ite (finish_alike (s := s.diag .longUnsupported) h.armed nofun)
      (next_alike (s := (s.diag .badStart).dropBadStart) h.noResult))

theorem rxByte_alike (b : Byte) (h : s.ArmedOpen) : AnswersAlike (rxByte b s) (rxByte b s.asRecvBlocking) :=
  .within (.ite (rxHeader_alike (s := s.store b) ⟨h.armed, h.noResult⟩)
    (rxComplete_alike (s := s.store b) ⟨h.armed, h.noResult⟩))

theorem rxStep_alike (h : s.ArmedOpen) : AnswersAlike (rxStep s) (rxStep s.asRecvBlocking) := by
  cases he : expired s with
  | true =>
    rw [rxStep_expired he, rxStep_expired (s := s.asRecvBlocking) he]
    exact finish_alike (s := s.diag .timeout) h.armed nofun
  | false =>
    cases hq : s.rxQueue with
    | nil =>
      rw [rxStep_empty he hq, rxStep_empty (s := s.asRecvBlocking) he hq]
      exact next_alike h.noResult
    | cons b queue =>
      rw [rxStep_byte he hq, rxStep_byte (s := s.asRecvBlocking) he hq]
      exact rxByte_alike (s := { s with rxQueue := queue }) b ⟨h.armed, h.noResult⟩

end

/-- Settles O32: the step of the armed receive and that of the blocking one take the same rule. -/
theorem strategiesAgree : Obligations.StrategiesAgree :=
  fun _ t hm hnone hstep => rxStep_alike ⟨hm, hnone⟩ t hstep

end Sys2Proof.Machine
end

section
/-! SUPPORT. The Command Dispatcher (44_command_dispatch.md R291 to R351): the payload that each command builds and
sends, requests without a response and queries that wait for theirs, the answer of a query, the decode of a view, and
the configuration operations. -/

namespace Sys2Proof.Machine

/-! ### Commands built and sent (R291, R300, R312) -/

/-- A command's payload fits the short form (42_frame_codec.md R202). -/
theorem length_frameEncode_addressed (c : Command) (can : Byte) :
    (frameEncode (c.addressed can)).length = (c.addressed can).length + 5 := by
  have hshort := addressed_length c can
  rw [frameEncode_short (by omega), length_shortFrame]

/-- `Build` and `Send` write the payload at the start of `TXPAY`, its frame and their registers, and no more. -/
theorem builtAndSent_buildAndSend (c : Command) (can : Byte) (s : State) :
    BuiltAndSent (c.addressed can) s (buildAndSend c can s) := by
  refine ⟨fun a => ?payload, ?frame⟩
  case payload =>
    refine (Memory.get_putAll s.txpay 0 (c.addressed can) a).trans ?_
    simp only [Nat.zero_le, true_and, Nat.zero_add, Nat.sub_zero]
  case frame => rw [buildAndSend_eq, length_frameEncode_addressed]

/-- With no peer a command's payload is its identifier and its arguments alone (R312). -/
theorem addressed_zero (c : Command) : c.addressed 0 = c.payload := rfl

/-- With a peer the forward marker and the peer id come first (R312). -/
theorem addressed_peer {peer : Byte} (h : peer ≠ 0) (c : Command) : c.addressed peer = 0x22 :: peer :: c.payload := by
  rw [Command.addressed, if_pos h]
  rfl

/-- The wire row of a command sends it to no peer. -/
theorem exec_instr (c : Command) (s : State) : exec c.instr s = .next (buildAndSend c 0 s) := by
  cases c <;> rfl

/-- The forward row sends its command to its peer. -/
theorem exec_commForwardCan_outbound (peer : Byte) (c : Command) (s : State) :
    exec (.commForwardCan (.outbound (peer, c))) s = .next (buildAndSend c peer s) := rfl

theorem exec_instr_emits (c : Command) (s : State) : ∃ t, exec c.instr s = .next t ∧ BuiltAndSent c.payload s t :=
  ⟨_, exec_instr c s, addressed_zero c ▸ builtAndSent_buildAndSend c 0 s⟩

/-- Settles O46: each row is its command's, and `Build` and `Send` write its payload and its frame. -/
theorem commandRowsEmit : Obligations.CommandRowsEmit := by
  intro s v x y lower upper
  refine ⟨fun i p hrow => ?rows, fun peer c hpeer => ?forward⟩
  case rows =>
    obtain ⟨rfl, rfl⟩ | ⟨rfl, rfl⟩ | ⟨rfl, rfl⟩ | ⟨rfl, rfl⟩ | ⟨rfl, rfl⟩ | ⟨rfl, rfl⟩ | ⟨rfl, rfl⟩ | ⟨rfl, rfl⟩
      | ⟨rfl, rfl⟩ | ⟨rfl, rfl⟩ := hrow
    · exact exec_instr_emits .fwVersion s
    · exact exec_instr_emits .getValues s
    · exact exec_instr_emits (.getValuesSelective v) s
    · exact exec_instr_emits (.setDuty v) s
    · exact exec_instr_emits (.setCurrent v) s
    · exact exec_instr_emits (.setCurrentBrake v) s
    · exact exec_instr_emits (.setRpm v) s
    · exact exec_instr_emits (.setPos v) s
    · exact exec_instr_emits .alive s
    · exact exec_instr_emits (.setChuckData x y lower upper) s
  case forward =>
    exact ⟨_, exec_commForwardCan_outbound peer c s, addressed_peer hpeer c ▸ builtAndSent_buildAndSend c peer s⟩

/-! ### Requests without a response (R304 to R310, R340) -/

/-- An accepted request without a response sends its command and ends with `SENT` (R341). -/
theorem requestOnly_sends {s : State} (hready : s.busy = false) (sel : Byte) (c : Command) (can : Byte) :
    ∃ t, requestOnly sel c can s = .next t
      ∧ RequestSent (Config.cmdId c.name) (peerPayload can c.payload) s t :=
  ⟨_, requestOnly_ready hready sel c can, builtAndSent_buildAndSend c can
    { s with reqCmd := Config.cmdId c.name, reqState := .done, reqResult := .sent, opRes := .sent, opCur := 0 }⟩

/-- Settles O38: each setpoint operation is the request of its command, whose arguments are the bytes of `v`. -/
theorem setpointsSend : Obligations.SetpointsSend := by
  refine ⟨fun can f2 f3 v => ?words, fun can v s hready => ⟨?current, ?brake, ?rpm, ?position, ?duty⟩⟩
  case words => simp [decode, decodeWord]
  case current => exact requestOnly_sends hready 0x53 (.setCurrent v) can
  case brake => exact requestOnly_sends hready 0x54 (.setCurrentBrake v) can
  case rpm => exact requestOnly_sends hready 0x55 (.setRpm v) can
  case position => exact requestOnly_sends hready 0x56 (.setPos v) can
  case duty => exact requestOnly_sends hready 0x57 (.setDuty v) can

/-- Settles O39: `SET_AUX` requests the command of the auxiliary registers, `SEND_ALIVE` the one without arguments. -/
theorem auxAndAliveSend : Obligations.AuxAndAliveSend := by
  refine ⟨fun can f2 f3 imm => ?words, fun can s hready => ⟨?aux, ?alive⟩⟩
  case words => simp [decode, decodeWord]
  case aux =>
    exact requestOnly_sends hready 0x58
      (.setChuckData s.auxX s.auxY (s.auxBtn.getLsbD 0) (s.auxBtn.getLsbD 1)) can
  case alive => exact requestOnly_sends hready 0x59 .alive can

/-! ### Queries (R301 to R303, R340, R377) -/

/-- `s` after the issue of the query `sel` with the identifier `id`, its payload and frame aside: a fresh blocking
receive under `CFG_TIMEOUT`. -/
def State.queryIssued (sel id : Byte) (s : State) : State :=
  { s with
    opCur := sel, reqCmd := id, reqState := .awaiting, reqResult := .none
    busy := true, rxMode := .blocking, rxResult := .none
    rxCnt := 0, rxExp := 0x0000, rxDecl := 0, rxT0 := s.now, rxTmo := s.cfgTimeout
    rxValid := false, rxLen := 0, rxCur := 0, rxErrBadStart := false, rxErrLenOvf := false }

/-- An accepted request with a response sends its command and waits for the answer. -/
theorem requestAndAwait_sends {s : State} (hready : s.busy = false) (sel : Byte) (c : Command) (can : Byte) :
    ∃ t, requestAndAwait sel c can s = .next t
      ∧ BuiltAndSent (peerPayload can c.payload) (s.queryIssued sel (Config.cmdId c.name)) t :=
  ⟨_, requestAndAwait_ready hready sel c can,
    builtAndSent_buildAndSend c can (s.queryIssued sel (Config.cmdId c.name))⟩

/-- Settles O40: each query is the request of its command under its selector. -/
theorem queriesAwait : Obligations.QueriesAwait := by
  refine ⟨fun can f2 f3 imm => ?words, fun can mask s i sel id args hready hquery => ?awaits⟩
  case words => simp [decode, decodeWord]
  case awaits =>
    obtain ⟨rfl, rfl, rfl, rfl⟩ | ⟨rfl, rfl, rfl, rfl⟩ | ⟨rfl, rfl, rfl, rfl⟩ := hquery
    · exact requestAndAwait_sends hready 0x50 .fwVersion can
    · exact requestAndAwait_sends hready 0x51 .getValues can
    · exact requestAndAwait_sends hready 0x52 (.getValuesSelective mask) can

/-- A decode leaves the receiver's mode. -/
theorem decodeSite_rxMode (p : List Byte) (s : State) : (decodeSite p s).rxMode = s.rxMode := by
  obtain ⟨d, hd, -, -⟩ := decodeSite_cases p s
  rw [hd]
  rfl

/-- The answer of a query whose receive has given up its mode already. -/
theorem queryAnswered_of_idle {s : State} (hidle : s.rxMode = .idle) (expected : Byte) :
    queryAnswered expected s =
      let res : ResultCode :=
        if s.decRes = .decodeFail then .decodeFail else if s.decId ≠ expected then .respMismatch else .ok
      { s with reqResult := res, reqState := .done, opRes := res, busy := false, opCur := 0 } := by
  rw [queryAnswered, ← hidle]

/-- The frame that a query waits for is delivered and decoded, and answers it (R340). -/
theorem finish_frameTaken_query {s : State} {p : List Byte} {expected : Byte} (rest : List Byte)
    (hm : s.rxMode = .blocking) (hexpects : queryExpects s.opCur expected) (hp : p.length ≤ 251) (hcnt : s.rxCnt = 0) :
    finish .ok (s.frameTaken p rest) = .next (queryAnswered expected
      (decodeSite p (receivedFrame p rest s).receiverIdle)) := by
  have hdelivered := endReceive_frameTaken (s := s) rest hp hcnt
  have hfits : (s.frameTaken p rest).rxDecl.toNat ≤ 251 := (toNat_lengthByte hp).trans_le hp
  have hview : (endReceive .ok (s.frameTaken p rest)).view = p :=
    (congrArg State.view hdelivered).trans (receivedFrame_view rest s hp)
  have hpayload : (s.frameTaken p rest).bytesAt .rxbuf 2 (s.frameTaken p rest).rxDecl.toNat = p := hview
  rw [finish_ok_query (s := s.frameTaken p rest) hm hexpects hfits, hpayload, hdelivered]

/-- Settles O41: the engine's turns are the receive steps that the frame's bytes take, and its end answers the query. -/
theorem queryCompletes : Obligations.QueryCompletes := by
  intro p rest s expected hsched hbusy hm hf he hp hq hexpects
  rw [frameEncode_short (by omega)] at hq
  have hidle : (decodeSite p (receivedFrame p rest s).receiverIdle).rxMode = .idle := decodeSite_rxMode p _
  calc runSteps (p.length + 5) s
    _ = rxSteps (p.length + 5) s := (rxSteps_eq_runSteps _ hsched hbusy hm hf.2.1).symm
    _ = finish .ok (s.frameTaken p rest) := rxSteps_shortFrame 0 hf he hp hq
    _ = .next (queryAnswered expected (decodeSite p (receivedFrame p rest s).receiverIdle)) :=
      finish_frameTaken_query rest hm hexpects hp hf.2.2.1
    _ = _ := congrArg _ (queryAnswered_of_idle hidle expected)

/-! ### Decodes (R331, R336) -/

theorem exec_decodePayload_refused {s : State} (hready : s.busy = false) (hview : s.rxValid = false) :
    exec .decodePayload s = .next (s.raise .bounds) := by
  change execDecodePayload s = _
  rw [execDecodePayload, accept_ready hready, if_pos hview]

theorem exec_decodePayload_view {s : State} (hready : s.busy = false) (hview : s.rxValid = true) :
    exec .decodePayload s = decodeView s := by
  change execDecodePayload s = _
  rw [execDecodePayload, accept_ready hready, if_neg (by simp [hview])]

/-- Settles O33: without a view the operation is refused, with one it is the decode of the view. -/
theorem decodePayloadRuns : Obligations.DecodePayloadRuns := by
  refine ⟨fun f1 f2 f3 imm => ?word, fun s hready hlen =>
    ⟨fun hview => exec_decodePayload_refused hready hview, fun hview => ?decodes⟩⟩
  case word => simp [decode, decodeWord]
  case decodes =>
    have hfits : 2 + s.rxLen.toNat ≤ Config.bufSize .rxbuf := by
      simp only [Config.bufSize, Config.rxbufSize]
      omega
    rw [exec_decodePayload_view hready hview, decodeView_eq hfits]

/-- The decode site hands a payload with the identifier of the version response to its decoder (R330). -/
theorem exec_commFwVersion_inbound (body : List Byte) (s : State) :
    exec (.commFwVersion (.inbound body)) s =
      let r := decodeFw (0x00 :: body) { s with decId := 0x00 }
      .next (r.1.withDecRes (if r.2 then .ok else .decodeFail)) := rfl

theorem decodeFw_short {p : List Byte} (h : p.length < 3) (s : State) :
    decodeFw p s = (s.diag .decodeShort, false) := by
  rw [decodeFw, if_pos h]

/-- The version is the two bytes behind the identifier (R331). -/
theorem decodeFw_version (id maj min : Byte) (more : List Byte) (s : State) :
    decodeFw (id :: maj :: min :: more) s = ({ s with fwMajor := maj, fwMinor := min, fwValid := true }, true) := by
  rw [decodeFw, if_neg (by simp)]
  rfl

/-- Settles O34: two bytes behind the identifier are the version, fewer are too short. -/
theorem fwVersionDecodes : Obligations.FwVersionDecodes := by
  intro body s
  rw [exec_commFwVersion_inbound]
  refine ⟨fun maj min more hbody => ?version, fun hshort => ?short⟩
  case version =>
    rw [hbody, decodeFw_version]
    rfl
  case short =>
    have hlen : (0x00 :: body).length < 3 := Nat.succ_lt_succ hshort
    rw [decodeFw_short hlen]
    rfl

/-! ### Configuration (R311, R350, R351) -/

theorem getLsbD_buttonBits (lower upper : Bool) :
    (buttonBits lower upper).getLsbD 0 = lower ∧ (buttonBits lower upper).getLsbD 1 = upper := by
  simp [BitVec.getLsbD_eq_getElem]

/-- Only the two button bits can be set (R311). -/
theorem buttonBits_reserved (lower upper : Bool) : (buttonBits lower upper).extractLsb' 2 6 = 0 := by
  apply BitVec.eq_of_toNat_eq
  have hlow := buttonBits_lt lower upper
  rw [BitVec.extractLsb'_toNat, Nat.shiftRight_eq_div_pow, Nat.div_eq_of_lt hlow]
  rfl

/-- Settles O42: the accepted operation writes the three auxiliary registers. -/
theorem auxWriteSets : Obligations.AuxWriteSets := by
  refine ⟨fun f1 f2 f3 imm => ?word, fun x y lower upper s hready => ?sets⟩
  case word => simp [decode, decodeWord]
  case sets =>
    obtain ⟨hlower, hupper⟩ := getLsbD_buttonBits lower upper
    exact ⟨_, (accept_ready hready _ : execAuxWrite x y lower upper s = _), rfl, hlower, hupper,
      buttonBits_reserved lower upper⟩

/-- Settles O44: the accepted operation writes its register. -/
theorem cfgTimeoutSets : Obligations.CfgTimeoutSets := by
  refine ⟨fun f1 f2 f3 imm => ?word, fun t s hready => ?sets⟩
  case word => simp [decode, decodeWord]
  case sets => exact (accept_ready hready _ : execCfgTimeout t s = _)

/-- Settles O45: the accepted operation clears the four flags. -/
theorem clrErrClears : Obligations.ClrErrClears := by
  refine ⟨fun f1 f2 f3 imm => ?word, fun s hready => ?clears⟩
  case word => simp [decode, decodeWord]
  case clears => exact (accept_ready hready _ : execClrErr s = _)

end Sys2Proof.Machine
end

section
/-! SUPPORT. The host's conversion of a setpoint (44_command_dispatch.md R297): rounding toward zero, and the range of
`s32`. -/

namespace Sys2Proof.Machine

/-! ### Rounding toward zero (00_scope.md R16) -/

theorem truncToZero_neg (x : ℚ) : truncToZero (-x) = -truncToZero x := by
  rw [truncToZero, truncToZero, Rat.neg_num, Rat.neg_den, Int.neg_tdiv]

theorem truncToZero_of_nonneg {x : ℚ} (h : 0 ≤ x) : truncToZero x = ⌊x⌋ := by
  rw [truncToZero, Int.tdiv_eq_ediv_of_nonneg (Rat.num_nonneg.2 h), Rat.floor_def']

theorem truncToZero_of_nonpos {x : ℚ} (h : x ≤ 0) : truncToZero x = ⌈x⌉ := by
  rw [← neg_neg x, truncToZero_neg, truncToZero_of_nonneg (neg_nonneg.2 h), Int.ceil_neg]

/-- Rounding toward zero: not past the value, less than one away from it, and on its side of zero. -/
theorem truncToZero_spec (x : ℚ) :
    |(truncToZero x : ℚ)| ≤ |x| ∧ |x - truncToZero x| < 1 ∧ 0 ≤ (truncToZero x : ℚ) * x := by
  rcases le_total 0 x with h | h
  · have hint : (0 : ℚ) ≤ ⌊x⌋ := Int.cast_nonneg (Int.floor_nonneg.2 h)
    rw [truncToZero_of_nonneg h, abs_of_nonneg hint, abs_of_nonneg h, abs_of_nonneg (sub_nonneg.2 (Int.floor_le x))]
    exact ⟨Int.floor_le x, sub_lt_comm.1 (Int.sub_one_lt_floor x), mul_nonneg hint h⟩
  · have hint : (⌈x⌉ : ℚ) ≤ 0 := Int.cast_nonpos.2 (Int.ceil_le.2 (by simpa using h))
    rw [truncToZero_of_nonpos h, abs_of_nonpos hint, abs_of_nonpos h, abs_of_nonpos (sub_nonpos.2 (Int.le_ceil x))]
    refine ⟨neg_le_neg (Int.le_ceil x), ?_, mul_nonneg_of_nonpos_of_nonpos hint h⟩
    linarith only [Int.ceil_lt_add_one x]

/-- A value rounds to below a positive integer exactly when it lies below it. -/
theorem truncToZero_lt_iff {n : Int} (hn : 0 < n) (x : ℚ) : truncToZero x < n ↔ x < n := by
  rcases le_total 0 x with h | h
  · rw [truncToZero_of_nonneg h, Int.floor_lt]
  · have hpos : (0 : ℚ) < n := Int.cast_pos.2 hn
    have hceil : ⌈x⌉ ≤ 0 := Int.ceil_le.2 (by simpa using h)
    rw [truncToZero_of_nonpos h]
    exact iff_of_true (hceil.trans_lt hn) (h.trans_lt hpos)

/-- A value rounds to above a negative integer exactly when it lies above it. -/
theorem lt_truncToZero_iff {n : Int} (hn : n < 0) (x : ℚ) : n < truncToZero x ↔ n < x := by
  have hneg := truncToZero_lt_iff (neg_pos.2 hn) (-x)
  rwa [truncToZero_neg, neg_lt_neg_iff, Int.cast_neg, neg_lt_neg_iff] at hneg

/-! ### The operand (R297) -/

/-- The operand is the rounded product, where `s32` can hold it. -/
theorem setpoint_eq_some {factor : Nat} {x : ℚ} {v : Word32} (h : setpoint factor x = some v) :
    v.toInt = truncToZero (x * factor) := by
  obtain ⟨⟨hlow, hhigh⟩, hv⟩ := Option.ite_none_right_eq_some.1 h
  rw [← Option.some.inj hv]
  exact BitVec.toInt_ofInt_eq_self (by decide) hlow hhigh

/-- There is none outside the `s32` range (93_implementation_defined.md U2). -/
theorem setpoint_eq_none_iff (factor : Nat) (x : ℚ) :
    setpoint factor x = none ↔ x * factor ≤ -2 ^ 31 - 1 ∨ 2 ^ 31 ≤ x * factor := by
  have hlow : -2 ^ 31 ≤ truncToZero (x * factor) ↔ -2 ^ 31 - 1 < x * factor := by
    rw [← Int.sub_one_lt_iff, lt_truncToZero_iff (by norm_num)]
    norm_num
  have hhigh : truncToZero (x * factor) < 2 ^ 31 ↔ x * factor < 2 ^ 31 := by
    rw [truncToZero_lt_iff (by norm_num)]
    norm_num
  calc setpoint factor x = none
    _ ↔ ¬(-2 ^ 31 ≤ truncToZero (x * factor) ∧ truncToZero (x * factor) < 2 ^ 31) := ite_eq_right_iff.trans (by simp)
    _ ↔ ¬(-2 ^ 31 - 1 < x * factor ∧ x * factor < 2 ^ 31) := by rw [hlow, hhigh]
    _ ↔ _ := by rw [not_and_or, not_lt, not_lt]

/-- Settles O43: the operand is the rounded product, and each conversion hands it to its command. -/
theorem setpointRoundsTowardZero : Obligations.SetpointRoundsTowardZero := by
  intro factor x
  refine ⟨fun v hv => ?rounds, setpoint_eq_none_iff factor x, fun convert command hcommand can i => ?converts⟩
  case rounds =>
    rw [setpoint_eq_some hv]
    exact truncToZero_spec (x * factor)
  case converts =>
    have hmap : convert can x = (setpoint factor x).map (command can) := by
      obtain ⟨rfl, rfl, rfl⟩ | ⟨rfl, rfl, rfl⟩ | ⟨rfl, rfl, rfl⟩ | ⟨rfl, rfl, rfl⟩ | ⟨rfl, rfl, rfl⟩ := hcommand <;> rfl
    simp only [hmap, Option.map_eq_some_iff, eq_comm (b := i)]

end Sys2Proof.Machine
end

section
/-! SUPPORT. Under the invariant of Safety.lean no transition stops (60_exceptions.md R378): each place where the model
could fault stands behind a range that the invariant keeps (log entry 9). -/

namespace Sys2Proof.Machine

/-! ### Transitions that answer a next state -/

/-- The transition neither faults nor is refused. -/
def Proceeds (r : Res) : Prop := ∃ t, r = .next t

theorem Proceeds.next (s : State) : Proceeds (.next s) := ⟨s, rfl⟩

theorem Proceeds.ite_of {c : Prop} [Decidable c] {r r' : Res} (hr : c → Proceeds r) (hr' : ¬ c → Proceeds r') :
    Proceeds (if c then r else r') := by
  split_ifs with hc
  · exact hr hc
  · exact hr' hc

theorem Proceeds.accept {s : State} {f : State → Res} (hf : s.busy = false → Proceeds (f s)) :
    Proceeds (Machine.accept s f) :=
  .ite_of (fun _ => .next _) fun hb => hf (by simpa using hb)

/-- An operation that answers in one way only, behind the busy gate (60_exceptions.md R373). -/
theorem Proceeds.accept_next (g : State → State) (s : State) : Proceeds (Machine.accept s fun u => .next (g u)) :=
  .accept fun _ => .next (g s)

theorem Proceeds.within {buf : Buffer} {a n : Nat} {s : State} {f : State → Res}
    (hfit : a + n ≤ Config.bufSize buf) (hf : Proceeds (f s)) : Proceeds (Machine.within buf a n s f) := by
  rwa [within_ok hfit]

theorem Proceeds.andThen {r : Res} {f : State → Res} {P : State → Prop} (hr : Proceeds r) (hans : Answers r P)
    (hf : ∀ u, P u → Proceeds (f u)) : Proceeds (Machine.andThen r f) := by
  obtain ⟨u, rfl⟩ := hr
  exact hf u (hans u rfl)

/-! ### The payload view (43_receiver.md R243) -/

/-- The view lies inside `RXBUF` (20_memory.md R82). -/
theorem State.RangesOk.view_fits {s : State} (h : s.RangesOk) : 2 + s.rxLen.toNat ≤ Config.bufSize .rxbuf := by
  have hlen := h.rxLen
  simp only [Config.bufSize, Config.rxbufSize]
  omega

theorem decodeView_proceeds {s : State} (h : s.RangesOk) : Proceeds (decodeView s) :=
  .within h.view_fits (.next _)

/-- A read that passes `check_read` stays inside the view (41_field_codec.md R181 to R186). -/
theorem getField_proceeds (w : Nat) (dec : List Byte → Word32) (scale : Word32) {s : State} (h : s.RangesOk) :
    Proceeds (getField w dec scale s) := by
  refine .ite_of (fun _ => .next _) fun hread => .within ?_ (.next _)
  have hview := h.view_fits
  omega

theorem getScaled_proceeds (w : Nat) (dec : List Byte → Word32) (scale : Word32) {s : State} (h : s.RangesOk) :
    Proceeds (getScaled w dec scale s) :=
  .ite_of (fun _ => .next _) fun _ => getField_proceeds w dec scale h

/-! ### The end of a receive (43_receiver.md R241) -/

theorem completeRequest_proceeds (expected : CommandName) (rc : ResultCode) {s : State} (h : s.RangesOk) :
    Proceeds (completeRequest expected rc s) :=
  .ite_of (fun _ => .within h.view_fits (.next _)) fun _ => .next _

/-- `OP_CUR` names one of the blocking operations (10_state.md R33). -/
def State.OpBlocking (s : State) : Prop := s.opCur = 0x30 ∨ s.opCur = 0x50 ∨ s.opCur = 0x51 ∨ s.opCur = 0x52

theorem completeOp_proceeds (rc : ResultCode) {s : State} (h : s.RangesOk) (hop : s.OpBlocking) :
    Proceeds (completeOp rc s) := by
  refine .ite_of (fun _ => .next _) fun hrecv => ?_
  refine .ite_of (fun _ => completeRequest_proceeds _ rc h) fun hversion => ?_
  refine .ite_of (fun _ => completeRequest_proceeds _ rc h) fun hvalues => ?_
  refine .ite_of (fun _ => completeRequest_proceeds _ rc h) fun hselective => ?_
  rcases hop with hop | hop | hop | hop
  · exact absurd hop hrecv
  · exact absurd hop hversion
  · exact absurd hop hvalues
  · exact absurd hop hselective

/-- A receive ends without a stop: a verified frame is one that `RXBUF` holds, and a blocking receive belongs to an
operation. -/
theorem State.InReceive.finish_proceeds {s : State} (h : s.InReceive) {rc : ResultCode}
    (hrc : rc ∈ [.ok, .crcFail, .timeout, .rxOverflow, .rxLong]) (hframe : rc = .ok → s.HoldsFrame) :
    Proceeds (Machine.finish rc s) := by
  have hranges : (Machine.endReceive rc s).receiverIdle.RangesOk := { (h.endReceive hrc hframe).ranges with }
  refine .ite_of (fun hblocking => ?_) fun _ => .next _
  have hop : (Machine.endReceive rc s).receiverIdle.OpBlocking := by
    rw [State.OpBlocking, State.receiverIdle_opCur, endReceive_opCur]
    exact h.sequencing.opBusy (h.sequencing.busy.2 hblocking)
  exact (completeOp_proceeds rc hranges hop).andThen (P := fun _ => True) (fun _ _ => trivial) fun _ _ => .next _

/-! ### The byte rule (R232 to R237, R242) -/

/-- A frame that has reached its expected length meets the precondition of `FrameDecode` (42_frame_codec.md R204). -/
theorem frameShaped_of_complete {s : State} (hheader : s.HeaderOk) (hknown : s.rxExp.getLsbD 15 = true)
    (hcount : s.rxCnt = s.rxExp.extractLsb' 0 9) : frameShaped (s.byteAt .rxbuf) s.rxCnt.toNat = true := by
  obtain ⟨-, hdecl, hexp, -, hlen⟩ := hheader.known hknown
  have hcnt : s.rxCnt.toNat = s.rxDecl.toNat + 5 := by rw [hcount, hexp, rxExp_length hdecl]
  have hbyte : s.byteAt .rxbuf 1 = s.rxDecl := State.byteAt_of_get (buf := .rxbuf) hlen
  rw [frameShaped, hbyte, hcnt]
  exact decide_eq_true (by omega)

theorem State.InReceive.rxComplete_proceeds {s : State} (h : s.InReceive) (hstored : s.BytesStored)
    (hheader : s.HeaderOk) : Proceeds (Machine.rxComplete s) := by
  refine .ite_of (fun ⟨hknown, hcount, hend⟩ => .ite_of (fun _ => ?verify) fun hshape => ?misshaped) fun _ => ?incomplete
  case verify =>
    exact .ite_of
      (fun hcrc => h.finish_proceeds (by simp) fun _ => holdsFrame_of_complete hstored hheader hknown hcount hend hcrc)
      fun _ => h.finish_proceeds (by simp) nofun
  case misshaped => exact absurd (frameShaped_of_complete hheader hknown hcount) hshape
  case incomplete => exact .ite_of (fun _ => (h.diag _).finish_proceeds (by simp) nofun) fun _ => .next _

/-- A declared length that `RXBUF` can hold (R234). -/
theorem State.InReceive.declared {s : State} (h : s.InReceive) {d : Byte} (hd : d.toNat ≤ 251) :
    (s.declared d).InReceive :=
  ⟨{ h.ranges with rxExpReserved := rxExp_reserved hd }, { h.results with }, { h.sequencing with }, h.receiving,
    h.invalid, h.noView⟩

/-- Behind a short header the frame's length is known (R234). -/
theorem State.declared_headerOk {s : State} {d : Byte} (hd : d.toNat ≤ 251) (hcnt : 2 ≤ s.rxCnt.toNat)
    (hstart : s.rxbuf.get 0 = some Config.startShort) (hlen : s.rxbuf.get 1 = some d) : (s.declared d).HeaderOk where
  unknown hunknown := absurd ((rxExp_valid d).symm.trans hunknown) nofun
  known _ := ⟨hcnt, hd, rfl, hstart, hlen⟩

theorem State.InReceive.rxHeader_proceeds {s : State} (h : s.InReceive) (hstored : s.BytesStored)
    (hcnt : s.rxCnt = 2) : Proceeds (Machine.rxHeader s) := by
  have hbyte : ∀ a < 2, s.rxbuf.get a = some (s.byteAt .rxbuf a) := fun a ha =>
    State.get_eq_byteAt (buf := .rxbuf) (hstored a (by simpa [hcnt] using ha))
  refine .ite_of (fun hmarker => .ite_of (fun _ => .next _) fun hfits => ?short) fun _ =>
    .ite_of (fun _ => ?long) fun _ => .next _
  case short =>
    have hd : (s.byteAt .rxbuf 1).toNat ≤ 251 := by unfold Config.rxbufSize at hfits; omega
    have hstart : s.rxbuf.get 0 = some Config.startShort := hmarker ▸ hbyte 0 (by decide)
    exact (h.declared hd).rxComplete_proceeds hstored
      (State.declared_headerOk hd (by simp [hcnt]) hstart (hbyte 1 (by decide)))
  case long => exact (h.diag _).finish_proceeds (by simp) nofun

theorem rxByte_proceeds {s : State} (h : s.Inv) (hr : receiving s = true) (b : Byte) : Proceeds (rxByte b s) := by
  have hcount := h.assembly.count hr
  have hin := h.store_inReceive hr b
  have hstored : (s.store b).BytesStored := State.BytesStored.store (h.assembly.stored hr) hcount b
  rw [rxByte_eq_store hcount]
  exact .ite_of (fun hsecond => hin.rxHeader_proceeds hstored hsecond) fun hother =>
    hin.rxComplete_proceeds hstored (h.store_headerOk hr b hother)

/-! ### Receive steps (R238, R251) -/

theorem rxStep_proceeds {s : State} (h : s.Inv) (hr : receiving s = true) : Proceeds (rxStep s) := by
  cases he : expired s with
  | true =>
    rw [rxStep_expired he]
    exact ((h.inReceive hr).diag _).finish_proceeds (by simp) nofun
  | false =>
    cases hq : s.rxQueue with
    | nil => rw [rxStep_empty he hq]; exact .next s
    | cons b queue =>
      have hpop : ({ s with rxQueue := queue } : State).Inv := h.of_unseen rfl
      rw [rxStep_byte he hq]
      exact rxByte_proceeds hpop hr b

/-- A step that does not end the receive leaves one in progress. -/
theorem rxStep_receiving {s : State} (hr : receiving s = true) :
    Answers (rxStep s) fun t => t.rxResult = .none → receiving t = true := fun _ ht hnone =>
  receiving_iff.2 ⟨rxStep_mode ht hnone ▸ (receiving_iff.1 hr).1, hnone⟩

theorem rxSteps_proceeds (k : Nat) {s : State} (h : s.Inv) (hr : receiving s = true) : Proceeds (rxSteps k s) := by
  induction k generalizing s with
  | zero => exact .next s
  | succ k ih =>
    refine (rxStep_proceeds h hr).andThen (P := fun t => t.Inv ∧ (t.rxResult = .none → receiving t = true))
      (fun t ht => ⟨rxStep_inv h hr t ht, rxStep_receiving hr t ht⟩) fun t ⟨hinv, hopen⟩ => ?_
    exact .ite_of (fun _ => .next t) fun hnone => ih hinv (hopen (not_not.1 hnone))

theorem engineTurn_proceeds {s : State} (h : s.Inv) : Proceeds (engineTurn s) :=
  .ite_of (fun ⟨_, hr, _⟩ => rxStep_proceeds h hr) fun _ => .next s

theorem pollDrive_proceeds {s : State} (h : s.Inv) (hr : receiving s = true) : Proceeds (pollDrive s) :=
  (rxSteps_proceeds _ h hr).andThen (rxSteps_inv _ h hr) fun _ hinv =>
    .ite_of (fun _ => decodeView_proceeds hinv.ranges) fun _ => .next _

/-! ### Host operations and moves -/

theorem append_proceeds (bytes : List Byte) (s : State) : Proceeds (append bytes s) :=
  .ite_of (fun _ => .next _) fun _ => .next _

theorem requestOnly_proceeds (sel : Byte) (c : Command) (can : Byte) (s : State) :
    Proceeds (requestOnly sel c can s) := .accept_next _ s

theorem requestAndAwait_proceeds (sel : Byte) (c : Command) (can : Byte) (s : State) :
    Proceeds (requestAndAwait sel c can s) := .accept_next _ s

theorem execRxSeek_proceeds (p : Byte) (s : State) : Proceeds (execRxSeek p s) :=
  .accept fun _ => .ite_of (fun _ => .next _) fun _ => .next _

theorem execCrc16_proceeds (buf : Buffer) (off n : BitVec 16) (s : State) : Proceeds (execCrc16 buf off n s) :=
  .accept fun _ => .ite_of (fun _ => .next _) fun _ => .next _

/-- The payload under assembly lies inside `TXPAY` (20_memory.md R82). -/
theorem execFrameSend_proceeds {s : State} (h : s.RangesOk) : Proceeds (execFrameSend s) :=
  .accept fun _ => .within ((Nat.zero_add _).trans_le h.txCur) (.next _)

theorem execFrameCheck_proceeds (n : Word32) (s : State) : Proceeds (execFrameCheck n s) :=
  .accept fun _ => .ite_of (fun _ => .next _) fun _ => .ite_of (fun _ => .next _) fun _ => .next _

theorem execDecodePayload_proceeds {s : State} (h : s.RangesOk) : Proceeds (execDecodePayload s) :=
  .accept fun _ => .ite_of (fun _ => .next _) fun _ => decodeView_proceeds h

theorem execPoll_proceeds {s : State} (h : s.Inv) : Proceeds (execPoll s) := by
  refine .accept fun _ => .ite_of (fun _ => .next _) fun harmed => .ite_of (fun _ => .next _) fun hnone =>
    pollDrive_proceeds h ?_
  exact receiving_iff.2 ⟨by rw [not_not.1 harmed]; exact nofun, not_not.1 hnone⟩

/-- No host operation stops; the refusals of the outbound frame rows are of no operation word. -/
theorem exec_proceeds {i : Instr} {v : OpWord} (hi : encode i = .host v) {s : State} (h : s.Inv) :
    Proceeds (exec i s) := by
  cases i with
  | appendU8 | appendBool | appendInt32 | appendUint32 => exact .accept fun _ => append_proceeds _ s
  | rxSeek p => exact execRxSeek_proceeds p s
  | getU8 | getInt32 | getUint32 => exact .accept fun _ => getField_proceeds _ _ _ h.ranges
  | getFloat16 | getFloat32 => exact .accept fun _ => getScaled_proceeds _ _ _ h.ranges
  | crc16 buf off n => exact execCrc16_proceeds buf off n s
  | frameSend => exact execFrameSend_proceeds h.ranges
  | frameCheck n => exact execFrameCheck_proceeds n s
  | poll => exact execPoll_proceeds h
  | decodePayload => exact execDecodePayload_proceeds h.ranges
  | reqFwVersion | reqValues | reqValuesSel => exact requestAndAwait_proceeds _ _ _ s
  | setCurrent | setCurrentBrake | setRpm | setPos | setDuty | setAux | sendAlive => exact requestOnly_proceeds _ _ _ s
  | payReset | recvBlocking | arm | auxWrite | cfgTimeout | clrErr =>
    rw [exec]
    exact .accept_next _ s
  | commFwVersion | commGetValues | commSetDuty | commSetCurrent | commSetCurrentBrake | commSetRpm | commSetPos
  | commAlive | commForwardCan | commSetChuckData | commGetValuesSelective =>
    exact absurd hi (encodeWire_ne_host _ _ _ v)
  | frameShort w | frameLong w => cases w <;> cases hi

theorem issueWord_proceeds (w : OpWord) {s : State} (h : s.Inv) : Proceeds (issueWord w s) := by
  cases hd : decode (.host w) with
  | ok i =>
    obtain ⟨v, hv⟩ := encode_of_decodeWord hd
    rw [issueWord_of_decode hd]
    exact exec_proceeds hv h
  | error e =>
    rw [issueWord, hd]
    exact .accept fun _ => .next _

theorem agentMove_proceeds (ev : Event) {s : State} (h : s.Inv) : Proceeds (agentMove ev s) := by
  cases ev with
  | op w => exact issueWord_proceeds w h
  | engine => exact engineTurn_proceeds h
  | rx | tick | reset => exact .next _

/-- Settles O58: a step is the engine's turn or the move of the first pending event, and neither stops. -/
theorem stepNeverStops : Obligations.StepNeverStops := by
  intro s h
  unfold safeStep
  cases hs : s.sched with
  | nil =>
    rw [step_idle hs]
    exact engineTurn_proceeds h
  | cons ev rest =>
    have hpopped : ({ s with sched := rest } : State).Inv := h.of_unseen rfl
    rw [step_event hs]
    exact agentMove_proceeds ev hpopped

end Sys2Proof.Machine
end

section
/-! SUPPORT. The diagnostic port is write-only (60_exceptions.md R381): from a state whose sink takes all events, and
from the same state with its events put behind another log or discarded, every transition goes the same way. The
proofs split the relation between the two states once: the conditions of all branches are then the same by
definition, and what is left is one `Relogged` for each next state. -/

namespace Sys2Proof.Machine

/-! ### The same state under another sink -/

/-- `s` with its events behind `log` when a sink is `present`, and discarded when none is. -/
def State.loggedTo (log : List DiagEvent) (present : Bool) (s : State) : State :=
  { s with diagLog := if present then log ++ s.diagLog else log, diagPresent := present }

/-- A state whose sink takes every event, and the same state logged elsewhere. -/
inductive Relogged (log : List DiagEvent) (present : Bool) : State → State → Prop
  | intro {s : State} (attached : s.diagPresent = true) : Relogged log present s (s.loggedTo log present)

/-- Two transitions that go the same way: both stop for the same reason, or their next states differ in the log
alone. -/
inductive ReloggedRes (log : List DiagEvent) (present : Bool) : Res → Res → Prop
  | next {s s' : State} (h : Relogged log present s s') : ReloggedRes log present (.next s) (.next s')
  | fault (e : Fault) : ReloggedRes log present (.fault e) (.fault e)
  | refused (e : Refusal) : ReloggedRes log present (.refused e) (.refused e)

section

variable {log : List DiagEvent} {present : Bool}

/-- An update that keeps the log and does not read it. -/
theorem Relogged.update {s s' : State} (h : Relogged log present s s') (g : State → State)
    (hcomm : ∀ u : State, g (u.loggedTo log present) = (g u).loggedTo log present := by intro _; rfl)
    (hkeep : ∀ u : State, (g u).diagPresent = u.diagPresent := by intro _; rfl) :
    Relogged log present (g s) (g s') := by
  obtain ⟨hs⟩ := h
  rw [hcomm]
  exact .intro ((hkeep _).trans hs)

/-- A report goes to the end of either log, or is discarded. -/
theorem Relogged.diag {s s' : State} (h : Relogged log present s s') (ev : DiagEvent) :
    Relogged log present (s.diag ev) (s'.diag ev) := by
  obtain ⟨hs⟩ := h
  have hcomm : (s.loggedTo log present).diag ev = (s.diag ev).loggedTo log present := by
    cases present <;> simp [State.diag, State.loggedTo, hs]
  rw [hcomm]
  exact .intro hs

theorem ReloggedRes.ite {c : Prop} [Decidable c] {r₁ r₂ r₁' r₂' : Res} (h₁ : ReloggedRes log present r₁ r₁')
    (h₂ : ReloggedRes log present r₂ r₂') :
    ReloggedRes log present (if c then r₁ else r₂) (if c then r₁' else r₂') := by
  split_ifs
  · exact h₁
  · exact h₂

theorem ReloggedRes.andThen {r r' : Res} {f f' : State → Res} (hr : ReloggedRes log present r r')
    (hf : ∀ u u', Relogged log present u u' → ReloggedRes log present (f u) (f' u')) :
    ReloggedRes log present (Machine.andThen r f) (Machine.andThen r' f') := by
  cases hr with
  | next h => exact hf _ _ h
  | fault e => exact .fault e
  | refused e => exact .refused e

theorem ReloggedRes.within {buf : Buffer} {a n : Nat} {s s' : State} {f f' : State → Res}
    (h : ReloggedRes log present (f s) (f' s')) :
    ReloggedRes log present (Machine.within buf a n s f) (Machine.within buf a n s' f') :=
  .ite h (.fault _)

variable {s s' : State}

/-- The busy gate does not read the log. -/
theorem ReloggedRes.accept {f f' : State → Res} (h : Relogged log present s s')
    (hf : ReloggedRes log present (f s) (f' s')) :
    ReloggedRes log present (Machine.accept s f) (Machine.accept s' f') := by
  have hbusy := h.update fun u => { u with errBusy := true }
  obtain ⟨hs⟩ := h
  exact .ite (.next hbusy) hf

theorem Relogged.raise (h : Relogged log present s s') (e : ErrFlag) :
    Relogged log present (s.raise e) (s'.raise e) := by
  cases e <;> exact h.update fun u => u.raise _

theorem Relogged.withRes (h : Relogged log present s s') (rc : ResultCode) :
    Relogged log present (s.withRes rc) (s'.withRes rc) :=
  h.update fun u => u.withRes rc

/-! ### Codec, CRC and frame operations -/

theorem append_relogged (bytes : List Byte) (h : Relogged log present s s') :
    ReloggedRes log present (append bytes s) (append bytes s') := by
  have hraise := h.raise .bounds
  obtain ⟨hs⟩ := h
  exact .ite (.next hraise) (.next (.intro hs))

theorem getField_relogged (w : Nat) (dec : List Byte → Word32) (scale : Word32) (h : Relogged log present s s') :
    ReloggedRes log present (getField w dec scale s) (getField w dec scale s') := by
  have hraise := h.raise .bounds
  obtain ⟨hs⟩ := h
  exact .ite (.next hraise) (.within (.next (.intro hs)))

theorem getScaled_relogged (w : Nat) (dec : List Byte → Word32) (scale : Word32) (h : Relogged log present s s') :
    ReloggedRes log present (getScaled w dec scale s) (getScaled w dec scale s') :=
  .ite (.next (h.raise _)) (getField_relogged w dec scale h)

theorem execPayReset_relogged (h : Relogged log present s s') :
    ReloggedRes log present (execPayReset s) (execPayReset s') :=
  .accept h (.next (h.update fun u => { u with txCur := 0, opRes := .ok }))

theorem execRxSeek_relogged (p : Byte) (h : Relogged log present s s') :
    ReloggedRes log present (execRxSeek p s) (execRxSeek p s') := by
  refine .accept h ?_
  have hraise := h.raise .bounds
  obtain ⟨hs⟩ := h
  exact .ite (.next hraise) (.next (.intro hs))

theorem execCrc16_relogged (buf : Buffer) (off n : BitVec 16) (h : Relogged log present s s') :
    ReloggedRes log present (execCrc16 buf off n s) (execCrc16 buf off n s') := by
  refine .accept h ?_
  have hraise := h.raise .bounds
  obtain ⟨hs⟩ := h
  exact .ite (.next hraise) (.next (.intro hs))

theorem Relogged.emitFrame (h : Relogged log present s s') (f : List Byte) :
    Relogged log present (emitFrame f s) (emitFrame f s') :=
  (h.update fun u => { u.push f with txCount := BitVec.ofNat 17 f.length }).diag .frameSent

theorem execFrameSend_relogged (h : Relogged log present s s') :
    ReloggedRes log present (execFrameSend s) (execFrameSend s') := by
  refine .accept h ?_
  have hsent := (h.emitFrame (frameEncode s.txPayload)).withRes .ok
  obtain ⟨hs⟩ := h
  exact .within (.next hsent)

theorem execFrameCheck_relogged (n : Word32) (h : Relogged log present s s') :
    ReloggedRes log present (execFrameCheck n s) (execFrameCheck n s') := by
  refine .accept h ?_
  obtain ⟨hs⟩ := h
  exact .ite (.next (.intro hs)) (.ite (.next (.intro hs)) (.next (.intro hs)))

/-! ### The decode site (44_command_dispatch.md R330 to R334) -/

/-- Two decodes that go the same way. -/
def ReloggedDecode (log : List DiagEvent) (present : Bool) (r r' : State × Bool) : Prop :=
  Relogged log present r.1 r'.1 ∧ r'.2 = r.2

theorem ReloggedDecode.ite {c : Prop} [Decidable c] {r₁ r₂ r₁' r₂' : State × Bool}
    (h₁ : ReloggedDecode log present r₁ r₁') (h₂ : ReloggedDecode log present r₂ r₂') :
    ReloggedDecode log present (if c then r₁ else r₂) (if c then r₁' else r₂') := by
  split_ifs
  · exact h₁
  · exact h₂

/-- A decode that fails only reports why. -/
theorem Relogged.decodeFailed (h : Relogged log present s s') (ev : DiagEvent) :
    ReloggedDecode log present (s.diag ev, false) (s'.diag ev, false) :=
  ⟨h.diag ev, rfl⟩

theorem decodeFw_relogged (p : List Byte) (h : Relogged log present s s') :
    ReloggedDecode log present (decodeFw p s) (decodeFw p s') :=
  .ite (h.decodeFailed _)
    ⟨h.update fun u => { u with fwMajor := p.getD 1 0, fwMinor := p.getD 2 0, fwValid := true }, rfl⟩

theorem applyTelem_relogged (p : List Byte) (m : Word32) (sel : Bool) (h : Relogged log present s s') :
    ReloggedDecode log present (applyTelem p m sel s) (applyTelem p m sel s') := by
  refine .ite (h.decodeFailed _) ?_
  obtain ⟨hs⟩ := h
  exact ⟨.intro hs, rfl⟩

theorem decodeSelective_relogged (p : List Byte) (h : Relogged log present s s') :
    ReloggedDecode log present (decodeSelective p s) (decodeSelective p s') :=
  .ite (h.decodeFailed _) (applyTelem_relogged p _ true h)

theorem decodeBody_relogged (id : Byte) (p : List Byte) (h : Relogged log present s s') :
    ReloggedDecode log present (decodeBody id p s) (decodeBody id p s') :=
  .ite (decodeFw_relogged p h) <| .ite (applyTelem_relogged p _ false h) <|
    .ite (decodeSelective_relogged p h) (h.decodeFailed _)

theorem Relogged.decodeSite (h : Relogged log present s s') (p : List Byte) :
    Relogged log present (decodeSite p s) (decodeSite p s') := by
  cases p with
  | nil => exact (h.update fun u => { u with decId := 0, decRes := .decodeFail }).diag .unknownCmd
  | cons id body =>
    obtain ⟨hstate, hdecoded⟩ := decodeBody_relogged id (id :: body) (h.update fun u => { u with decId := id })
    rw [Machine.decodeSite, Machine.decodeSite, hdecoded]
    exact hstate.update fun u => u.withDecRes _

theorem decodeView_relogged (h : Relogged log present s s') :
    ReloggedRes log present (decodeView s) (decodeView s') := by
  have hres := (h.decodeSite s.view).update fun u => u.withRes u.decRes
  obtain ⟨hs⟩ := h
  exact .within (.next hres)

theorem execDecodePayload_relogged (h : Relogged log present s s') :
    ReloggedRes log present (execDecodePayload s) (execDecodePayload s') := by
  refine .accept h ?_
  have hraise := h.raise .bounds
  have hview := decodeView_relogged h
  obtain ⟨hs⟩ := h
  exact .ite (.next hraise) hview

/-! ### The end of a receive (43_receiver.md R241, R243) -/

theorem completeRequest_relogged (expected : CommandName) (rc : ResultCode) (h : Relogged log present s s') :
    ReloggedRes log present (completeRequest expected rc s) (completeRequest expected rc s') := by
  have hdecoded := (h.decodeSite s.view).update fun u =>
    u.requestDone (if u.decRes = .decodeFail then .decodeFail
      else if u.decId ≠ Config.cmdId expected then .respMismatch else .ok)
  have hfailed := h.update fun u => u.requestDone rc
  obtain ⟨hs⟩ := h
  exact .ite (.within (.next hdecoded)) (.next hfailed)

theorem completeOp_relogged (rc : ResultCode) (h : Relogged log present s s') :
    ReloggedRes log present (completeOp rc s) (completeOp rc s') := by
  have hreceived := h.update fun u => u.withRes u.rxResult
  have hquery (expected : CommandName) := completeRequest_relogged expected rc h
  obtain ⟨hs⟩ := h
  exact .ite (.next hreceived) <| .ite (hquery _) <| .ite (hquery _) <| .ite (hquery _) (.fault _)

theorem Relogged.endReceive (h : Relogged log present s s') (rc : ResultCode) :
    Relogged log present (endReceive rc s) (endReceive rc s') := by
  have hresult := h.update fun u => { u with rxResult := rc }
  unfold Machine.endReceive
  split_ifs
  · exact (hresult.update fun u => { u with rxLen := u.rxDecl, rxValid := true, rxCur := 0 }).diag .frameOk
  · exact hresult.diag .crcFail
  · exact hresult

theorem finish_relogged (rc : ResultCode) (h : Relogged log present s s') :
    ReloggedRes log present (finish rc s) (finish rc s') := by
  have hend := h.endReceive rc
  have hcompleted := completeOp_relogged rc (hend.update fun u => u.receiverIdle)
  obtain ⟨hs⟩ := h
  exact .ite (hcompleted.andThen fun _ _ hu => .next (hu.update fun u => u.ready)) (.next hend)

/-! ### The byte rule (R232 to R237) -/

theorem rxComplete_relogged (h : Relogged log present s s') :
    ReloggedRes log present (rxComplete s) (rxComplete s') := by
  have hend (rc : ResultCode) := finish_relogged rc h
  have hexhausted := finish_relogged .rxOverflow (h.diag .bufExhausted)
  obtain ⟨hs⟩ := h
  exact .ite (.ite (.ite (hend _) (hend _)) (.fault _)) (.ite hexhausted (.next (.intro hs)))

theorem rxHeader_relogged (h : Relogged log present s s') :
    ReloggedRes log present (rxHeader s) (rxHeader s') := by
  have hoverflow := ((h.update fun u => { u with rxDecl := u.byteAt .rxbuf 1 }).diag .lenOverflow).update
    fun u => u.dropOverflow
  have hshort := rxComplete_relogged (h.update fun u => u.declared (u.byteAt .rxbuf 1))
  have hlong := finish_relogged .rxLong (h.diag .longUnsupported)
  have hbadStart := (h.diag .badStart).update fun u => u.dropBadStart
  obtain ⟨hs⟩ := h
  exact .ite (.ite (.next hoverflow) hshort) (.ite hlong (.next hbadStart))

theorem rxByte_relogged (b : Byte) (h : Relogged log present s s') :
    ReloggedRes log present (rxByte b s) (rxByte b s') := by
  have hstored := h.update fun u => u.store b
  have hheader := rxHeader_relogged hstored
  have hcomplete := rxComplete_relogged hstored
  obtain ⟨hs⟩ := h
  exact .within (.ite hheader hcomplete)

/-! ### Receive steps (R238, R251) -/

theorem rxStep_relogged (h : Relogged log present s s') : ReloggedRes log present (rxStep s) (rxStep s') := by
  have htimeout := finish_relogged .timeout (h.diag .timeout)
  have htaken (b : Byte) (queue : List Byte) := rxByte_relogged b (h.update fun u => { u with rxQueue := queue })
  obtain ⟨hs⟩ := h
  cases he : expired s with
  | true =>
    rw [rxStep_expired he, rxStep_expired (s := s.loggedTo log present) he]
    exact htimeout
  | false =>
    cases hq : s.rxQueue with
    | nil =>
      rw [rxStep_empty he hq, rxStep_empty (s := s.loggedTo log present) he hq]
      exact .next (.intro hs)
    | cons b queue =>
      rw [rxStep_byte he hq, rxStep_byte (s := s.loggedTo log present) he hq]
      exact htaken b queue

theorem rxSteps_relogged (k : Nat) (h : Relogged log present s s') :
    ReloggedRes log present (rxSteps k s) (rxSteps k s') := by
  induction k generalizing s s' with
  | zero => exact .next h
  | succ k ih =>
    refine (rxStep_relogged h).andThen fun u u' hu => ?_
    have hrest := ih hu
    obtain ⟨hattached⟩ := hu
    exact .ite (.next (.intro hattached)) hrest

theorem engineTurn_relogged (h : Relogged log present s s') :
    ReloggedRes log present (engineTurn s) (engineTurn s') := by
  have hstep := rxStep_relogged h
  obtain ⟨hs⟩ := h
  exact .ite hstep (.next (.intro hs))

theorem pollDrive_relogged (h : Relogged log present s s') :
    ReloggedRes log present (pollDrive s) (pollDrive s') := by
  have hsteps := rxSteps_relogged (max s.rxQueue.length 1) h
  obtain ⟨hs⟩ := h
  refine hsteps.andThen fun u u' hu => ?_
  have hdecoded := decodeView_relogged hu
  have hreported := hu.update fun v => v.withRes v.rxResult
  obtain ⟨hattached⟩ := hu
  exact .ite hdecoded (.next hreported)

theorem execRecvBlocking_relogged (t : Time) (h : Relogged log present s s') :
    ReloggedRes log present (execRecvBlocking t s) (execRecvBlocking t s') :=
  .accept h (.next (h.update fun u => rxStart t .blocking { u with opCur := 0x30 }))

theorem execArm_relogged (hint : BitVec 16) (h : Relogged log present s s') :
    ReloggedRes log present (execArm hint s) (execArm hint s') :=
  .accept h (.next (h.update fun u => (rxStart u.cfgTimeout .armed { u with rxHint := hint }).withRes .ok))

theorem execPoll_relogged (h : Relogged log present s s') :
    ReloggedRes log present (execPoll s) (execPoll s') := by
  refine .accept h ?_
  have hdrive := pollDrive_relogged h
  obtain ⟨hs⟩ := h
  exact .ite (.next (.intro hs)) (.ite (.next (.intro hs)) hdrive)

/-! ### Requests and configuration (44_command_dispatch.md R300 to R351) -/

theorem Relogged.requestSend (h : Relogged log present s s') (sel : Byte) (c : Command) (can : Byte) :
    Relogged log present (requestSend sel c can s) (requestSend sel c can s') :=
  Relogged.emitFrame
    (h.update fun u => build c can
      { u with opCur := sel, reqCmd := Config.cmdId c.name, reqResult := .none, reqState := .encodedSent }) _

theorem requestOnly_relogged (sel : Byte) (c : Command) (can : Byte) (h : Relogged log present s s') :
    ReloggedRes log present (requestOnly sel c can s) (requestOnly sel c can s') :=
  .accept h (.next ((h.requestSend sel c can).update fun u => (u.requestDone .sent).opEnded))

theorem requestAndAwait_relogged (sel : Byte) (c : Command) (can : Byte) (h : Relogged log present s s') :
    ReloggedRes log present (requestAndAwait sel c can s) (requestAndAwait sel c can s') := by
  refine .accept h ?_
  have hstarted := (h.requestSend sel c can).update fun u => rxStart s.cfgTimeout .blocking u.awaitResponse
  obtain ⟨hs⟩ := h
  exact .next hstarted

theorem execSetAux_relogged (can : Byte) (h : Relogged log present s s') :
    ReloggedRes log present (execSetAux can s) (execSetAux can s') := by
  have hrequest (c : Command) := requestOnly_relogged 0x58 c can h
  obtain ⟨hs⟩ := h
  exact hrequest _

theorem execAuxWrite_relogged (x y : Byte) (lower upper : Bool) (h : Relogged log present s s') :
    ReloggedRes log present (execAuxWrite x y lower upper s) (execAuxWrite x y lower upper s') :=
  .accept h (.next (h.update fun u => { u with auxX := x, auxY := y, auxBtn := buttonBits lower upper, opRes := .ok }))

theorem execCfgTimeout_relogged (t : Time) (h : Relogged log present s s') :
    ReloggedRes log present (execCfgTimeout t s) (execCfgTimeout t s') :=
  .accept h (.next (h.update fun u => { u with cfgTimeout := t, opRes := .ok }))

theorem execClrErr_relogged (h : Relogged log present s s') :
    ReloggedRes log present (execClrErr s) (execClrErr s') :=
  .accept h (.next (h.update fun u => u.clearErrors.withRes .ok))

/-! ### Host operations and moves -/

/-- No host operation reads the log. -/
theorem exec_relogged {i : Instr} {v : OpWord} (hi : encode i = .host v) (h : Relogged log present s s') :
    ReloggedRes log present (exec i s) (exec i s') := by
  cases i with
  | crc16 buf off n => exact execCrc16_relogged buf off n h
  | payReset => exact execPayReset_relogged h
  | appendU8 | appendBool | appendInt32 | appendUint32 => exact .accept h (append_relogged _ h)
  | rxSeek p => exact execRxSeek_relogged p h
  | getU8 | getInt32 | getUint32 => exact .accept h (getField_relogged _ _ _ h)
  | getFloat16 | getFloat32 => exact .accept h (getScaled_relogged _ _ _ h)
  | frameSend => exact execFrameSend_relogged h
  | frameCheck n => exact execFrameCheck_relogged n h
  | recvBlocking t => exact execRecvBlocking_relogged t h
  | arm hint => exact execArm_relogged hint h
  | poll => exact execPoll_relogged h
  | decodePayload => exact execDecodePayload_relogged h
  | reqFwVersion | reqValues | reqValuesSel => exact requestAndAwait_relogged _ _ _ h
  | setCurrent | setCurrentBrake | setRpm | setPos | setDuty | sendAlive => exact requestOnly_relogged _ _ _ h
  | setAux can => exact execSetAux_relogged can h
  | auxWrite x y lower upper => exact execAuxWrite_relogged x y lower upper h
  | cfgTimeout t => exact execCfgTimeout_relogged t h
  | clrErr => exact execClrErr_relogged h
  | commFwVersion | commGetValues | commSetDuty | commSetCurrent | commSetCurrentBrake | commSetRpm | commSetPos
  | commAlive | commForwardCan | commSetChuckData | commGetValuesSelective =>
    exact absurd hi (encodeWire_ne_host _ _ _ v)
  | frameShort w | frameLong w => cases w <;> cases hi

theorem issueWord_relogged (w : OpWord) (h : Relogged log present s s') :
    ReloggedRes log present (issueWord w s) (issueWord w s') := by
  cases hd : decode (.host w) with
  | ok i =>
    obtain ⟨v, hv⟩ := encode_of_decodeWord hd
    rw [issueWord_of_decode hd, issueWord_of_decode hd]
    exact exec_relogged hv h
  | error e =>
    rw [issueWord, issueWord, hd]
    exact .accept h (.next (h.raise _))

theorem agentMove_relogged (ev : Event) (h : Relogged log present s s') :
    ReloggedRes log present (agentMove ev s) (agentMove ev s') := by
  cases ev with
  | op w => exact issueWord_relogged w h
  | rx b => exact .next (h.update fun u => u.arrive [b])
  | tick ms => exact .next (h.update fun u => { u with now := u.now + ms })
  | engine => exact engineTurn_relogged h
  | reset => exact .next (h.update resetEngine)

/-- A step does not read the log (R381). -/
theorem step_relogged (h : Relogged log present s s') : ReloggedRes log present (step s) (step s') := by
  have hidle := engineTurn_relogged h
  have hmove (ev : Event) (rest : List Event) := agentMove_relogged ev (h.update fun u => { u with sched := rest })
  obtain ⟨hs⟩ := h
  cases hsched : s.sched with
  | nil =>
    rw [step_idle hsched, step_idle (s := s.loggedTo log present) hsched]
    exact hidle
  | cons ev rest =>
    rw [step_event hsched, step_event (s := s.loggedTo log present) hsched]
    exact hmove ev rest

/-- A next state under the other sink is one under the first, logged elsewhere. -/
theorem ReloggedRes.next_right {r r' : Res} (h : ReloggedRes log present r r') {t : State} (ht : r' = .next t) :
    ∃ u : State, r = .next u ∧ t = u.loggedTo log present := by
  cases h with
  | next hu =>
    obtain ⟨-⟩ := hu
    exact ⟨_, rfl, (Host.Outcome.next.inj ht).symm⟩
  | fault | refused => cases ht

theorem ReloggedRes.next_left {r' : Res} {u : State} (h : ReloggedRes log present (.next u) r') :
    r' = .next (u.loggedTo log present) := by
  cases h with
  | next hu =>
    obtain ⟨-⟩ := hu
    rfl

end

/-- `s` with a sink that has taken no event yet. -/
def State.freshLog (s : State) : State := { s with diagLog := [], diagPresent := true }

/-- Whatever its log and its sink, a state is the one with a fresh log, logged there. -/
theorem State.freshLog_relogged (s : State) (log : List DiagEvent) (present : Bool) :
    Relogged log present s.freshLog { s with diagLog := log, diagPresent := present } := by
  have hsame : s.freshLog.loggedTo log present = { s with diagLog := log, diagPresent := present } := by
    cases present <;> simp [State.loggedTo, State.freshLog]
  exact hsame ▸ .intro rfl

/-- Settles O59: both steps are the step from a fresh log, whose events are what they have in common. -/
theorem diagDoesNotInterfere : Obligations.DiagDoesNotInterfere := by
  intro s t log present hstep
  obtain ⟨u, hu, rfl⟩ := (step_relogged (s.freshLog_relogged s.diagLog s.diagPresent)).next_right hstep
  refine ⟨u.diagLog, rfl, ?_⟩
  have hother := step_relogged (s.freshLog_relogged log present)
  rw [hu] at hother
  exact hother.next_left

end Sys2Proof.Machine
end

section
/-! SUPPORT. The two refusals at the host port: a word that comes while the engine is busy (60_exceptions.md R373), and
a word whose selector R110 reserves (R374). -/

namespace Sys2Proof.Machine

/-! ### The busy gate (R373) -/

theorem requestOnly_busy {s : State} (hb : s.busy = true) (sel : Byte) (c : Command) (can : Byte) :
    requestOnly sel c can s = .next { s with errBusy := true } := accept_busy hb _

theorem requestAndAwait_busy {s : State} (hb : s.busy = true) (sel : Byte) (c : Command) (can : Byte) :
    requestAndAwait sel c can s = .next { s with errBusy := true } := accept_busy hb _

/-- Every host operation passes the busy gate before anything else. -/
theorem exec_busy {i : Instr} {v : OpWord} (hi : encode i = .host v) {s : State} (hb : s.busy = true) :
    exec i s = .next { s with errBusy := true } := by
  cases i with
  | commFwVersion | commGetValues | commSetDuty | commSetCurrent | commSetCurrentBrake | commSetRpm | commSetPos
  | commAlive | commForwardCan | commSetChuckData | commGetValuesSelective =>
    exact absurd hi (encodeWire_ne_host _ _ _ v)
  | frameShort w | frameLong w => cases w <;> cases hi
  | reqFwVersion | reqValues | reqValuesSel => exact requestAndAwait_busy hb _ _ _
  | setCurrent | setCurrentBrake | setRpm | setPos | setDuty | setAux | sendAlive => exact requestOnly_busy hb _ _ _
  | crc16 | payReset | appendU8 | appendBool | appendInt32 | appendUint32 | rxSeek | getU8 | getInt32 | getUint32
  | getFloat16 | getFloat32 | frameSend | frameCheck | recvBlocking | arm | poll | decodePayload | auxWrite
  | cfgTimeout | clrErr =>
    rw [exec]
    exact accept_busy hb _

/-- Settles O5: a word that decodes is a host operation, a reserved one is gated too. -/
theorem busyRefusesEveryWord : Obligations.BusyRefusesEveryWord := by
  intro w s hb
  cases hd : decode (.host w) with
  | ok i =>
    obtain ⟨v, hv⟩ := encode_of_decodeWord hd
    rw [issueWord_of_decode hd]
    exact exec_busy hv hb
  | error e =>
    rw [issueWord, hd]
    exact accept_busy hb _

/-! ### Reserved selectors (R374) -/

/-- The selectors of the operations (30_encoding.md R110). -/
def operationSelectors : List Nat :=
  [0x01, 0x10, 0x11, 0x12, 0x13, 0x14, 0x18, 0x19, 0x1A, 0x1B, 0x1C, 0x1D, 0x20, 0x21, 0x30, 0x31, 0x32, 0x40,
    0x50, 0x51, 0x52, 0x53, 0x54, 0x55, 0x56, 0x57, 0x58, 0x59, 0x60, 0x70, 0x71]

/-- The reserved ranges of R110 are what the operations leave. -/
theorem reservedSelector_iff (sel : Byte) : reservedSelector sel ↔ sel.toNat ∉ operationSelectors := by
  unfold reservedSelector
  revert sel
  decide

/-- A word with the selector of an operation decodes. -/
theorem decodeWord_of_mem {w : OpWord} (h : (wordSel w).toNat ∈ operationSelectors) : ∃ i, decodeWord w = .ok i := by
  unfold decodeWord
  split
  case h_32 => simp_all [operationSelectors]
  all_goals exact ⟨_, rfl⟩

/-- No other word decodes. -/
theorem mem_of_decodeWord {w : OpWord} {i : Instr} (h : decodeWord w = .ok i) :
    (wordSel w).toNat ∈ operationSelectors := by
  unfold decodeWord at h
  split at h
  case h_32 => cases h
  all_goals simp [operationSelectors, *]

/-- Settles O4: the decoder rejects the reserved selectors, and only those. -/
theorem reservedSelectorRaises : Obligations.ReservedSelectorRaises := by
  refine fun w => ⟨fun hreserved s hready => ?raises, fun hop => ?decodes⟩
  case raises =>
    cases hd : decode (.host w) with
    | ok i => exact absurd (mem_of_decodeWord hd) ((reservedSelector_iff _).1 hreserved)
    | error e =>
      rw [issueWord, hd]
      exact accept_ready hready _
  case decodes => exact decodeWord_of_mem (not_not.1 (mt (reservedSelector_iff _).2 hop))

end Sys2Proof.Machine
end

section
/-! SUPPORT. The reset input (70_reset_and_hazards.md R410 to R412): the registers and buffers it leaves are those of
`State.reset`, whatever state it finds, and what it keeps is the environment's. -/

namespace Sys2Proof.Machine

/-! ### The state after reset (R410) -/

/-- The reset column of R31: `CFG_TIMEOUT`, `GET_SCALE` and the two auxiliary axes are not zero. -/
def resetColumn (n : Nat) : Word32 :=
  if n = 0x02 then 100 else if n = 0x09 then 1 else if n = 0x18 ∨ n = 0x19 then 127 else 0

/-- Both banks are all zero after reset; past its last field a bank reads 0 anyway. -/
theorem bankReg_replicate_zero (k : Nat) : bankReg (Vector.replicate 18 0) k = 0 := by
  rw [bankReg, Vector.toList_replicate, List.getD_eq_getElem?_getD, List.getElem?_getD_replicate_default_eq]

/-- The registers below the banks, one number after another. -/
theorem readReg_reset_of_lt : ∀ n < 0x1C, readReg State.reset n = resetColumn n := by
  decide

theorem readReg_reset (n : Nat) : readReg State.reset n = resetColumn n := by
  by_cases hn : n < 0x1C
  · exact readReg_reset_of_lt n hn
  · have hlatest : bankReg State.reset.latest (n - 0x20) = 0 := bankReg_replicate_zero _
    have hprev : bankReg State.reset.prev (n - 0x40) = 0 := bankReg_replicate_zero _
    have hcolumn : resetColumn n = 0 := by
      rw [resetColumn, if_neg (by omega), if_neg (by omega), if_neg (by omega)]
    rw [readReg_bank _ (by omega), hlatest, hprev, ite_self, ite_self, hcolumn]

/-! ### The reset input (R410, R412) -/

theorem agentMove_reset (s : State) : agentMove .reset s = .next (resetEngine s) := rfl

/-- No register shows anything of the environment, which is all that reset keeps. -/
theorem readReg_resetEngine (s : State) (n : Nat) : readReg (resetEngine s) n = readReg State.reset n := rfl

@[simp] theorem resetEngine_eng (s : State) : (resetEngine s).eng = .ready := rfl

@[simp] theorem resetEngine_rxbuf (s : State) : (resetEngine s).rxbuf = [] := rfl

@[simp] theorem resetEngine_txpay (s : State) : (resetEngine s).txpay = [] := rfl

/-- Settles O50: the registers are read off `State.reset`, and a buffer that nothing has written has no byte. -/
theorem resetValues : Obligations.ResetValues := by
  refine fun s => ⟨resetEngine s, agentMove_reset s, fun n => ?registers, resetEngine_eng s, fun a => ?buffers⟩
  case registers => rw [readReg_resetEngine, readReg_reset, resetColumn]
  case buffers => simp

/-- Settles O51: reset copies the environment's fields from the state it finds. -/
theorem resetKeepsEnvironment : Obligations.ResetKeepsEnvironment :=
  fun s => ⟨resetEngine s, agentMove_reset s, rfl, rfl, rfl, rfl, rfl⟩

/-- Settles O56, part by part of the invariant in `reset_inv`. -/
theorem resetMeetsInvariant : Obligations.ResetMeetsInvariant := reset_inv

end Sys2Proof.Machine
end
